-- ==== Sys2Proof/Word.lean ====
section
/-! DEFINITION. The word types of DEC, by the widths of 00_scope.md R6. -/

namespace Sys2Proof

/-- `u8`, the addressable unit of the accessor (20_memory.md R45). -/
abbrev Byte := BitVec 8

/-- A unit: the `u16` that `read16` returns (00_scope.md glossary). -/
abbrev InsnUnit := BitVec 16

/-- `Word`, the raw instruction word, `u64` (R6). -/
abbrev Word := BitVec 64

/-- `Addr`, `ADDR_WIDTH` = 32 bits, arithmetic modulo 2^32 (R5, R6, R52). -/
abbrev Addr := BitVec 32

/-- `i64`, in two's complement (R6). -/
abbrev I64 := BitVec 64

/-- `i32`, in two's complement (R6). -/
abbrev I32 := BitVec 32

/-- VariantMask, a 4-bit mask (10_state.md R12). -/
abbrev VariantMask := BitVec 4

end Sys2Proof
end

