-- ==== Sys2Proof/Config.lean ====
section
/-! DEFINITION. The parameters of DEC (00_scope.md R5) as plain data, the records the tables speak of
(10_state.md), and the constants nothing can evaluate: the OPEN parameters of this instance and the free values. -/

namespace Sys2Proof

/-! ### Variants -/

/-- `V_A600` (R12; the value is the spec's decision D1). -/
abbrev VariantMask.a600 : VariantMask := 0x1
/-- `V_A700` (R12). -/
abbrev VariantMask.a700 : VariantMask := 0x2
/-- `V_EM` (R12). -/
abbrev VariantMask.em : VariantMask := 0x4
/-- `V_HS` (R12). -/
abbrev VariantMask.hs : VariantMask := 0x8

/-- A byte length, one of 2, 4, 6, 8 (30_encoding.md R62). -/
inductive ByteLen where
  | two | four | six | eight
  deriving DecidableEq, Repr, Inhabited

/-- The number of bytes of a `ByteLen`. -/
def ByteLen.bytes : ByteLen → Nat
  | .two => 2
  | .four => 4
  | .six => 6
  | .eight => 8

/-- What `EXT_MINOR_LEN` can answer besides `none` (R5, R108). -/
inductive ExtLen where
  | six | eight
  deriving DecidableEq, Repr, Inhabited

/-! ### Operand descriptors (10_state.md R17, R20) -/

/-- OperandFlagSet: the set of the members the document names (R17). -/
structure OperandFlags where
  signed : Bool := false
  unsigned : Bool := false
  aligned16 : Bool := false
  aligned32 : Bool := false
  truncate : Bool := false
  duplicate : Bool := false
  fake : Bool := false
  limm : Bool := false
  reg : Bool := false
  deriving DecidableEq, Repr, Inhabited

/-- The registers a fixed-register extractor names (40_bit_extractors.md R93). -/
inductive FixedReg where
  | sp | gp | blink | ilink1 | ilink2 | r0 | r1 | r2 | r3 | pcl
  deriving DecidableEq, Repr, Inhabited

/-- One bit group `(hi, lo, dst)` of a split field (R94). -/
structure BitGroup where
  hi : Nat
  lo : Nat
  dst : Nat
  deriving DecidableEq, Repr, Inhabited

/-- The scale of a field extractor, 1, 2 or 4 (R94, R97). -/
inductive Scale where
  | one | two | four
  deriving DecidableEq, Repr, Inhabited

/-- Which of the three register-shorthand extractors; they differ only in the field's position (R95). -/
inductive Shorthand where
  | ras | rbs | rcs
  deriving DecidableEq, Repr, Inhabited

/-- The extractors DEC provides (R20: "the extractors DEC provides are those of 40_bit_extractors.md"). -/
inductive Extractor where
  /-- `extract_sp` and its kin (R93). -/
  | fixed (r : FixedReg)
  /-- A field extractor: groups, signedness, width `N`, scale (R94). -/
  | field (groups : List BitGroup) (signed : Bool) (width : Nat) (scale : Scale)
  /-- `extract_ras`, `extract_rbs`, `extract_rcs` on the three bits from `lo` up (R95). -/
  | shorthand (which : Shorthand) (lo : Nat)
  /-- `extract_rb` on its split 6-bit field (R96). -/
  | regB (groups : List BitGroup)
  deriving DecidableEq, Repr, Inhabited

/-- The opaque `relocation` tag, read by no rule (R20). -/
structure RelocTag where
  id : Nat
  deriving DecidableEq, Repr, Inhabited

/-- OperandDescriptor (R20). -/
structure OperandDescriptor where
  bitWidth : Nat
  shift : Nat
  relocation : RelocTag := ⟨0⟩
  flags : OperandFlags := {}
  extract : Option Extractor := none
  deriving DecidableEq, Repr, Inhabited

/-! ### Flags (R22, R23) -/

/-- FlagOperand (R22). -/
structure FlagOperand where
  mnemonicText : String
  code : Nat
  bitWidth : Nat
  shift : Nat
  isFavored : Bool := false
  deriving DecidableEq, Repr, Inhabited

/-- `class_kind`, a set (R23). -/
structure ClassKind where
  implicit : Bool := false
  optional : Bool := false
  cond : Bool := false
  wb : Bool := false
  zz : Bool := false
  f : Bool := false
  d : Bool := false
  di : Bool := false
  x : Bool := false
  deriving DecidableEq, Repr, Inhabited

/-- FlagClass (R23). The members are given as indices into `T_FLAGS`, in order (log 11). -/
structure FlagClass where
  kind : ClassKind
  members : List Nat
  deriving DecidableEq, Repr, Inhabited

/-! ### Opcode templates (R25) -/

/-- InstructionClass: an opaque enumeration with the distinguished value of `ZERO_INSN` (R14). -/
inductive InsnClass where
  | classNone
  | label (name : String)
  deriving DecidableEq, Repr, Inhabited

/-- OpcodeTemplate (R25). Its class is a label: `CLASS_NONE` is "used only by ZERO_INSN" (R14). -/
structure OpcodeTemplate where
  mnemonic : String
  opcodeValue : Word
  mask : Word
  cpu : VariantMask
  cls : String
  operandList : List Nat
  flagList : List Nat
  deriving DecidableEq, Repr, Inhabited

/-! ### Semantic tables (R29 to R32) -/

/-- A mapping identifier (R29). -/
abbrev MapId := String

/-- One row of `T_MNEMONIC_MAP` (R29). -/
structure MnemonicEntry where
  mnemonic : String
  map : MapId
  deriving DecidableEq, Repr, Inhabited

/-- One row of `T_HANDLERS`; the handler is held by reference, its body is opaque (R30). -/
structure HandlerEntry where
  map : MapId
  arity : Nat
  handler : String
  deriving DecidableEq, Repr, Inhabited

/-- One ConstantOperandEntry (R31). -/
structure ConstantOperandEntry where
  map : MapId
  operandIndex : Nat
  defaultValue : I64
  deriving DecidableEq, Repr, Inhabited

/-- The four special handlers (R32, 44_semantic_dispatcher.md R148). -/
inductive SpecialKind where
  | syscallTrap | softwareTrap | returnFromException | sleepHalt
  deriving DecidableEq, Repr, Inhabited

/-- One row of `S_SPECIAL` (R32). -/
structure SpecialEntry where
  map : MapId
  kind : SpecialKind
  deriving DecidableEq, Repr, Inhabited

/-- Every parameter of DEC that is not fixed for this hardware (R5). -/
structure Params where
  /-- `EXT_MINOR_LEN`: the minor opcodes it maps to 6 or 8; every other one is `none` (R108). -/
  extMinorLen : List (BitVec 5 × ExtLen)
  /-- `BIG_ENDIAN` (R48). -/
  bigEndian : Bool
  /-- `LIMM_SENTINEL_2B_LEGACY` (R76, R122). -/
  limmSentinel2BLegacy : Option I64
  /-- `MAX_OPS` (R27). -/
  maxOps : Nat
  /-- `NUM_REGS` (R13). -/
  numRegs : Nat
  regSp : Nat
  regGp : Nat
  regBlink : Nat
  regIlink1 : Nat
  regIlink2 : Nat
  regPcl : Nat
  tOperands : List OperandDescriptor
  tFlags : List FlagOperand
  tClasses : List FlagClass
  tOpcodes : List OpcodeTemplate
  tMnemonicMap : List MnemonicEntry
  tHandlers : List HandlerEntry
  tConstOperands : List ConstantOperandEntry
  sSpecial : List SpecialEntry
  deriving DecidableEq, Repr, Inhabited

/-! ### The records an operation works on -/

/-- One entry of a decoded record: `(value, type)` (R17). -/
structure Operand where
  value : I64
  type : OperandFlags
  deriving DecidableEq, Repr, Inhabited

/-- DecodedInstruction, `insn_t` (R14). The defaults are the fields of `ZERO_INSN` (R15). -/
structure DecodedInsn where
  operands : List Operand := []
  cc : Nat := 0
  aa : Nat := 0
  zz : Nat := 0
  d : Bool := false
  f : Bool := false
  di : Bool := false
  x : Bool := false
  limmP : Bool := false
  limm : I32 := 0
  len : Byte := 0
  cls : InsnClass := .classNone
  deriving DecidableEq, Repr, Inhabited

/-- `ZERO_INSN` (R15). -/
def DecodedInsn.zero : DecodedInsn := {}

/-- `n_ops`, which "always" equals `len(operands)` (R14), so it is computed and not stored. -/
def DecodedInsn.nOps (c : DecodedInsn) : Nat := c.operands.length

/-- DisassemblyContext (R10). -/
structure Context where
  currentPc : Addr
  nextPc : Addr
  alignedPc : Addr
  decoded : DecodedInsn
  cpuVariant : VariantMask
  deriving DecidableEq, Repr, Inhabited

/-- An IR-value handle: an alias of a register's storage, or a temporary (R35, R38). -/
inductive Handle where
  | reg (r : Nat)
  | temp (n : Nat)
  deriving DecidableEq, Repr, Inhabited

/-- The dispatcher's result (R145): `CONTINUE`, `NO_RETURN`, `TOO_MANY`. -/
inductive Disposition where
  | continueBlock | noReturn | tooMany
  deriving DecidableEq, Repr, Inhabited

/-! ### Constants without a body -/

/-- DESIGN CHOICE (log 1), safe: the OPEN parameters of the instance that `State.reset` stands for. -/
opaque Config.params : Params

/-- Free value (log 4), safe: an unspecified address (R42, R53, R173). -/
opaque Config.freeAddr : Nat → Addr

/-- Free value (log 4), safe: an unspecified variant (R42, R173). -/
opaque Config.freeVariant : Nat → VariantMask

/-- Free value (log 4), safe: an unspecified decoded record (R53). -/
opaque Config.freeInsn : Nat → DecodedInsn

/-- Free value (log 9), safe: the disposition a handler returns, which may depend on the handler, its
arguments and state of the backend's own (R152, R171); the number makes every call a fresh one. -/
opaque Config.handlerDisposition : Nat → String → Context → List Handle → Disposition

/-- Free value (log 9), safe: the disposition a special handler returns (R148). -/
opaque Config.specialDisposition : Nat → SpecialKind → Context → Disposition

end Sys2Proof
end

