-- ==== Sys2Proof/Syntax.lean ====
section
/-! DEFINITION. The one inductive of what the host can present, one constructor per row of
spec/opcode_table.json: the eight codes of the command interface (30_encoding.md R88), and the 24 encodings that
operations consume, each offered alone (log 10). -/

namespace Sys2Proof

inductive Instr where
  /-- `CLASSIFY` (41_length_classifier.md R104). -/
  | classify (u0 : InsnUnit) (variant : VariantMask)
  /-- `FIND_FORMAT` (42_format_matcher.md R114). -/
  | findFormat (word : Word) (len : ByteLen) (mask : VariantMask)
  /-- `READ_AND_DECODE` (43_decode_entry.md R134): the host writes the two context fields it owns (R10). -/
  | readAndDecode (pc : Addr) (variant : VariantMask)
  /-- `DISPATCH` (44_semantic_dispatcher.md R145). -/
  | dispatch (t : Nat)
  /-- `EXTRACT` (40_bit_extractors.md R91). -/
  | extract (word : Word) (k : Nat)
  /-- `RESET` (70_reset_and_hazards.md R173). -/
  | reset
  /-- Operation code 0b110 (R88, R163). -/
  | reserved110
  /-- Operation code 0b111 (R88, R163). -/
  | reserved111
  /-- Length class of majors 0x00 to 0x07, legacy variants (R79). -/
  | lenLegacyMajor00To07 (u0 : InsnUnit) (variant : VariantMask)
  /-- Length class of majors 0x08 and 0x09, legacy variants (R79). -/
  | lenLegacyMajor08To09 (u0 : InsnUnit) (variant : VariantMask)
  /-- Length class of major 0x0a, legacy variants (R79). -/
  | lenLegacyMajor0A (u0 : InsnUnit) (variant : VariantMask)
  /-- Length class of major 0x0b, legacy variants (R79). -/
  | lenLegacyMajor0B (u0 : InsnUnit) (variant : VariantMask)
  /-- Length class of majors 0x0c to 0x0f, legacy variants (R79). -/
  | lenLegacyMajor0CTo0F (u0 : InsnUnit) (variant : VariantMask)
  /-- Length class of majors 0x10 to 0x1f, legacy variants (R79). -/
  | lenLegacyMajor10To1F (u0 : InsnUnit) (variant : VariantMask)
  /-- Length class of majors 0x00 to 0x07, current variants (R80). -/
  | lenCurrentMajor00To07 (u0 : InsnUnit) (variant : VariantMask)
  /-- Length class of majors 0x08 to 0x0f, current variants (R80). -/
  | lenCurrentMajor08To0F (u0 : InsnUnit) (variant : VariantMask)
  /-- Length class of majors 0x10 to 0x1f, current variants (R80). -/
  | lenCurrentMajor10To1F (u0 : InsnUnit) (variant : VariantMask)
  /-- Template masks of derived length 2 (R70). -/
  | templateLen2 (mask : Word)
  /-- Template masks of derived length 4 (R70). -/
  | templateLen4 (mask : Word)
  /-- Template masks of derived length 6 (R70). -/
  | templateLen6 (mask : Word)
  /-- Template masks of derived length 8 (R70). -/
  | templateLen8 (mask : Word)
  /-- A register operand of value 0x3e in a 4-byte encoding (R76). -/
  | limmSentinel4B (mask : VariantMask)
  /-- A register operand of value 0x1e in a 2-byte encoding, mask with a current variant (R76). -/
  | limmSentinel2BCurrent (mask : VariantMask)
  /-- A register operand of a 2-byte encoding, legacy mask; the sentinel is a parameter (R76). -/
  | limmSentinel2BLegacy (value : I64) (mask : VariantMask)
  /-- Raw code 0 of a compressed register field (R74). -/
  | regShorthandCode0
  /-- Raw code 1 (R74). -/
  | regShorthandCode1
  /-- Raw code 2 (R74). -/
  | regShorthandCode2
  /-- Raw code 3 (R74). -/
  | regShorthandCode3
  /-- Raw code 4 (R74). -/
  | regShorthandCode4
  /-- Raw code 5 (R74). -/
  | regShorthandCode5
  /-- Raw code 6 (R74). -/
  | regShorthandCode6
  /-- Raw code 7 (R74). -/
  | regShorthandCode7
  deriving DecidableEq, Repr, Inhabited

end Sys2Proof
end

