-- ==== Sys2Proof/WellFormed.lean ====
section
/-! DEFINITION. Which terms of `Instr` stand for something the host can present: the columns match, mask, variants
and threshold of spec/opcode_table.json, and the width of an index in the model's packet (log 2). -/

namespace Sys2Proof

/-- A table index fits the packet's 32 bits (log 2). -/
def indexFits (k : Nat) : Bool := decide (k < 2 ^ 32)

/-- The unit lies in the row's class: `u0 & mask == match` (R79, R80). -/
def unitInRow (mask value : InsnUnit) (u0 : InsnUnit) : Bool := (u0 &&& mask) == value

/-- The row's group of legacy variants, one of them exactly (R79). -/
def isLegacyVariant (v : VariantMask) : Bool := v == VariantMask.a600 || v == VariantMask.a700

/-- The row's group of current variants, one of them exactly (R80). -/
def isCurrentVariant (v : VariantMask) : Bool := v == VariantMask.em || v == VariantMask.hs

/-- The mask intersects {EM, HS} (R76). -/
def meetsCurrent (m : VariantMask) : Bool := (m &&& (VariantMask.em ||| VariantMask.hs)) != 0

def Instr.wellFormed : Instr → Bool
  | .classify _ _ => true
  | .findFormat _ _ _ => true
  | .readAndDecode _ _ => true
  | .dispatch t => indexFits t
  | .extract _ k => indexFits k
  | .reset => true
  | .reserved110 => true
  | .reserved111 => true
  | .lenLegacyMajor00To07 u v => unitInRow 0xC000 0x0000 u && isLegacyVariant v
  | .lenLegacyMajor08To09 u v => unitInRow 0xF000 0x4000 u && isLegacyVariant v
  | .lenLegacyMajor0A u v => unitInRow 0xF800 0x5000 u && isLegacyVariant v
  | .lenLegacyMajor0B u v => unitInRow 0xF800 0x5800 u && isLegacyVariant v
  | .lenLegacyMajor0CTo0F u v => unitInRow 0xE000 0x6000 u && isLegacyVariant v
  | .lenLegacyMajor10To1F u v => unitInRow 0x8000 0x8000 u && isLegacyVariant v
  | .lenCurrentMajor00To07 u v => unitInRow 0xC000 0x0000 u && isCurrentVariant v
  | .lenCurrentMajor08To0F u v => unitInRow 0xC000 0x4000 u && isCurrentVariant v
  | .lenCurrentMajor10To1F u v => unitInRow 0x8000 0x8000 u && isCurrentVariant v
  | .templateLen2 m => decide (m.toNat < 0x10000)
  | .templateLen4 m => decide (0x10000 ≤ m.toNat) && decide (m.toNat < 0x100000000)
  | .templateLen6 m => decide (0x100000000 ≤ m.toNat) && decide (m.toNat < 0x1000000000000)
  | .templateLen8 m => decide (0x1000000000000 ≤ m.toNat)
  | .limmSentinel4B _ => true
  | .limmSentinel2BCurrent m => meetsCurrent m
  | .limmSentinel2BLegacy _ m => !meetsCurrent m
  | .regShorthandCode0 => true
  | .regShorthandCode1 => true
  | .regShorthandCode2 => true
  | .regShorthandCode3 => true
  | .regShorthandCode4 => true
  | .regShorthandCode5 => true
  | .regShorthandCode6 => true
  | .regShorthandCode7 => true

end Sys2Proof
end

