-- ==== Sys2Proof/Decode.lean ====
section
/-! DEFINITION. The command interface's packets: from bytes to `Instr` and back. The 3-bit operation codes are those of
30_encoding.md R88; where the operands of a command lie is open (R41: "a model may expose the five operations as five
functions instead"), so the layout of the packet is the model's own (log 2). -/

namespace Sys2Proof

/-- Why bytes are no packet. -/
inductive DecodeError where
  /-- no byte is presented -/
  | empty
  /-- the first byte selects nothing the interface has -/
  | unknownSelector (tag : Byte)
  /-- the packet ends before its last operand byte -/
  | truncated
  /-- an operand byte holds a value its field has no meaning for -/
  | reservedValue
  deriving DecidableEq, Repr

/-! ### Operand bytes, least significant first -/

/-- The low `n` bytes of `v`, lowest first. -/
def putLE : Nat → Nat → List Byte
  | 0, _ => []
  | n + 1, v => BitVec.ofNat 8 v :: putLE n (v / 256)

/-- `n` bytes read as one number, lowest first, with the bytes that follow. -/
def takeLE : Nat → List Byte → Option (Nat × List Byte)
  | 0, bs => some (0, bs)
  | _ + 1, [] => none
  | n + 1, b :: bs =>
    match takeLE n bs with
    | none => none
    | some (v, rest) => some (b.toNat + 256 * v, rest)

abbrev Decoded := Except DecodeError (Instr × List Byte)

/-- Read an `n`-byte operand and go on. -/
def operandLE (n : Nat) (bs : List Byte) (k : Nat → List Byte → Decoded) : Decoded :=
  match takeLE n bs with
  | none => .error .truncated
  | some (v, rest) => k v rest

/-- Read a one-byte operand below `bound` and go on. -/
def smallOperand (bound : Nat) (bs : List Byte) (k : Nat → List Byte → Decoded) : Decoded :=
  operandLE 1 bs fun v rest => if v < bound then k v rest else .error .reservedValue

/-! ### Fields -/

/-- The byte-length operand: 0, 1, 2, 3 stand for 2, 4, 6, 8 (log 2). -/
def ByteLen.code : ByteLen → Nat
  | .two => 0
  | .four => 1
  | .six => 2
  | .eight => 3

def ByteLen.ofCode : Nat → ByteLen
  | 0 => .two
  | 1 => .four
  | 2 => .six
  | _ => .eight

/-- The variant operand of a first unit presented alone: 0, 1, 2, 3 stand for A600, A700, EM, HS (log 2). -/
def variantOfIndex : Nat → VariantMask
  | 0 => VariantMask.a600
  | 1 => VariantMask.a700
  | 2 => VariantMask.em
  | _ => VariantMask.hs

def indexOfVariant (v : VariantMask) : Nat :=
  if v = VariantMask.a600 then 0 else if v = VariantMask.a700 then 1 else if v = VariantMask.em then 2 else 3

/-- The length-class row a first unit lies in under a legacy variant (30_encoding.md R79). -/
def legacyRow (u : InsnUnit) (v : VariantMask) : Instr :=
  if unitInRow 0xC000 0x0000 u then .lenLegacyMajor00To07 u v
  else if unitInRow 0xF000 0x4000 u then .lenLegacyMajor08To09 u v
  else if unitInRow 0xF800 0x5000 u then .lenLegacyMajor0A u v
  else if unitInRow 0xF800 0x5800 u then .lenLegacyMajor0B u v
  else if unitInRow 0xE000 0x6000 u then .lenLegacyMajor0CTo0F u v
  else .lenLegacyMajor10To1F u v

/-- The length-class row a first unit lies in under a current variant (R80). -/
def currentRow (u : InsnUnit) (v : VariantMask) : Instr :=
  if unitInRow 0xC000 0x0000 u then .lenCurrentMajor00To07 u v
  else if unitInRow 0xC000 0x4000 u then .lenCurrentMajor08To0F u v
  else .lenCurrentMajor10To1F u v

/-- The length-class row of a first unit and a recognised variant. -/
def unitRow (u : InsnUnit) (v : VariantMask) : Instr :=
  if isLegacyVariant v then legacyRow u v else currentRow u v

/-- The template-length row a mask lies in (R70). -/
def maskRow (m : Word) : Instr :=
  if m.toNat < 0x10000 then .templateLen2 m
  else if m.toNat < 0x100000000 then .templateLen4 m
  else if m.toNat < 0x1000000000000 then .templateLen6 m
  else .templateLen8 m

/-! ### The packet: a selector byte and its operand bytes

| selector | what is presented | operand bytes |
|---|---|---|
| 0x00 to 0x07 | the command of `op` (R88) | see `decode` |
| 0x08 to 0x0F | the compressed register code of bits 2:0 (R74) | none |
| 0x10 | a first unit under a recognised variant (R79, R80) | unit (2), variant index (1) |
| 0x20 | a template mask (R70) | mask (8) |
| 0x1E | register value 0x1e, 2-byte encoding, current mask (R76) | mask less 4 (1) |
| 0x3E | register value 0x3e, 4-byte encoding (R76) | mask (1) |
| 0x5E | register value, 2-byte encoding, legacy mask (R76) | mask (1), value (8) |
-/

/-- The decoder: total on any bytes. -/
def decode : List Byte → Decoded
  | [] => .error .empty
  | tag :: bs =>
    if tag = 0x00 then
      operandLE 2 bs fun u bs => smallOperand 16 bs fun v bs =>
        .ok (.classify (BitVec.ofNat 16 u) (BitVec.ofNat 4 v), bs)
    else if tag = 0x01 then
      operandLE 8 bs fun w bs => smallOperand 4 bs fun l bs => smallOperand 16 bs fun m bs =>
        .ok (.findFormat (BitVec.ofNat 64 w) (ByteLen.ofCode l) (BitVec.ofNat 4 m), bs)
    else if tag = 0x02 then
      operandLE 4 bs fun pc bs => smallOperand 16 bs fun v bs =>
        .ok (.readAndDecode (BitVec.ofNat 32 pc) (BitVec.ofNat 4 v), bs)
    else if tag = 0x03 then operandLE 4 bs fun t bs => .ok (.dispatch t, bs)
    else if tag = 0x04 then
      operandLE 8 bs fun w bs => operandLE 4 bs fun k bs => .ok (.extract (BitVec.ofNat 64 w) k, bs)
    else if tag = 0x05 then .ok (.reset, bs)
    else if tag = 0x06 then .ok (.reserved110, bs)
    else if tag = 0x07 then .ok (.reserved111, bs)
    else if tag = 0x08 then .ok (.regShorthandCode0, bs)
    else if tag = 0x09 then .ok (.regShorthandCode1, bs)
    else if tag = 0x0A then .ok (.regShorthandCode2, bs)
    else if tag = 0x0B then .ok (.regShorthandCode3, bs)
    else if tag = 0x0C then .ok (.regShorthandCode4, bs)
    else if tag = 0x0D then .ok (.regShorthandCode5, bs)
    else if tag = 0x0E then .ok (.regShorthandCode6, bs)
    else if tag = 0x0F then .ok (.regShorthandCode7, bs)
    else if tag = 0x10 then
      operandLE 2 bs fun u bs => smallOperand 4 bs fun v bs =>
        .ok (unitRow (BitVec.ofNat 16 u) (variantOfIndex v), bs)
    else if tag = 0x20 then operandLE 8 bs fun m bs => .ok (maskRow (BitVec.ofNat 64 m), bs)
    else if tag = 0x1E then
      smallOperand 12 bs fun m bs => .ok (.limmSentinel2BCurrent (BitVec.ofNat 4 (m + 4)), bs)
    else if tag = 0x3E then smallOperand 16 bs fun m bs => .ok (.limmSentinel4B (BitVec.ofNat 4 m), bs)
    else if tag = 0x5E then
      smallOperand 4 bs fun m bs => operandLE 8 bs fun v bs =>
        .ok (.limmSentinel2BLegacy (BitVec.ofNat 64 v) (BitVec.ofNat 4 m), bs)
    else .error (.unknownSelector tag)

/-- A first unit and its variant as the packet carries them. -/
def encodeUnit (u : InsnUnit) (v : VariantMask) : List Byte :=
  (0x10 : Byte) :: (putLE 2 u.toNat ++ putLE 1 (indexOfVariant v))

/-- A template mask as the packet carries it. -/
def encodeMask (m : Word) : List Byte := (0x20 : Byte) :: putLE 8 m.toNat

/-- The encoder. -/
def encode : Instr → List Byte
  | .classify u v => (0x00 : Byte) :: (putLE 2 u.toNat ++ putLE 1 v.toNat)
  | .findFormat w l m => (0x01 : Byte) :: (putLE 8 w.toNat ++ (putLE 1 l.code ++ putLE 1 m.toNat))
  | .readAndDecode pc v => (0x02 : Byte) :: (putLE 4 pc.toNat ++ putLE 1 v.toNat)
  | .dispatch t => (0x03 : Byte) :: putLE 4 t
  | .extract w k => (0x04 : Byte) :: (putLE 8 w.toNat ++ putLE 4 k)
  | .reset => [0x05]
  | .reserved110 => [0x06]
  | .reserved111 => [0x07]
  | .lenLegacyMajor00To07 u v => encodeUnit u v
  | .lenLegacyMajor08To09 u v => encodeUnit u v
  | .lenLegacyMajor0A u v => encodeUnit u v
  | .lenLegacyMajor0B u v => encodeUnit u v
  | .lenLegacyMajor0CTo0F u v => encodeUnit u v
  | .lenLegacyMajor10To1F u v => encodeUnit u v
  | .lenCurrentMajor00To07 u v => encodeUnit u v
  | .lenCurrentMajor08To0F u v => encodeUnit u v
  | .lenCurrentMajor10To1F u v => encodeUnit u v
  | .templateLen2 m => encodeMask m
  | .templateLen4 m => encodeMask m
  | .templateLen6 m => encodeMask m
  | .templateLen8 m => encodeMask m
  | .limmSentinel4B m => (0x3E : Byte) :: putLE 1 m.toNat
  | .limmSentinel2BCurrent m => (0x1E : Byte) :: putLE 1 (m.toNat - 4)
  | .limmSentinel2BLegacy v m => (0x5E : Byte) :: (putLE 1 m.toNat ++ putLE 8 v.toNat)
  | .regShorthandCode0 => [0x08]
  | .regShorthandCode1 => [0x09]
  | .regShorthandCode2 => [0x0A]
  | .regShorthandCode3 => [0x0B]
  | .regShorthandCode4 => [0x0C]
  | .regShorthandCode5 => [0x0D]
  | .regShorthandCode6 => [0x0E]
  | .regShorthandCode7 => [0x0F]

/-! ### The opcode table's words -/

/-- The number of bytes of the longest packet (EXTRACT). -/
def packetBytes : Nat := 13

/-- A word of the opcode table laid out as the interface takes it, every operand byte above it 0: a word of up to
8 bits is a selector byte, one of up to 16 bits a first unit, a longer one a template mask (log 12). -/
def layoutTableWord (nbits w : Nat) : List Byte :=
  if nbits ≤ 8 then putLE packetBytes (w % 2 ^ 8)
  else if nbits ≤ 16 then (0x10 : Byte) :: putLE (packetBytes - 1) (w % 2 ^ 16)
  else (0x20 : Byte) :: putLE (packetBytes - 1) (w % 2 ^ 64)

/-- The instruction the decoder reads from a word of the opcode table. -/
def decodeTableWord (nbits w : Nat) : Option Instr :=
  match decode (layoutTableWord nbits w) with
  | .ok (i, _) => some i
  | .error _ => none

end Sys2Proof
end

