-- ==== Sys2Proof/Machine/State.lean ====
section
/-! DEFINITION. The state of the machine: DEC's own five elements (10_state.md R9) in `Dec`, and beside them what the
interfaces of R36 to R41 hold, the parameters (R5), and the model's own bookkeeping. INVENTORY.md lists every field. -/

namespace Sys2Proof.Machine

/-! ### DEC's five elements -/

/-- The outcome codes (60_exceptions.md R158). -/
inductive OutcomeCode where
  | ok | decodeMiss | fatalVariant | fatalNoMapping | fatalNoHandler | fatalLength | fatalNoDefault | aborted
  | illegalOp | halted
  deriving DecidableEq, Repr, Inhabited

/-- The number of an outcome code (R158). -/
def OutcomeCode.number : OutcomeCode → Nat
  | .ok => 0
  | .decodeMiss => 1
  | .fatalVariant => 2
  | .fatalNoMapping => 3
  | .fatalNoHandler => 4
  | .fatalLength => 5
  | .fatalNoDefault => 6
  | .aborted => 7
  | .illegalOp => 8
  | .halted => 9

/-- The fatal outcomes are codes 2 to 6 (R164). -/
def OutcomeCode.isFatal (c : OutcomeCode) : Bool := decide (2 ≤ c.number) && decide (c.number ≤ 6)

/-- DEC's mutable state, "exactly five elements" (R9). -/
structure Dec where
  ctx : Context
  initDone : Bool
  halted : Bool
  status : OutcomeCode
  /-- the temporaries currently allocated, in allocation order (R35, R153) -/
  liveTemps : List Nat
  deriving DecidableEq, Repr, Inhabited

/-! ### The accessor (R36, R47) -/

/-- The bytes the accessor can supply, in canonical form; an address that is not listed is one it refuses to read
(R53), so no byte value is made up for it (log 5). -/
abbrev Memory := List Host.Cell

/-- A change by another agent: the byte at an address becomes this one, or unreadable (R56, R183). -/
structure Edit where
  addr : Addr
  byte : Option Byte
  deriving DecidableEq, Repr, Inhabited

/-- The accessor: its memory, and the batches of changes that land before DEC's coming reads, one batch a read
(log 6). -/
structure Accessor where
  mem : Memory
  edits : List (List Edit)
  deriving DecidableEq, Repr, Inhabited

/-! ### What DEC says to its collaborators (R38, R39) -/

/-- The two accesses DEC issues (R46). -/
inductive ReadWidth where
  | read16 | read32
  deriving DecidableEq, Repr, Inhabited

/-- The kinds of diagnostic record (R165). `invalidInstruction` is the caller's, never DEC's. -/
inductive DiagKind where
  | noMapping | unimplementedSemantic | invalidInstruction | fatalConfiguration
  deriving DecidableEq, Repr, Inhabited

/-- A diagnostic record (R39, R165); the kinds whose payload has no address have none (log 13). -/
structure Diag where
  kind : DiagKind
  mnemonic : Option String
  address : Option Addr
  value : Option Nat
  deriving DecidableEq, Repr, Inhabited

/-- One entry of the ordered trace of what DEC does on its interfaces (R38, R56, R165). -/
inductive Event where
  | read (w : ReadWidth) (a : Addr)
  | regHandle (r : Nat)
  | constHandle (v : I64) (t : Nat)
  | limmHandle (v : I32) (t : Nat)
  | release (t : Nat)
  /-- the handler invocation (R152); the IR the handler emits is its own affair (R3) -/
  | handler (reference : String) (ctx : Context) (args : List Handle)
  /-- the special handler's invocation (R148) -/
  | special (kind : SpecialKind) (ctx : Context)
  | diag (d : Diag)
  deriving DecidableEq, Repr, Inhabited

/-! ### The command interface (R41) -/

/-- The information an outcome carries (R158, column "Information recorded"). -/
inductive OutcomeInfo where
  | nothing
  | address (a : Addr)
  | variant (v : VariantMask)
  | lengthAt (l : ByteLen) (pc : Addr)
  | mnemonicAt (m : String) (pc : Addr)
  | positionAt (m : String) (p : Nat) (pc : Addr)
  deriving DecidableEq, Repr, Inhabited

/-- The outputs of an operation (30_encoding.md R88). -/
inductive Output where
  | nothing
  /-- CLASSIFY, and a template's derived length -/
  | length (l : ByteLen)
  /-- FIND_FORMAT: the template's index; the record is in `ctx.decoded` (R114) -/
  | found (t : Nat)
  | notFound
  /-- READ_AND_DECODE: true with the template's index, or false (R134) -/
  | decoded (t : Nat)
  | undecoded
  /-- EXTRACT: value and `invalid` (R91) -/
  | value (v : I64) (invalid : Bool)
  /-- DISPATCH (R145) -/
  | disposition (d : Disposition)
  /-- the matcher's sentinel test: whether it rejects the candidate (R122) -/
  | rejected (b : Bool)
  deriving DecidableEq, Repr, Inhabited

/-- What the command interface answers. `outcome` is `none` before the first answer, and for the matcher's inner
tests, which have "no outcome code" (R160). -/
structure Answer where
  outcome : Option OutcomeCode
  info : OutcomeInfo
  out : Output
  deriving DecidableEq, Repr, Inhabited

/-- The command interface: the bytes presented and not yet taken, and the last answer. -/
structure Port where
  cmds : List Byte
  answer : Answer
  deriving DecidableEq, Repr, Inhabited

/-! ### The model's own fields -/

/-- Bookkeeping of the model, not state of DEC (log 4, log 7). -/
structure Ghost where
  /-- the template DISPATCH may be given: the one the last READ_AND_DECODE returned, while no operation has written `ctx`
  since (44_semantic_dispatcher.md R145, 70_reset_and_hazards.md R174, R179, 93 U15) -/
  armed : Option Nat
  /-- no field of `ctx` is unspecified: a READ_AND_DECODE has completed it since reset (R42, R43) and none has been
  aborted after that (20_memory.md R53) -/
  ctxWritten : Bool
  /-- what the next free value is applied to -/
  free : Nat
  deriving DecidableEq, Repr, Inhabited

/-- The state of the machine. -/
structure State where
  /-- the parameters of this instance (R5), which no step writes (log 1) -/
  cfg : Params
  dec : Dec
  bus : Accessor
  port : Port
  log : List Event
  /-- the number of the backend's next fresh temporary (log 8) -/
  nextTemp : Nat
  ghost : Ghost
  deriving DecidableEq, Repr, Inhabited

/-- DEC has no fault of its own: every way an operation ends is an outcome of R158, and so a next state. No
constructor; raised by nothing; safe. -/
inductive Fault where
  deriving DecidableEq, Repr

/-- What the spec tells a model to give no meaning to. -/
inductive Refusal where
  /-- exec's arm of an instruction that has no meaning yet; safe -/
  | notModelled (mnemonic : String)
  /-- step: bytes on the command interface that are no packet of the model's layout (log 2); safe -/
  | noCommand
  /-- READ_AND_DECODE with `current_pc[0] = 1` (20_memory.md R51); safe -/
  | oddProgramCounter
  /-- an operation that consults tables which break their obligations (10_state.md R21, R27; 93 U9, U21); safe -/
  | illFormedTables
  /-- EXTRACT with "an index outside the table" (40_bit_extractors.md R91); safe -/
  | descriptorOutsideTable
  /-- DISPATCH of "a `ZERO_INSN` or a stale template": any but the one a successful READ_AND_DECODE returned for this
  context (44_semantic_dispatcher.md R145, 93 U15); safe -/
  | staleTemplate
  /-- DISPATCH of a context with a field that is unspecified: `current_pc`, `next_pc`, `aligned_pc`, `cpu_variant` not
  all written since reset or since an abort (10_state.md R43, 93 U3, U4); safe -/
  | unwrittenContext
  /-- DISPATCH with a REG operand outside `0 .. NUM_REGS-1` (44_semantic_dispatcher.md R151); safe -/
  | registerOutsideFile
  deriving DecidableEq, Repr

/-- The machine right after reset (10_state.md R42, 70_reset_and_hazards.md R173). The four context fields R42 leaves
unspecified are 0 here (DESIGN CHOICE, log 3, unsafe); no operation reads them before they are written. What the accessor
holds is the platform's, and the spec gives it no reset value: it lists no byte and has no change scheduled here, so every
read is aborted until memory is supplied (DESIGN CHOICE, log 21, unsafe). -/
def State.reset : State where
  cfg := { Config.params with bigEndian := false }
  dec :=
    { ctx := { currentPc := 0, nextPc := 0, alignedPc := 0, decoded := DecodedInsn.zero, cpuVariant := 0 }
      initDone := false
      halted := false
      status := .ok
      liveTemps := [] }
  bus := { mem := [], edits := [] }
  port := { cmds := [], answer := { outcome := none, info := .nothing, out := .nothing } }
  log := []
  nextTemp := 0
  ghost := { armed := none, ctxWritten := false, free := 0 }

end Sys2Proof.Machine
end

