-- ==== Sys2Proof/Machine/Tables.lean ====
section
/-! DEFINITION. The tables: how an entry is looked up, and the obligations of 10_state.md and 93 U9 whose breach makes a
table one the model refuses. -/

namespace Sys2Proof.Machine

/-- No entry twice: an association list that is a partial function. -/
def distinct {α : Type} [DecidableEq α] : List α → Bool
  | [] => true
  | a :: l => decide (a ∉ l) && distinct l

/-! ### Lookups -/

/-- `EXT_MINOR_LEN(m)`: `none`, 6 or 8 (00_scope.md R5, 41_length_classifier.md R108). -/
def extMinorLen (P : Params) (m : BitVec 5) : Option ExtLen :=
  (P.extMinorLen.find? fun e => e.1 == m).map (·.2)

/-- `T_MNEMONIC_MAP(mnemonic)`, by "exact string match" (R29). -/
def mappingOf (P : Params) (mnemonic : String) : Option MapId :=
  (P.tMnemonicMap.find? fun e => decide (e.mnemonic = mnemonic)).map (·.map)

/-- `S_SPECIAL(map)` (R32). -/
def specialOf (P : Params) (map : MapId) : Option SpecialKind :=
  (P.sSpecial.find? fun e => decide (e.map = map)).map (·.kind)

/-- `T_HANDLERS(map)` (R30). -/
def handlerOf (P : Params) (map : MapId) : Option HandlerEntry :=
  P.tHandlers.find? fun e => decide (e.map = map)

/-- `T_CONST_OPERANDS(map, p)` (R31). -/
def constOperand (P : Params) (map : MapId) (p : Nat) : Option I64 :=
  (P.tConstOperands.find? fun e => decide (e.map = map) && decide (e.operandIndex = p)).map (·.defaultValue)

/-- The members of a flag class, in order (R23). -/
def membersOf (P : Params) (cl : FlagClass) : List FlagOperand := cl.members.filterMap fun k => P.tFlags[k]?

/-- The number of a fixed register (40_bit_extractors.md R93). -/
def fixedRegNumber (P : Params) : FixedReg → Nat
  | .sp => P.regSp
  | .gp => P.regGp
  | .blink => P.regBlink
  | .ilink1 => P.regIlink1
  | .ilink2 => P.regIlink2
  | .r0 => 0
  | .r1 => 1
  | .r2 => 2
  | .r3 => 3
  | .pcl => P.regPcl

/-- A template's length, derived from its mask by thresholds (30_encoding.md R70). -/
def templateLength (mask : Word) : ByteLen :=
  if mask.toNat < 0x10000 then .two
  else if mask.toNat < 0x100000000 then .four
  else if mask.toNat < 0x1000000000000 then .six
  else .eight

/-! ### Well-formed tables -/

/-- The number of bits of a group. -/
def groupWidth (g : BitGroup) : Nat := g.hi + 1 - g.lo

/-- A group lies in the word, and so does its image (40_bit_extractors.md R102). -/
def groupWf (g : BitGroup) : Bool :=
  decide (g.lo ≤ g.hi) && decide (g.hi < 64) && decide (g.dst + groupWidth g ≤ 64)

/-- Bit `b` of the assembled field comes from group `g`. -/
def groupGives (g : BitGroup) (b : Nat) : Bool := decide (g.dst ≤ b) && decide (b < g.dst + groupWidth g)

/-- "The groups' images are disjoint and together cover bits N-1..0" (R94). -/
def groupsCover (gs : List BitGroup) (n : Nat) : Bool :=
  gs.all (fun g => groupWf g && decide (g.dst + groupWidth g ≤ n)) &&
    (List.range n).all fun b => decide ((gs.filter fun g => groupGives g b).length = 1)

/-- The extractor's own data obey R92, R94, R96, R102. -/
def extractorWf : Extractor → Bool
  | .fixed _ => true
  | .field gs signed n sc =>
    groupsCover gs n && decide (n ≤ 64) && (!signed || decide (1 ≤ n)) &&
      (decide (sc = .one) || decide (n + 2 ≤ 64))
  | .shorthand _ lo => decide (lo + 3 ≤ 64)
  | .regB gs => groupsCover gs 6

/-- The descriptor invariants of 10_state.md R20, R21 (b) to (e). -/
def descriptorWf (d : OperandDescriptor) : Bool :=
  decide (d.bitWidth ≤ 64) && decide (d.shift < 64) && !(d.flags.signed && d.flags.unsigned) &&
    match d.extract with
    | none => decide (d.shift + d.bitWidth ≤ 64) && !(d.flags.signed && decide (0 < d.bitWidth))
    | some (.fixed _) => decide (d.bitWidth = 0) && d.flags.reg
    | some e => extractorWf e

/-- A FlagOperand's field lies within the widths of R22. -/
def flagWf (m : FlagOperand) : Bool := decide (m.bitWidth ≤ 64) && decide (m.shift < 64)

/-- A class has members, each in `T_FLAGS`, with `code < 2^bit_width` unless the class is implicit (R22, R23). -/
def classWf (P : Params) (cl : FlagClass) : Bool :=
  !cl.members.isEmpty && cl.members.all (fun k => decide (k < P.tFlags.length)) &&
    (cl.kind.implicit || (membersOf P cl).all fun m => decide (m.code < 2 ^ m.bitWidth))

/-- The operands a template extracts: its list without the fake ones (R27). -/
def extractedOperands (P : Params) (ks : List Nat) : List OperandDescriptor :=
  (ks.filterMap fun k => P.tOperands[k]?).filter fun d => !d.flags.fake

/-- A template's indices lie in their tables (R25), its operands fit the record (R27), and a 2-byte template has no
fixed bit above 15 (70_reset_and_hazards.md R178). -/
def templateWf (P : Params) (T : OpcodeTemplate) : Bool :=
  T.operandList.all (fun k => decide (k < P.tOperands.length)) &&
    T.flagList.all (fun j => decide (j < P.tClasses.length)) &&
    decide ((extractedOperands P T.operandList).length ≤ P.maxOps) &&
    (decide (templateLength T.mask ≠ .two) || decide (T.opcodeValue.toNat < 0x10000))

/-- The tables an operation may consult: those that break an obligation are "refused by the model" (10_state.md R21,
R27, R31, 93 U9, U21; the ranges of R5). What DEC checks itself at dispatch time (R30) and what it assumes without a
check (R24, R26, R28) is no part of it. -/
def tablesWf (P : Params) : Bool :=
  decide (0 < P.maxOps) && decide (0 < P.numRegs) &&
    [P.regSp, P.regGp, P.regBlink, P.regIlink1, P.regIlink2, P.regPcl].all (fun r => decide (r < P.numRegs)) &&
    P.tOperands.all descriptorWf && P.tFlags.all flagWf && P.tClasses.all (classWf P) &&
    P.tOpcodes.all (templateWf P) && distinct (P.tMnemonicMap.map (·.mnemonic)) &&
    distinct (P.tHandlers.map (·.map)) && distinct (P.tConstOperands.map fun e => (e.map, e.operandIndex)) &&
    distinct (P.sSpecial.map (·.map))

end Sys2Proof.Machine
end

