-- ==== Sys2Proof/Machine/Ops.lean ====
section
/-! DEFINITION. The shared operations: memory and the accessor (20_memory.md), the ways an operation ends
(60_exceptions.md), among them taking a fatal condition as ONE operation, and the return from it. -/

namespace Sys2Proof.Machine

abbrev Result := Host.Outcome State Fault Refusal

/-! ### Memory -/

/-- Strictly rising addresses from `lo` up, inside the 2^32 addresses of R45. -/
def Memory.risingFrom : Nat → Memory → Bool
  | _, [] => true
  | lo, (k, _) :: m => decide (lo ≤ k) && decide (k < 2 ^ 32) && Memory.risingFrom (k + 1) m

/-- The canonical form: an unlisted address has no value, so no entry can equal what it reads as. -/
def Memory.wf (m : Memory) : Bool := Memory.risingFrom 0 m

/-- The byte at an address; `none` where the accessor has none to give (log 5). -/
def Memory.get : Memory → Nat → Option Byte
  | [], _ => none
  | (k, b) :: m, a => if k = a then some b else Memory.get m a

/-- The byte at an address becomes `b`. -/
def Memory.put : Memory → Nat → Byte → Memory
  | [], a, b => [(a, b)]
  | (k, c) :: m, a, b =>
    if a < k then (a, b) :: (k, c) :: m else if k = a then (a, b) :: m else (k, c) :: Memory.put m a b

/-- The byte at an address becomes unreadable. -/
def Memory.drop : Memory → Nat → Memory
  | [], _ => []
  | (k, c) :: m, a => if k = a then m else (k, c) :: Memory.drop m a

/-- One change by another agent (R56). -/
def Memory.edit (m : Memory) (e : Edit) : Memory :=
  match e.byte with
  | some b => Memory.put m e.addr.toNat b
  | none => Memory.drop m e.addr.toNat

/-! ### The accessor -/

/-- What other agents have scheduled lands before the next read (R56, R183; log 6). -/
def Accessor.arrive (b : Accessor) : Accessor :=
  match b.edits with
  | [] => b
  | batch :: later => { mem := batch.foldl Memory.edit b.mem, edits := later }

/-- The byte the accessor has at a target virtual address (R45). -/
def Accessor.byteAt (b : Accessor) (a : Addr) : Option Byte := Memory.get b.mem a.toNat

/-- Two bytes as `read16` joins them; the first is the one at the lower address (R47, R48). -/
def joinUnit (big : Bool) (b0 b1 : Byte) : InsnUnit := if big then b0 ++ b1 else b1 ++ b0

/-- Two 16-bit halves as `read32` joins them (R47). -/
def joinHalves (big : Bool) (u0 u1 : InsnUnit) : BitVec 32 := if big then u0 ++ u1 else u1 ++ u0

/-- The value `read16(a)` answers, or an abort; the second byte's address wraps (R47, R52, R53). -/
def Accessor.unitAt (big : Bool) (b : Accessor) (a : Addr) : Option InsnUnit :=
  match Accessor.byteAt b a, Accessor.byteAt b (a + 1) with
  | some b0, some b1 => some (joinUnit big b0 b1)
  | _, _ => none

/-- The value `read32(a)` answers, or an abort (R47, R52, R53). -/
def Accessor.wordAt (big : Bool) (b : Accessor) (a : Addr) : Option (BitVec 32) :=
  match Accessor.unitAt big b a, Accessor.unitAt big b (a + 2) with
  | some u0, some u1 => some (joinHalves big u0 u1)
  | _, _ => none

/-- `arrange`: the long immediate from one `read32`, high unit first (R50, 43_decode_entry.md R140). -/
def arrange (big : Bool) (w : BitVec 32) : I32 :=
  if big then w else w.extractLsb' 0 16 ++ w.extractLsb' 16 16

/-- Two units "high-then-low" (R49). -/
def highThenLow (u0 u1 : InsnUnit) : BitVec 32 := u0 ++ u1

/-- DEC issues one read: it is traced, and what is scheduled lands first. -/
def issueRead (w : ReadWidth) (a : Addr) (s : State) : State :=
  { s with bus := s.bus.arrive, log := s.log ++ [.read w a] }

/-! ### How an operation ends -/

/-- The answer on the command interface. -/
def answer (outcome : Option OutcomeCode) (info : OutcomeInfo) (out : Output) (s : State) : State :=
  { s with port := { s.port with answer := { outcome := outcome, info := info, out := out } } }

/-- An operation ends with an outcome, which is returned and written to `status` (R158). -/
def complete (code : OutcomeCode) (info : OutcomeInfo) (out : Output) (s : State) : State :=
  answer (some code) info out { s with dec := { s.dec with status := code } }

/-- TAKING A FATAL CONDITION, for every one of them: the diagnostic, the code in `status`, `halted` set, `live_temps`
left empty (60_exceptions.md R164, R165). -/
def raiseFatal (code : OutcomeCode) (info : OutcomeInfo) (d : Diag) (s : State) : State :=
  complete code info .nothing
    { s with log := s.log ++ [.diag d], dec := { s.dec with halted := true, liveTemps := [] } }

/-- While `halted`, an operation ends at once with HALTED "and writes no state, `status` included" (R164). -/
def answerHalted (s : State) : State := answer (some .halted) .nothing .nothing s

/-- An operation other than RESET runs only while `halted` is false (R164, R167). -/
def unlessHalted (s : State) (r : Result) : Result := if s.dec.halted then .next (answerHalted s) else r

/-- FATAL_VARIANT (R161); its diagnostic's payload is the variant value (R165). -/
def raiseVariant (v : VariantMask) (s : State) : State :=
  raiseFatal .fatalVariant (.variant v)
    { kind := .fatalConfiguration, mnemonic := none, address := none, value := some v.toNat } s

/-- THE RETURN from the halted state, and the one reset there is (70_reset_and_hazards.md R173): the fields it leaves
unspecified become free values (log 3, log 4). -/
def resetDec (s : State) : State :=
  { s with
    dec :=
      { ctx :=
          { currentPc := Config.freeAddr s.ghost.free
            nextPc := Config.freeAddr (s.ghost.free + 1)
            alignedPc := Config.freeAddr (s.ghost.free + 2)
            decoded := DecodedInsn.zero
            cpuVariant := Config.freeVariant (s.ghost.free + 3) }
        initDone := false
        halted := false
        status := .ok
        liveTemps := [] }
    ghost := { armed := none, ctxWritten := false, free := s.ghost.free + 4 } }

/-! ### The command interface -/

/-- What stands on the command interface. -/
inductive Presented where
  | idle
  | garbled
  | command (i : Instr) (rest : List Byte)
  deriving DecidableEq, Repr

/-- Taking the next command from the interface. -/
def nextCommand (s : State) : Presented :=
  match s.port.cmds with
  | [] => .idle
  | b :: bs =>
    match decode (b :: bs) with
    | .error _ => .garbled
    | .ok (i, rest) => .command i rest

/-- The interface once a command is taken: what follows it is still presented. -/
def leaveCommands (rest : List Byte) (s : State) : State := { s with port := { s.port with cmds := rest } }

end Sys2Proof.Machine
end

