-- ==== Sys2Proof/Machine/Classify.lean ====
section
/-! DEFINITION. CLASSIFY, the instruction-length classifier (41_length_classifier.md), and the nine rows of its length-class
map (30_encoding.md R79, R80). -/

namespace Sys2Proof.Machine

/-- `major_opcode = u0[15:11]` (R64, R105). -/
def majorOpcode (u0 : InsnUnit) : BitVec 5 := u0.extractLsb' 11 5

/-- `minor_opcode = u0[4:0]` (R65). -/
def minorOpcode (u0 : InsnUnit) : BitVec 5 := u0.extractLsb' 0 5

/-- The simple rule of the current variants (R107). -/
def currentLength (u0 : InsnUnit) : ByteLen := if majorOpcode u0 > 0x07 then .two else .four

/-- The legacy rule outside the extension window (R110). -/
def legacyTail (u0 : InsnUnit) : ByteLen :=
  if majorOpcode u0 = 0x0a then .eight else if majorOpcode u0 > 0x0b then .two else .four

/-- The legacy variants, with the extension window at major 0x0b (R108 to R110). -/
def legacyLength (P : Params) (u0 : InsnUnit) : ByteLen :=
  if majorOpcode u0 = 0x0b then
    match extMinorLen P (minorOpcode u0) with
    | some .six => .six
    | some .eight => .eight
    | none => legacyTail u0
  else legacyTail u0

/-- The classifier: `none` is an unrecognised variant, tested before anything else (R106). -/
def classifyLength (P : Params) (u0 : InsnUnit) (v : VariantMask) : Option ByteLen :=
  if v = VariantMask.em ∨ v = VariantMask.hs then some (currentLength u0)
  else if v = VariantMask.a600 ∨ v = VariantMask.a700 then some (legacyLength P u0)
  else none

/-- CLASSIFY as an operation (R104, R113). -/
def classifyUnit (u0 : InsnUnit) (v : VariantMask) (s : State) : Result :=
  unlessHalted s <|
    match classifyLength s.cfg u0 v with
    | some l => .next (complete .ok .nothing (.length l) s)
    | none => .next (raiseVariant v s)

def execClassify (u0 : InsnUnit) (v : VariantMask) (s : State) : Result := classifyUnit u0 v s

/-! A row of the length-class map is CLASSIFY of a unit of the row's class (log 10). -/

def execLenLegacyMajor00To07 (u0 : InsnUnit) (v : VariantMask) (s : State) : Result := classifyUnit u0 v s
def execLenLegacyMajor08To09 (u0 : InsnUnit) (v : VariantMask) (s : State) : Result := classifyUnit u0 v s
def execLenLegacyMajor0A (u0 : InsnUnit) (v : VariantMask) (s : State) : Result := classifyUnit u0 v s
def execLenLegacyMajor0B (u0 : InsnUnit) (v : VariantMask) (s : State) : Result := classifyUnit u0 v s
def execLenLegacyMajor0CTo0F (u0 : InsnUnit) (v : VariantMask) (s : State) : Result := classifyUnit u0 v s
def execLenLegacyMajor10To1F (u0 : InsnUnit) (v : VariantMask) (s : State) : Result := classifyUnit u0 v s
def execLenCurrentMajor00To07 (u0 : InsnUnit) (v : VariantMask) (s : State) : Result := classifyUnit u0 v s
def execLenCurrentMajor08To0F (u0 : InsnUnit) (v : VariantMask) (s : State) : Result := classifyUnit u0 v s
def execLenCurrentMajor10To1F (u0 : InsnUnit) (v : VariantMask) (s : State) : Result := classifyUnit u0 v s

end Sys2Proof.Machine
end

