-- ==== Sys2Proof/Machine/Control.lean ====
section
/-! DEFINITION. RESET (70_reset_and_hazards.md R173) and the two reserved operation codes (30_encoding.md R88). -/

namespace Sys2Proof.Machine

/-- RESET, "accepted in every state, `halted` included" (R173). -/
def execReset (s : State) : Result := .next (answer (some .ok) .nothing .nothing (resetDec s))

/-- ILLEGAL_OP: "`status <- ILLEGAL_OP` and nothing else changes" (60_exceptions.md R163). -/
def illegalOp (s : State) : Result := unlessHalted s (.next (complete .illegalOp .nothing .nothing s))

def execReserved110 (s : State) : Result := illegalOp s
def execReserved111 (s : State) : Result := illegalOp s

end Sys2Proof.Machine
end

