-- ==== Sys2Proof/Machine/Dispatcher.lean ====
section
/-! DEFINITION. DISPATCH, the semantic dispatcher (44_semantic_dispatcher.md). -/

namespace Sys2Proof.Machine

/-- What the materialisation of a handler's operands has built so far: the handles, the temporaries among them in
allocation order, the surface calls made, the backend's next temporary. -/
structure Materialised where
  handles : List Handle
  live : List Nat
  calls : List Event
  nextTemp : Nat
  deriving DecidableEq, Repr, Inhabited

/-- How the materialisation of a handler's operands ends. -/
inductive Materialisation where
  | done (m : Materialised)
  /-- no operand and no default at position `p` (R150) -/
  | missing (p : Nat) (m : Materialised)
  /-- a REG operand outside `0 .. NUM_REGS-1` (R151) -/
  | outsideFile
  deriving DecidableEq, Repr, Inhabited

/-- `reg_handle(r)`: an alias of the register's storage, never a temporary (10_state.md R38). -/
def regHandle (r : Nat) (m : Materialised) : Materialised :=
  { m with handles := m.handles ++ [.reg r], calls := m.calls ++ [.regHandle r] }

/-- `const_handle(v)`: a fresh temporary (R38). -/
def constHandle (v : I64) (m : Materialised) : Materialised :=
  { handles := m.handles ++ [.temp m.nextTemp]
    live := m.live ++ [m.nextTemp]
    calls := m.calls ++ [.constHandle v m.nextTemp]
    nextTemp := m.nextTemp + 1 }

/-- `limm_handle(v)`: a fresh temporary (R38). -/
def limmHandle (v : I32) (m : Materialised) : Materialised :=
  { handles := m.handles ++ [.temp m.nextTemp]
    live := m.live ++ [m.nextTemp]
    calls := m.calls ++ [.limmHandle v m.nextTemp]
    nextTemp := m.nextTemp + 1 }

/-- A decoded operand's handle; "a REG operand is a register even if it also carries LIMM" (R151). `none` is a register
number the model refuses. -/
def bindOperand (P : Params) (limm : I32) (o : Operand) (m : Materialised) : Option Materialised :=
  if o.type.reg then
    if 0 ≤ o.value.toInt ∧ o.value.toInt < P.numRegs then some (regHandle o.value.toNat m) else none
  else if o.type.limm then some (limmHandle limm m)
  else some (constHandle o.value m)

/-- Positions `p, p+1, …`, `n` of them, resolved and materialised one by one (R150, R151, R157). -/
def materialise (P : Params) (map : MapId) (c : DecodedInsn) : Nat → Nat → Materialised → Materialisation
  | 0, _, m => .done m
  | n + 1, p, m =>
    match c.operands[p]? with
    | some o =>
      match bindOperand P c.limm o m with
      | none => .outsideFile
      | some m' => materialise P map c n (p + 1) m'
    | none =>
      match constOperand P map p with
      | none => .missing p m
      | some k => materialise P map c n (p + 1) (constHandle k m)

/-- FATAL_NO_MAPPING (R147). -/
def raiseNoMapping (mn : String) (s : State) : State :=
  raiseFatal .fatalNoMapping (.mnemonicAt mn s.dec.ctx.currentPc)
    { kind := .noMapping, mnemonic := some mn, address := some s.dec.ctx.currentPc, value := none } s

/-- FATAL_NO_HANDLER (R149). -/
def raiseNoHandler (mn : String) (s : State) : State :=
  raiseFatal .fatalNoHandler (.mnemonicAt mn s.dec.ctx.currentPc)
    { kind := .unimplementedSemantic, mnemonic := some mn, address := some s.dec.ctx.currentPc, value := none } s

/-- FATAL_NO_DEFAULT at position `p`: what is allocated is released first (R150, 60_exceptions.md R163). -/
def raiseNoDefault (mn : String) (p : Nat) (m : Materialised) (s : State) : State :=
  raiseFatal .fatalNoDefault (.positionAt mn p s.dec.ctx.currentPc)
    { kind := .fatalConfiguration, mnemonic := some mn, address := some s.dec.ctx.currentPc, value := some p }
    { s with log := s.log ++ m.calls ++ m.live.map .release, nextTemp := m.nextTemp }

/-- Invocation with exactly the handles built, then release of the temporaries in allocation order (R152, R153). -/
def invokeHandler (reference : String) (m : Materialised) (s : State) : State :=
  complete .ok .nothing
    (.disposition (Config.handlerDisposition s.ghost.free reference s.dec.ctx m.handles))
    { s with
      dec := { s.dec with liveTemps := [] }
      log := s.log ++ m.calls ++ [.handler reference s.dec.ctx m.handles] ++ m.live.map .release
      nextTemp := m.nextTemp
      ghost := { s.ghost with free := s.ghost.free + 1 } }

/-- The special handlers bypass the generic table; DEC allocates nothing for them (R148). -/
def invokeSpecial (k : SpecialKind) (s : State) : State :=
  complete .ok .nothing (.disposition (Config.specialDisposition s.ghost.free k s.dec.ctx))
    { s with
      log := s.log ++ [.special k s.dec.ctx]
      ghost := { s.ghost with free := s.ghost.free + 1 } }

/-- Nothing materialised yet: what `live_temps` holds would be released with the rest (R153). -/
def startMaterialised (s : State) : Materialised :=
  { handles := [], live := s.dec.liveTemps, calls := [], nextTemp := s.nextTemp }

/-- The generic path (R150 to R153). -/
def dispatchGeneric (mn : String) (map : MapId) (h : HandlerEntry) (s : State) : Result :=
  match materialise s.cfg map s.dec.ctx.decoded h.arity 0 (startMaterialised s) with
  | .done m => .next (invokeHandler h.handler m s)
  | .missing p m => .next (raiseNoDefault mn p m s)
  | .outsideFile => .refused .registerOutsideFile

/-- Mnemonic resolution, the special cases, the handler lookup (R147, R148, R149). -/
def dispatchMnemonic (mn : String) (s : State) : Result :=
  match mappingOf s.cfg mn with
  | none => .next (raiseNoMapping mn s)
  | some map =>
    match specialOf s.cfg map with
    | some k => .next (invokeSpecial k s)
    | none =>
      match handlerOf s.cfg map with
      | none => .next (raiseNoHandler mn s)
      | some h => dispatchGeneric mn map h s

/-- "One-time lazy initialization" (R146). -/
def initialise (s : State) : State := { s with dec := { s.dec with initDone := true } }

/-- DISPATCH (R157). Refused: a context with an unspecified field (10_state.md R43), a template that is not the one a
successful READ_AND_DECODE returned for it, `ZERO_INSN` among them (R145, 93 U15; log 7), ill-formed tables (R21, R27). -/
def execDispatch (t : Nat) (s : State) : Result :=
  unlessHalted s <|
    if !s.ghost.ctxWritten then .refused .unwrittenContext
    else if s.ghost.armed ≠ some t then .refused .staleTemplate
    else if !tablesWf s.cfg then .refused .illFormedTables
    else
      match s.cfg.tOpcodes[t]? with
      | none => .refused .staleTemplate
      | some T => dispatchMnemonic T.mnemonic (initialise s)

end Sys2Proof.Machine
end

