-- ==== Sys2Proof/Machine/Operands.lean ====
section
/-! DEFINITION. The bit extractors (40_bit_extractors.md) and the matcher's operand rules (42_format_matcher.md R120 to
R124), every operand form the spec gives. -/

namespace Sys2Proof.Machine

/-! ### Bit fields -/

/-- `mask(n) = 2^n - 1` (00_scope.md R6). -/
def maskOf (n : Nat) : Nat := 2 ^ n - 1

/-- `(word >> shift) & mask(width)` (R90, 42_format_matcher.md R126). -/
def fieldAt (w : Word) (shift width : Nat) : Nat := (w.toNat >>> shift) &&& maskOf width

/-- `word[hi:lo]` (R6). -/
def slice (w : Word) (hi lo : Nat) : Nat := fieldAt w lo (hi + 1 - lo)

/-- `sext_N(v)`, "evaluated in unbounded integers" (R7, R92). -/
def sext (n v : Nat) : Int := (((v &&& maskOf n) ^^^ 2 ^ (n - 1) : Nat) : Int) - 2 ^ (n - 1)

/-- The factor of a scale (R94, R97). -/
def scaleFactor : Scale → Int
  | .one => 1
  | .two => 2
  | .four => 4

/-- The groups of a split field reassembled "in a fixed shift order" (R94). -/
def assemble (gs : List BitGroup) (w : Word) : Nat := gs.foldl (fun v g => v ||| (slice w g.hi g.lo <<< g.dst)) 0

/-- The compressed-register remapping: "`value > 3 ⇒ value + 8`" (30_encoding.md R74, R95). -/
def expandShorthand (c : Nat) : Nat := if c > 3 then c + 8 else c

/-! ### Extractors -/

/-- The plain read: "a plain shift-and-mask read" (R90). -/
def plainRead (w : Word) (d : OperandDescriptor) : I64 × Bool := (BitVec.ofNat 64 (fieldAt w d.shift d.bitWidth), false)

/-- A field extractor: assemble, then sign-extend, then scale (R94, R97). DEDUCED, log 22: an unsigned result of 2^63 or
more, for which R102 gives no value, is held as R90 holds the plain read's, reinterpreted by two's complement. -/
def fieldExtract (gs : List BitGroup) (signed : Bool) (n : Nat) (sc : Scale) (w : Word) : I64 :=
  BitVec.ofInt 64 ((if signed then sext n (assemble gs w) else (assemble gs w : Int)) * scaleFactor sc)

/-- A descriptor's extractor, a function of the word alone (R89). -/
def runExtractor (P : Params) (w : Word) : Extractor → I64 × Bool
  | .fixed r => (BitVec.ofNat 64 (fixedRegNumber P r), false)
  | .field gs signed n sc => (fieldExtract gs signed n sc w, false)
  | .shorthand _ lo => (BitVec.ofNat 64 (expandShorthand (fieldAt w lo 3)), false)
  | .regB gs => (BitVec.ofNat 64 (assemble gs w), decide (assemble gs w = 0x3e))

/-- EXTRACT for a descriptor: its extractor, "or, if none, a plain shift-and-mask read" (R91). -/
def extractWith (P : Params) (w : Word) (d : OperandDescriptor) : I64 × Bool :=
  match d.extract with
  | none => plainRead w d
  | some e => runExtractor P w e

/-! ### The matcher's operand rules -/

/-- The LIMM sentinel of a byte length and a variant mask (30_encoding.md R76, 42_format_matcher.md R122). -/
def sentinel (P : Params) (len : ByteLen) (mask : VariantMask) : Option I64 :=
  match len with
  | .four => some 0x3e
  | .two => if mask &&& (VariantMask.em ||| VariantMask.hs) ≠ 0 then some 0x1e else P.limmSentinel2BLegacy
  | .six => none
  | .eight => none

/-- The sentinel conflict: a register operand, not itself the long immediate, that holds the sentinel (R122). -/
def sentinelConflict (P : Params) (len : ByteLen) (mask : VariantMask) (fl : OperandFlags) (v : I64) : Bool :=
  fl.reg && !fl.limm && decide (sentinel P len mask = some v)

/-- One non-fake operand: extraction, the two rejections, `limm_p`, the entry (R120 to R124). -/
def takeOperand (P : Params) (w : Word) (len : ByteLen) (mask : VariantMask) (d : OperandDescriptor)
    (c : DecodedInsn) : Option DecodedInsn :=
  let r := extractWith P w d
  if r.2 then none
  else if sentinelConflict P len mask d.flags r.1 then none
  else some { c with limmP := c.limmP || d.flags.limm, operands := c.operands ++ [{ value := r.1, type := d.flags }] }

/-- The operands of a template's list, in list order, fake ones skipped (R120); `none` rejects the candidate. -/
def gatherOperands (P : Params) (w : Word) (len : ByteLen) (mask : VariantMask) :
    List Nat → DecodedInsn → Option DecodedInsn
  | [], c => some c
  | k :: ks, c =>
    match P.tOperands[k]? with
    | none => none
    | some d =>
      if d.flags.fake then gatherOperands P w len mask ks c
      else
        match takeOperand P w len mask d c with
        | none => none
        | some c' => gatherOperands P w len mask ks c'

/-! ### PC-relative operands -/

/-- The target a handler forms from `aligned_pc` and the offset DEC hands it, modulo 2^32 (44_semantic_dispatcher.md
R154). -/
def pcRelativeTarget (ctx : Context) (offset : I64) : Addr := ctx.alignedPc + offset.setWidth 32

end Sys2Proof.Machine
end

