-- ==== Sys2Proof/Machine/Flags.lean ====
section
/-! DEFINITION. The matcher's flag rules (42_format_matcher.md R125 to R128), every flag computation the spec gives. -/

namespace Sys2Proof.Machine

/-- An implicit class: the first member's code goes to the first of COND, WB, ZZ in the kind (R125). -/
def applyImplicit (k : ClassKind) (ms : List FlagOperand) (c : DecodedInsn) : DecodedInsn :=
  match ms with
  | [] => c
  | m0 :: _ =>
    if k.cond then { c with cc := m0.code }
    else if k.wb then { c with aa := m0.code }
    else if k.zz then { c with zz := m0.code }
    else c

/-- The effect of a matching member: "every kind in `cl.class_kind` applies" (R127, 30_encoding.md R78). -/
def applyEffect (k : ClassKind) (code : Nat) (c : DecodedInsn) : DecodedInsn :=
  { c with
    cc := if k.cond then code else c.cc
    aa := if k.wb then code else c.aa
    zz := if k.zz then code else c.zz
    d := if k.d then decide (code ≠ 0) else c.d
    f := c.f || k.f
    di := c.di || k.di
    x := c.x || k.x }

/-- What a scan of a class's members has found so far (R126). -/
structure MemberScan where
  insn : DecodedInsn
  found : Bool
  nonzero : Bool
  deriving DecidableEq, Repr, Inhabited

/-- One member: its field, compared with its code (R126, R127). -/
def scanMember (w : Word) (k : ClassKind) (r : MemberScan) (m : FlagOperand) : MemberScan :=
  let fv := fieldAt w m.shift m.bitWidth
  { insn := if fv = m.code then applyEffect k m.code r.insn else r.insn
    found := r.found || decide (fv = m.code)
    nonzero := r.nonzero || decide (fv ≠ 0) }

/-- All members of a class, in list order. -/
def scanMembers (w : Word) (k : ClassKind) (ms : List FlagOperand) (c : DecodedInsn) : MemberScan :=
  ms.foldl (scanMember w k) { insn := c, found := false, nonzero := false }

/-- One flag class (R125 to R128); `none` rejects the candidate. -/
def applyClass (P : Params) (w : Word) (cl : FlagClass) (c : DecodedInsn) : Option DecodedInsn :=
  if cl.kind.implicit then some (applyImplicit cl.kind (membersOf P cl) c)
  else
    let r := scanMembers w cl.kind (membersOf P cl) c
    if r.nonzero && !r.found then none else some r.insn

/-- The flag classes of a template's list, in list order. -/
def matchFlags (P : Params) (w : Word) : List Nat → DecodedInsn → Option DecodedInsn
  | [], c => some c
  | j :: js, c =>
    match P.tClasses[j]? with
    | none => none
    | some cl =>
      match applyClass P w cl c with
      | none => none
      | some c' => matchFlags P w js c'

end Sys2Proof.Machine
end

