-- ==== Sys2Proof/Machine/Match.lean ====
section
/-! DEFINITION. FIND_FORMAT, the format matcher (42_format_matcher.md), and its inner tests offered alone: the derived
length of a template mask (30_encoding.md R70) and the LIMM sentinel (R76). -/

namespace Sys2Proof.Machine

/-- "A fresh record" for a candidate: `ZERO_INSN` with `len` and `class` (R119). -/
def freshCandidate (T : OpcodeTemplate) (len : ByteLen) : DecodedInsn :=
  { DecodedInsn.zero with len := BitVec.ofNat 8 len.bytes, cls := .label T.cls }

/-- The three immediate tests (R116, R117, R118). -/
def immediateTests (w : Word) (len : ByteLen) (mask : VariantMask) (T : OpcodeTemplate) : Bool :=
  decide (T.cpu &&& mask ≠ 0) && decide (templateLength T.mask = len) && decide (w &&& T.mask = T.opcodeValue)

/-- One template: the candidate's record if it survives all checks, else `none` (R116 to R128). -/
def tryTemplate (P : Params) (w : Word) (len : ByteLen) (mask : VariantMask) (T : OpcodeTemplate) :
    Option DecodedInsn :=
  if immediateTests w len mask T then
    match gatherOperands P w len mask T.operandList (freshCandidate T len) with
    | none => none
    | some c => matchFlags P w T.flagList c
  else none

/-- The scan in table order, from index `t`: "first full match wins" (R115, R129). -/
def scanTemplates (P : Params) (w : Word) (len : ByteLen) (mask : VariantMask) :
    List OpcodeTemplate → Nat → Option (Nat × DecodedInsn)
  | [], _ => none
  | T :: Ts, t =>
    match tryTemplate P w len mask T with
    | some c => some (t, c)
    | none => scanTemplates P w len mask Ts (t + 1)

/-- `find_format` (R114). -/
def findFormat (P : Params) (w : Word) (len : ByteLen) (mask : VariantMask) : Option (Nat × DecodedInsn) :=
  scanTemplates P w len mask P.tOpcodes 0

/-- `ctx.decoded <- c` (R129). A template returned by an earlier READ_AND_DECODE is stale from here on, and this one is
none that DISPATCH may be given (44_semantic_dispatcher.md R145, 93 U15; log 7). -/
def acceptRecord (c : DecodedInsn) (s : State) : State :=
  { s with
    dec := { s.dec with ctx := { s.dec.ctx with decoded := c } }
    ghost := { s.ghost with armed := none } }

/-- "clears the decoded-instruction record" (R130). -/
def clearDecoded (s : State) : State :=
  { s with
    dec := { s.dec with ctx := { s.dec.ctx with decoded := DecodedInsn.zero } }
    ghost := { s.ghost with armed := none } }

/-- FIND_FORMAT (R133). -/
def execFindFormat (w : Word) (len : ByteLen) (mask : VariantMask) (s : State) : Result :=
  unlessHalted s <|
    if tablesWf s.cfg then
      match findFormat s.cfg w len mask with
      | some (t, c) => .next (complete .ok .nothing (.found t) (acceptRecord c s))
      | none => .next (complete .decodeMiss .nothing .notFound (clearDecoded s))
    else .refused .illFormedTables

/-! ### The inner tests alone

They have no outcome code and write no `status` (60_exceptions.md R160): only the answer says what they find (log 10). -/

/-- The derived length of a template mask (R70). -/
def deriveLength (mask : Word) (s : State) : Result :=
  unlessHalted s (.next (answer none .nothing (.length (templateLength mask)) s))

def execTemplateLen2 (mask : Word) (s : State) : Result := deriveLength mask s
def execTemplateLen4 (mask : Word) (s : State) : Result := deriveLength mask s
def execTemplateLen6 (mask : Word) (s : State) : Result := deriveLength mask s
def execTemplateLen8 (mask : Word) (s : State) : Result := deriveLength mask s

/-- The sentinel test of a plain register operand that holds `v` (R122). -/
def testSentinel (len : ByteLen) (mask : VariantMask) (v : I64) (s : State) : Result :=
  unlessHalted s (.next (answer none .nothing (.rejected (sentinelConflict s.cfg len mask { reg := true } v)) s))

def execLimmSentinel4B (mask : VariantMask) (s : State) : Result := testSentinel .four mask 0x3e s
def execLimmSentinel2BCurrent (mask : VariantMask) (s : State) : Result := testSentinel .two mask 0x1e s
def execLimmSentinel2BLegacy (value : I64) (mask : VariantMask) (s : State) : Result := testSentinel .two mask value s

end Sys2Proof.Machine
end

