-- ==== Sys2Proof/Machine/Entry.lean ====
section
/-! DEFINITION. READ_AND_DECODE, the decode entry point (43_decode_entry.md): the only operation that reads memory. -/

namespace Sys2Proof.Machine

/-- The host writes the two fields of the context it owns (10_state.md R10; log 18); a template returned for the context
before is stale from here on (log 7). -/
def presentContext (pc : Addr) (v : VariantMask) (s : State) : State :=
  { s with
    dec := { s.dec with ctx := { s.dec.ctx with currentPc := pc, cpuVariant := v } }
    ghost := { s.ghost with armed := none } }

/-- An unspecified record; only the bound of the record is kept (R14, log 4). -/
def freeRecord (P : Params) (n : Nat) : DecodedInsn :=
  { Config.freeInsn n with operands := (Config.freeInsn n).operands.take P.maxOps }

/-- The accessor refused the read at `a`: outcome ABORTED, and the three context fields become unspecified
(20_memory.md R53, 60_exceptions.md R163). -/
def abortDecode (a : Addr) (s : State) : State :=
  complete .aborted (.address a) .nothing
    { s with
      dec :=
        { s.dec with
          ctx :=
            { s.dec.ctx with
              decoded := freeRecord s.cfg s.ghost.free
              nextPc := Config.freeAddr (s.ghost.free + 1)
              alignedPc := Config.freeAddr (s.ghost.free + 2) } }
      ghost := { armed := none, ctxWritten := false, free := s.ghost.free + 3 } }

/-- FATAL_LENGTH: no assembly is described for 6 and 8 bytes (R138, 60_exceptions.md R165). -/
def raiseLength (l : ByteLen) (s : State) : State :=
  raiseFatal .fatalLength (.lengthAt l s.dec.ctx.currentPc)
    { kind := .fatalConfiguration, mnemonic := none, address := some s.dec.ctx.currentPc, value := some l.bytes } s

/-- Step 6, the context update on success (R141). Every field of the context is now written, and `t` is the template
DISPATCH may be given (44_semantic_dispatcher.md R145; log 7). -/
def finishDecode (t : Nat) (c : DecodedInsn) (limm : I32) (consumed : Nat) (s : State) : State :=
  complete .ok .nothing (.decoded t)
    { s with
      dec :=
        { s.dec with
          ctx :=
            { s.dec.ctx with
              decoded := { c with limm := limm, len := BitVec.ofNat 8 consumed }
              nextPc := s.dec.ctx.currentPc + BitVec.ofNat 32 consumed
              alignedPc := s.dec.ctx.currentPc &&& ~~~(0x3 : Addr) } }
      ghost := { s.ghost with armed := some t, ctxWritten := true } }

/-- Step 5, the long immediate "immediately following the base encoding" (R140). -/
def decodeLimm (t : Nat) (c : DecodedInsn) (l : ByteLen) (s : State) : State :=
  if c.limmP then
    let a := s.dec.ctx.currentPc + BitVec.ofNat 32 l.bytes
    let s' := issueRead .read32 a s
    match s'.bus.wordAt s.cfg.bigEndian a with
    | none => abortDecode a s'
    | some w => finishDecode t c (arrange s.cfg.bigEndian w) (l.bytes + 4) s'
  else finishDecode t c 0 l.bytes s

/-- Step 4, the match (R139). -/
def decodeWord (w : Word) (l : ByteLen) (s : State) : Result :=
  if tablesWf s.cfg then
    match findFormat s.cfg w l s.dec.ctx.cpuVariant with
    | none => .next (complete .decodeMiss .nothing .undecoded (clearDecoded s))
    | some (t, c) => .next (decodeLimm t c l s)
  else .refused .illFormedTables

/-- Steps 2 and 3 for a 4-byte instruction: the second unit, high-then-low (R137). -/
def decodeFour (u0 : InsnUnit) (s : State) : Result :=
  let a := s.dec.ctx.currentPc + 2
  let s' := issueRead .read16 a s
  match s'.bus.unitAt s.cfg.bigEndian a with
  | none => .next (abortDecode a s')
  | some u1 => decodeWord ((highThenLow u0 u1).setWidth 64) .four s'

/-- Steps 2 and 3: the length, then the word (R136, R137, R138). -/
def decodeUnit (u0 : InsnUnit) (s : State) : Result :=
  match classifyLength s.cfg u0 s.dec.ctx.cpuVariant with
  | none => .next (raiseVariant s.dec.ctx.cpuVariant s)
  | some .two => decodeWord (u0.setWidth 64) .two s
  | some .four => decodeFour u0 s
  | some .six => .next (raiseLength .six s)
  | some .eight => .next (raiseLength .eight s)

/-- Step 1, the first unit (R135). -/
def decodeEntry (s : State) : Result :=
  let a := s.dec.ctx.currentPc
  let s' := issueRead .read16 a s
  match s'.bus.unitAt s.cfg.bigEndian a with
  | none => .next (abortDecode a s')
  | some u0 => decodeUnit u0 s'

/-- READ_AND_DECODE (R144). An odd `current_pc` is refused (20_memory.md R51). -/
def execReadAndDecode (pc : Addr) (v : VariantMask) (s : State) : Result :=
  unlessHalted s <|
    if pc.getLsbD 0 then .refused .oddProgramCounter else decodeEntry (presentContext pc v s)

end Sys2Proof.Machine
end

