-- ==== Sys2Proof/Machine/Extract.lean ====
section
/-! DEFINITION. EXTRACT (40_bit_extractors.md R91) and the eight compressed register codes (30_encoding.md R74). -/

namespace Sys2Proof.Machine

/-- The answer of an extractor: "Outcomes: OK always" (R91). -/
def answerValue (r : I64 × Bool) (s : State) : State := complete .ok .nothing (.value r.1 r.2) s

/-- EXTRACT: "an index outside the table is refused by the model" (R91), and so is a descriptor that breaks its
invariants (10_state.md R21). -/
def execExtract (w : Word) (k : Nat) (s : State) : Result :=
  unlessHalted s <|
    match s.cfg.tOperands[k]? with
    | none => .refused .descriptorOutsideTable
    | some d => if descriptorWf d then .next (answerValue (extractWith s.cfg w d) s) else .refused .illFormedTables

/-- A raw code as a register-shorthand extractor answers it, `invalid` never set (R95; log 10). -/
def shorthandCode (c : Nat) (s : State) : Result :=
  unlessHalted s (.next (answerValue (BitVec.ofNat 64 (expandShorthand c), false) s))

def execRegShorthandCode0 (s : State) : Result := shorthandCode 0 s
def execRegShorthandCode1 (s : State) : Result := shorthandCode 1 s
def execRegShorthandCode2 (s : State) : Result := shorthandCode 2 s
def execRegShorthandCode3 (s : State) : Result := shorthandCode 3 s
def execRegShorthandCode4 (s : State) : Result := shorthandCode 4 s
def execRegShorthandCode5 (s : State) : Result := shorthandCode 5 s
def execRegShorthandCode6 (s : State) : Result := shorthandCode 6 s
def execRegShorthandCode7 (s : State) : Result := shorthandCode 7 s

end Sys2Proof.Machine
end

