-- ==== Sys2Proof/Machine/Dispatch.lean ====
section
/-! DEFINITION. The one match from an instruction to its meaning. -/

namespace Sys2Proof.Machine

def exec (i : Instr) (s : State) : Host.Outcome State Fault Refusal :=
  match i with
  | .classify u0 variant => Sys2Proof.Machine.execClassify u0 variant s
  | .findFormat word len mask => Sys2Proof.Machine.execFindFormat word len mask s
  | .readAndDecode pc variant => Sys2Proof.Machine.execReadAndDecode pc variant s
  | .dispatch t => Sys2Proof.Machine.execDispatch t s
  | .extract word k => Sys2Proof.Machine.execExtract word k s
  | .reset => Sys2Proof.Machine.execReset s
  | .reserved110 => Sys2Proof.Machine.execReserved110 s
  | .reserved111 => Sys2Proof.Machine.execReserved111 s
  | .lenLegacyMajor00To07 u0 variant => Sys2Proof.Machine.execLenLegacyMajor00To07 u0 variant s
  | .lenLegacyMajor08To09 u0 variant => Sys2Proof.Machine.execLenLegacyMajor08To09 u0 variant s
  | .lenLegacyMajor0A u0 variant => Sys2Proof.Machine.execLenLegacyMajor0A u0 variant s
  | .lenLegacyMajor0B u0 variant => Sys2Proof.Machine.execLenLegacyMajor0B u0 variant s
  | .lenLegacyMajor0CTo0F u0 variant => Sys2Proof.Machine.execLenLegacyMajor0CTo0F u0 variant s
  | .lenLegacyMajor10To1F u0 variant => Sys2Proof.Machine.execLenLegacyMajor10To1F u0 variant s
  | .lenCurrentMajor00To07 u0 variant => Sys2Proof.Machine.execLenCurrentMajor00To07 u0 variant s
  | .lenCurrentMajor08To0F u0 variant => Sys2Proof.Machine.execLenCurrentMajor08To0F u0 variant s
  | .lenCurrentMajor10To1F u0 variant => Sys2Proof.Machine.execLenCurrentMajor10To1F u0 variant s
  | .templateLen2 mask => Sys2Proof.Machine.execTemplateLen2 mask s
  | .templateLen4 mask => Sys2Proof.Machine.execTemplateLen4 mask s
  | .templateLen6 mask => Sys2Proof.Machine.execTemplateLen6 mask s
  | .templateLen8 mask => Sys2Proof.Machine.execTemplateLen8 mask s
  | .limmSentinel4B mask => Sys2Proof.Machine.execLimmSentinel4B mask s
  | .limmSentinel2BCurrent mask => Sys2Proof.Machine.execLimmSentinel2BCurrent mask s
  | .limmSentinel2BLegacy value mask => Sys2Proof.Machine.execLimmSentinel2BLegacy value mask s
  | .regShorthandCode0 => Sys2Proof.Machine.execRegShorthandCode0 s
  | .regShorthandCode1 => Sys2Proof.Machine.execRegShorthandCode1 s
  | .regShorthandCode2 => Sys2Proof.Machine.execRegShorthandCode2 s
  | .regShorthandCode3 => Sys2Proof.Machine.execRegShorthandCode3 s
  | .regShorthandCode4 => Sys2Proof.Machine.execRegShorthandCode4 s
  | .regShorthandCode5 => Sys2Proof.Machine.execRegShorthandCode5 s
  | .regShorthandCode6 => Sys2Proof.Machine.execRegShorthandCode6 s
  | .regShorthandCode7 => Sys2Proof.Machine.execRegShorthandCode7 s

end Sys2Proof.Machine
end

