-- ==== Sys2Proof/Machine/Step.lean ====
section
/-! DEFINITION. One step: the operation the host has presented. -/

namespace Sys2Proof.Machine

/-- One operation is one atomic step (00_scope.md R4, 70_reset_and_hazards.md R184); with nothing presented DEC "does
nothing between operations" (R185). -/
def step (s : State) : Host.Outcome State Fault Refusal :=
  match nextCommand s with
  | .idle => .next s
  | .garbled => .refused .noCommand
  | .command i rest => exec i (leaveCommands rest s)

/-- A word of the opcode table presented on the command interface, where `step` takes its next operation from. -/
def State.withFetchWord (s : State) (nbits w : Nat) : State := leaveCommands (layoutTableWord nbits w) s

end Sys2Proof.Machine
end

