-- ==== Sys2Proof/Safety.lean ====
section
/-! DEFINITION. The terms claims are stated in: the invariant of the machine, what it is for a template to survive the
matcher said without the scan, obligations on the external tables (10_state.md R28, R30), and the construction of a
split field (40_bit_extractors.md R94). -/

namespace Sys2Proof.Machine

/-- What every step keeps. -/
structure Inv (s : State) : Prop where
  /-- memory is in canonical form -/
  memory : Memory.wf s.bus.mem = true
  /-- `live_temps` is "empty between operations" (10_state.md R35) -/
  temps : s.dec.liveTemps = []
  /-- `halted` is set exactly when the last code written to `status` is fatal (R34, 60_exceptions.md R164) -/
  latch : s.dec.halted = s.dec.status.isFatal
  /-- HALTED "is returned without being written" (R158) -/
  unwritten : s.dec.status ≠ .halted
  /-- `n_ops <= MAX_OPS` (R14) -/
  capacity : s.dec.ctx.decoded.nOps ≤ s.cfg.maxOps
  /-- a template DISPATCH may be given is in the table, and `ctx.decoded` is a record of it, not `ZERO_INSN` (R145) -/
  armed : ∀ t, s.ghost.armed = some t →
    ∃ T, s.cfg.tOpcodes[t]? = some T ∧ s.dec.ctx.decoded.cls = .label T.cls
  /-- with a template armed, the context is whole: no field is unspecified (R43), `next_pc` is the byte after the
  instruction and `aligned_pc` the word-aligned `current_pc` (R11), so a handler sees no value nothing wrote -/
  whole : ∀ t, s.ghost.armed = some t →
    s.ghost.ctxWritten = true ∧
      s.dec.ctx.nextPc = s.dec.ctx.currentPc + s.dec.ctx.decoded.len.setWidth 32 ∧
      s.dec.ctx.alignedPc = BitVec.ofNat 32 (s.dec.ctx.currentPc.toNat / 4 * 4)

/-! ### States after an operation, field by field -/

/-- An operation ended OK with an output: `status` and the answer, nothing else (R158, R168). -/
def answeredOk (out : Output) (s : State) : State :=
  { s with
    dec := { s.dec with status := .ok }
    port := { s.port with answer := { outcome := some .ok, info := .nothing, out := out } } }

/-- One of the matcher's inner tests answered: no outcome code, no `status` (60_exceptions.md R160). -/
def testAnswered (out : Output) (s : State) : State :=
  { s with port := { s.port with answer := { outcome := none, info := .nothing, out := out } } }

/-- A fatal condition taken: what stands in the trace before it, then its diagnostic; its code in `status`, `halted`
set, `live_temps` empty (R164). -/
def fatalTaken (code : OutcomeCode) (info : OutcomeInfo) (before : List Event) (d : Diag) (s : State) : State :=
  { s with
    dec := { s.dec with status := code, halted := true, liveTemps := [] }
    port := { s.port with answer := { outcome := some code, info := info, out := .nothing } }
    log := s.log ++ before ++ [.diag d] }

/-- The host has written the context (log 18) and DEC has issued these reads through an accessor that is now `bus`; no
template is armed (log 7). -/
def afterReads (pc : Addr) (v : VariantMask) (bus : Accessor) (reads : List Event) (s : State) : State :=
  { s with
    dec := { s.dec with ctx := { s.dec.ctx with currentPc := pc, cpuVariant := v } }
    bus := bus
    log := s.log ++ reads
    ghost := { s.ghost with armed := none } }

/-- READ_AND_DECODE returned true with template `k`: the record, the three program counters (43_decode_entry.md
R141), the model's marks of a whole context and of the template DISPATCH may be given (log 7). `s` is the state after the
reads. -/
def decodeReturned (k : Nat) (c : DecodedInsn) (limm : I32) (consumed : Nat) (s : State) : State :=
  { s with
    dec :=
      { s.dec with
        status := .ok
        ctx :=
          { currentPc := s.dec.ctx.currentPc
            cpuVariant := s.dec.ctx.cpuVariant
            nextPc := s.dec.ctx.currentPc + BitVec.ofNat 32 consumed
            alignedPc := BitVec.ofNat 32 (s.dec.ctx.currentPc.toNat / 4 * 4)
            decoded := { c with limm := limm, len := BitVec.ofNat 8 consumed } } }
    port := { s.port with answer := { outcome := some .ok, info := .nothing, out := .decoded k } }
    ghost := { s.ghost with armed := some k, ctxWritten := true } }

/-- A decode miss: `ZERO_INSN`, nothing else of the context (R130, R139, R159). -/
def missed (out : Output) (s : State) : State :=
  { s with
    dec := { s.dec with status := .decodeMiss, ctx := { s.dec.ctx with decoded := {} } }
    port := { s.port with answer := { outcome := some .decodeMiss, info := .nothing, out := out } }
    ghost := { s.ghost with armed := none } }

/-- ABORTED at the read of `a`, with the values the three unspecified fields happen to have (20_memory.md R53). -/
def decodeAborted (a : Addr) (d : DecodedInsn) (nextPc alignedPc : Addr) (free : Nat) (s : State) : State :=
  { s with
    dec :=
      { s.dec with
        status := .aborted
        ctx := { s.dec.ctx with decoded := d, nextPc := nextPc, alignedPc := alignedPc } }
    port := { s.port with answer := { outcome := some .aborted, info := .address a, out := .nothing } }
    ghost := { armed := none, ctxWritten := false, free := free } }

/-- The operations that only answer: CLASSIFY, EXTRACT, the reserved codes, and the encodings offered alone. -/
def onlyAnswers : Instr → Bool
  | .findFormat _ _ _ => false
  | .readAndDecode _ _ => false
  | .dispatch _ => false
  | .reset => false
  | _ => true

/-- The operations that write `ctx` (70_reset_and_hazards.md R174 (5), R179); every other leaves it as it is. -/
def writesContext : Instr → Bool
  | .findFormat _ _ _ => true
  | .readAndDecode _ _ => true
  | .reset => true
  | _ => false

/-! ### Descriptors that break their invariants -/

/-- The groups of a split field of `n` bits do not stay inside the word and the field, or do not give each of its bits
exactly once (40_bit_extractors.md R94, R102). -/
def GroupsBroken (gs : List BitGroup) (n : Nat) : Prop :=
  (∃ g ∈ gs, g.hi < g.lo ∨ 64 ≤ g.hi ∨ n < g.dst + groupWidth g ∨ 64 < g.dst + groupWidth g) ∨
    ∃ b < n, (gs.filter fun g => groupGives g b).length ≠ 1

/-- A descriptor breaks an invariant of 10_state.md R20, R21 (b) to (e), 93 U9, or its extractor one of
40_bit_extractors.md R92, R94 to R96, R102. -/
def DescriptorBroken (d : OperandDescriptor) : Prop :=
  64 < d.bitWidth ∨ 64 ≤ d.shift ∨ (d.flags.signed = true ∧ d.flags.unsigned = true) ∨
    match d.extract with
    | none => 64 < d.shift + d.bitWidth ∨ (d.flags.signed = true ∧ 0 < d.bitWidth)
    | some (.fixed _) => d.bitWidth ≠ 0 ∨ d.flags.reg = false
    | some (.field gs signed n sc) =>
      GroupsBroken gs n ∨ 64 < n ∨ (signed = true ∧ n = 0) ∨ (sc ≠ .one ∧ 64 < n + 2)
    | some (.shorthand _ lo) => 64 < lo + 3
    | some (.regB gs) => GroupsBroken gs 6

/-! ### Bits of a split field -/

/-- `a` is the field the groups assemble from `w`: bit `dst + j` of it is bit `lo + j` of the word
(40_bit_extractors.md R94). -/
def Assembled (gs : List BitGroup) (w : Word) (a : Nat) : Prop :=
  ∀ g ∈ gs, ∀ j < groupWidth g, a.testBit (g.dst + j) = w.getLsbD (g.lo + j)

/-! ### Operand positions of DISPATCH -/

/-- DISPATCH can give position `p` a handle: a decoded operand, a register number within `NUM_REGS` where it is a
register, or a registered default (44_semantic_dispatcher.md R150, R151). -/
def PositionReady (P : Params) (map : MapId) (c : DecodedInsn) (p : Nat) : Prop :=
  match c.operands[p]? with
  | some o => o.type.reg = true → 0 ≤ o.value.toInt ∧ o.value.toInt < P.numRegs
  | none => (constOperand P map p).isSome = true

/-- The handle at position `p` and the surface call that made it (R151): a register's alias, else a temporary holding
the stored long immediate, the operand's value, or the default. -/
def Materialises (P : Params) (map : MapId) (c : DecodedInsn) (p : Nat) (h : Handle) (call : Event) : Prop :=
  match c.operands[p]? with
  | some o =>
    if o.type.reg then h = .reg o.value.toNat ∧ call = .regHandle o.value.toNat
    else if o.type.limm then ∃ n, h = .temp n ∧ call = .limmHandle c.limm n
    else ∃ n, h = .temp n ∧ call = .constHandle o.value n
  | none => ∃ k n, constOperand P map p = some k ∧ h = .temp n ∧ call = .constHandle k n

/-- The temporaries among some handles, in order. -/
def temporaries (hs : List Handle) : List Nat :=
  hs.filterMap fun h => match h with
    | .temp n => some n
    | .reg _ => none

/-- DISPATCH is presented within its contract (R145): running, the template is the one a successful READ_AND_DECODE
returned for this context and the context is whole (the model's marks, log 7), the tables keep their obligations
(log 14). -/
structure Dispatchable (s : State) (k : Nat) (T : OpcodeTemplate) : Prop where
  running : s.dec.halted = false
  armed : s.ghost.armed = some k
  written : s.ghost.ctxWritten = true
  tables : tablesWf s.cfg = true
  template : s.cfg.tOpcodes[k]? = some T

/-! ### The matcher's verdict on a template, said without the scan -/

/-- An operand does not reject the candidate (42_format_matcher.md R121, R122). -/
def OperandPasses (P : Params) (w : Word) (len : ByteLen) (mask : VariantMask) (d : OperandDescriptor) : Prop :=
  (extractWith P w d).2 = false ∧
    (d.flags.reg = true → d.flags.limm = false → sentinel P len mask ≠ some (extractWith P w d).1)

/-- "All flags must be explicable" (R128): implicit, or some member matches, or every member's field is zero. -/
def ClassPasses (P : Params) (w : Word) (cl : FlagClass) : Prop :=
  cl.kind.implicit = true ∨ (∃ m ∈ membersOf P cl, fieldAt w m.shift m.bitWidth = m.code) ∨
    ∀ m ∈ membersOf P cl, fieldAt w m.shift m.bitWidth = 0

/-- A template survives every check of R116 to R128. -/
structure Survives (P : Params) (w : Word) (len : ByteLen) (mask : VariantMask) (T : OpcodeTemplate) : Prop where
  variant : T.cpu &&& mask ≠ 0
  length : templateLength T.mask = len
  opcode : w &&& T.mask = T.opcodeValue
  operands : ∀ d ∈ extractedOperands P T.operandList, OperandPasses P w len mask d
  classes : ∀ j ∈ T.flagList, ∀ cl, P.tClasses[j]? = some cl → ClassPasses P w cl

/-- The entry an operand leaves in the record (R124). -/
def entryOf (P : Params) (w : Word) (d : OperandDescriptor) : Operand := { value := (extractWith P w d).1, type := d.flags }

/-- The record a surviving template gives: operands, `limm_p`, `len`, `class`, then its flag classes in list order
(R119, R123, R124, R125 to R127). -/
def recordOf (P : Params) (w : Word) (len : ByteLen) (T : OpcodeTemplate) : DecodedInsn :=
  let ds := extractedOperands P T.operandList
  T.flagList.foldl
    (fun c j => match P.tClasses[j]? with
      | none => c
      | some cl => (applyClass P w cl c).getD c)
    { operands := ds.map (entryOf P w)
      limmP := ds.any fun d => d.flags.limm
      len := BitVec.ofNat 8 len.bytes
      cls := .label T.cls }

/-! ### Obligations on the external tables -/

/-- "The opcode table and semantic table must stay in sync" (10_state.md R30). -/
def TablesInStep (P : Params) : Prop :=
  ∀ T ∈ P.tOpcodes, ∃ map, mappingOf P T.mnemonic = some map ∧
    ((specialOf P map).isSome = true ∨ (handlerOf P map).isSome = true)

/-- No template matches the all-zero word at this length (R28). -/
def AllZeroReserved (P : Params) (len : ByteLen) (mask : VariantMask) : Prop :=
  ∀ T ∈ P.tOpcodes, ¬Survives P 0 len mask T

/-! ### Field construction -/

/-- The word a split field's value is built into: each group's bits put back where R94 takes them from. -/
def scatter (gs : List BitGroup) (a : Nat) : Word :=
  BitVec.ofNat 64 (gs.foldl (fun w g => w ||| (((a >>> g.dst) &&& maskOf (groupWidth g)) <<< g.lo)) 0)

/-- The groups take their bits from places of the word that do not overlap ("no truncation/aliasing", R94). -/
def GroupsApart (gs : List BitGroup) : Prop := gs.Pairwise fun g h => g.hi < h.lo ∨ h.hi < g.lo

end Sys2Proof.Machine
end

