-- ==== Sys2Proof/Certificates/Slice0/Obligations.lean ====
section
/-! DEFINITION. The statements for the provers. -/

open Sys2Proof Sys2Proof.Machine

/-! ### Encoding and stepping -/

/-- Words written out from the codes of 30_encoding.md R88, R79, R80, R70, R76, R74 decode to what they stand for; the
operand bytes are the model's layout (log 2, DESIGN CHOICE). -/
def Obligations.DecodeReadsTableWords : Prop :=
  decode [0b000, 0xE0, 0x78, 0x4] = .ok (.classify 0x78E0 VariantMask.em, []) ∧
  decode [0b001, 0xC2, 0x00, 0x00, 0x21, 0, 0, 0, 0, 1, 0x4] = .ok (.findFormat 0x210000C2 .four VariantMask.em, []) ∧
  decode [0b010, 0x00, 0x01, 0x00, 0x00, 0x8] = .ok (.readAndDecode 0x100 VariantMask.hs, []) ∧
  decode [0b011, 7, 0, 0, 0] = .ok (.dispatch 7, []) ∧
  decode [0b100, 0xC2, 0x00, 0x00, 0x21, 0, 0, 0, 0, 2, 0, 0, 0] = .ok (.extract 0x210000C2 2, []) ∧
  decode [0b101] = .ok (.reset, []) ∧ decode [0b110] = .ok (.reserved110, []) ∧ decode [0b111] = .ok (.reserved111, []) ∧
  decode [0x10, 0xFF, 0x57, 1] = .ok (.lenLegacyMajor0A 0x57FF VariantMask.a700, []) ∧
  decode [0x10, 0xFF, 0x47, 2] = .ok (.lenCurrentMajor08To0F 0x47FF VariantMask.em, []) ∧
  decode [0x20, 0, 0, 1, 0, 0, 0, 0, 0] = .ok (.templateLen4 0x10000, []) ∧
  decode [0x3E, 0x2] = .ok (.limmSentinel4B VariantMask.a700, []) ∧
  decode [0x0C] = .ok (.regShorthandCode4, [])

/-- Decode and encode agree: every well-formed instruction, every operand value, whatever follows it. The packet
layout is the model's choice (log 2). -/
def Obligations.DecodeInvertsEncode : Prop :=
  ∀ (i : Instr) (rest : List Byte), i.wellFormed = true → decode (encode i ++ rest) = .ok (i, rest)

/-- What the decoder accepts is well-formed, and is the encoding of what it answers: no byte is dropped or ignored.
The packet layout is the model's choice (log 2). -/
def Obligations.EncodeInvertsDecode : Prop :=
  ∀ (bs : List Byte) (i : Instr) (rest : List Byte), decode bs = .ok (i, rest) →
    i.wellFormed = true ∧ encode i ++ rest = bs

/-- A step runs the decoded command, with the packet taken from the interface; with nothing presented it does nothing
(70_reset_and_hazards.md R185); bytes that are no packet are refused by name. The packet layout is the model's choice
(log 2). -/
def Obligations.StepRunsDecodedCommand : Prop :=
  (∀ (s : State) (i : Instr) (rest : List Byte), decode s.port.cmds = .ok (i, rest) →
    step s = exec i { s with port := { s.port with cmds := rest } }) ∧
  (∀ s : State, s.port.cmds = [] → step s = .next s) ∧
  (∀ (s : State) (e : DecodeError), s.port.cmds ≠ [] → decode s.port.cmds = .error e → step s = .refused .noCommand)

/-! ### CLASSIFY -/

/-- 41_length_classifier.md R107. -/
def Obligations.ClassifyCurrentVariants : Prop :=
  ∀ (u0 : InsnUnit) (v : VariantMask) (s : State), s.dec.halted = false →
    (v = VariantMask.em ∨ v = VariantMask.hs) →
    exec (.classify u0 v) s = .next (answeredOk (.length (if u0.toNat / 2 ^ 11 > 0x7 then .two else .four)) s)

/-- R108, R109, R110: the whole legacy classifier. -/
def Obligations.ClassifyLegacyVariants : Prop :=
  ∀ (u0 : InsnUnit) (v : VariantMask) (s : State), s.dec.halted = false →
    (v = VariantMask.a600 ∨ v = VariantMask.a700) →
    exec (.classify u0 v) s = .next (answeredOk (.length
      (match if u0.toNat / 2 ^ 11 = 0xb then extMinorLen s.cfg (BitVec.ofNat 5 (u0.toNat % 2 ^ 5)) else none with
        | some .six => .six
        | some .eight => .eight
        | none => if u0.toNat / 2 ^ 11 = 0xa then .eight else if u0.toNat / 2 ^ 11 > 0xb then .two else .four)) s)

/-- R106, 60_exceptions.md R161: an unrecognised variant is fatal for every first unit. That its diagnostic has no
address is the model's reading (log 13). -/
def Obligations.ClassifyUnrecognisedVariantIsFatal : Prop :=
  ∀ (u0 : InsnUnit) (v : VariantMask) (s : State), s.dec.halted = false →
    v ∉ [VariantMask.a600, VariantMask.a700, VariantMask.em, VariantMask.hs] →
    exec (.classify u0 v) s = .next (fatalTaken .fatalVariant (.variant v) []
      { kind := .fatalConfiguration, mnemonic := none, address := none, value := some v.toNat } s)

/-- 30_encoding.md R79: the six legacy rows of the length-class map, each with its length. That a row is presented as
an operation is the model's choice (log 10). -/
def Obligations.LegacyLengthRows : Prop :=
  ∀ (u : InsnUnit) (v : VariantMask) (s : State), s.dec.halted = false →
    ((Instr.lenLegacyMajor00To07 u v).wellFormed = true →
      exec (.lenLegacyMajor00To07 u v) s = .next (answeredOk (.length .four) s)) ∧
    ((Instr.lenLegacyMajor08To09 u v).wellFormed = true →
      exec (.lenLegacyMajor08To09 u v) s = .next (answeredOk (.length .four) s)) ∧
    ((Instr.lenLegacyMajor0A u v).wellFormed = true →
      exec (.lenLegacyMajor0A u v) s = .next (answeredOk (.length .eight) s)) ∧
    ((Instr.lenLegacyMajor0B u v).wellFormed = true →
      exec (.lenLegacyMajor0B u v) s = .next (answeredOk (.length
        (match extMinorLen s.cfg (BitVec.ofNat 5 (u.toNat % 2 ^ 5)) with
          | some .six => .six
          | some .eight => .eight
          | none => .four)) s)) ∧
    ((Instr.lenLegacyMajor0CTo0F u v).wellFormed = true →
      exec (.lenLegacyMajor0CTo0F u v) s = .next (answeredOk (.length .two) s)) ∧
    ((Instr.lenLegacyMajor10To1F u v).wellFormed = true →
      exec (.lenLegacyMajor10To1F u v) s = .next (answeredOk (.length .two) s))

/-- 30_encoding.md R80: the three current rows of the length-class map. That a row is presented as an operation is the
model's choice (log 10). -/
def Obligations.CurrentLengthRows : Prop :=
  ∀ (u : InsnUnit) (v : VariantMask) (s : State), s.dec.halted = false →
    ((Instr.lenCurrentMajor00To07 u v).wellFormed = true →
      exec (.lenCurrentMajor00To07 u v) s = .next (answeredOk (.length .four) s)) ∧
    ((Instr.lenCurrentMajor08To0F u v).wellFormed = true →
      exec (.lenCurrentMajor08To0F u v) s = .next (answeredOk (.length .two) s)) ∧
    ((Instr.lenCurrentMajor10To1F u v).wellFormed = true →
      exec (.lenCurrentMajor10To1F u v) s = .next (answeredOk (.length .two) s))

/-- "Complete over the 32 major opcodes" (R79), and R80 the same: a first unit lies in exactly one row of its
variant's group. -/
def Obligations.EveryUnitLiesInOneRow : Prop :=
  ∀ (u : InsnUnit) (v : VariantMask),
    (isLegacyVariant v = true →
      ([Instr.lenLegacyMajor00To07 u v, .lenLegacyMajor08To09 u v, .lenLegacyMajor0A u v, .lenLegacyMajor0B u v,
        .lenLegacyMajor0CTo0F u v, .lenLegacyMajor10To1F u v].filter Instr.wellFormed).length = 1) ∧
    (isCurrentVariant v = true →
      ([Instr.lenCurrentMajor00To07 u v, .lenCurrentMajor08To0F u v, .lenCurrentMajor10To1F u v].filter
        Instr.wellFormed).length = 1)

/-! ### Encodings the matcher consumes -/

/-- 30_encoding.md R70: the four thresholds, and the equivalent reading by the highest set bit of the mask; each inner
test writes no `status` (60_exceptions.md R160). That a mask is offered alone is the model's choice (log 10). -/
def Obligations.TemplateLengthRows : Prop :=
  ∀ (m : Word) (s : State), s.dec.halted = false →
    (((Instr.templateLen2 m).wellFormed = true ↔ ∀ i, m.getLsbD i = true → i < 16) ∧
      ((Instr.templateLen2 m).wellFormed = true → exec (.templateLen2 m) s = .next (testAnswered (.length .two) s))) ∧
    (((Instr.templateLen4 m).wellFormed = true ↔
        (∃ i, m.getLsbD i = true ∧ 16 ≤ i) ∧ ∀ i, m.getLsbD i = true → i < 32) ∧
      ((Instr.templateLen4 m).wellFormed = true → exec (.templateLen4 m) s = .next (testAnswered (.length .four) s))) ∧
    (((Instr.templateLen6 m).wellFormed = true ↔
        (∃ i, m.getLsbD i = true ∧ 32 ≤ i) ∧ ∀ i, m.getLsbD i = true → i < 48) ∧
      ((Instr.templateLen6 m).wellFormed = true → exec (.templateLen6 m) s = .next (testAnswered (.length .six) s))) ∧
    (((Instr.templateLen8 m).wellFormed = true ↔ ∃ i, m.getLsbD i = true ∧ 48 ≤ i) ∧
      ((Instr.templateLen8 m).wellFormed = true → exec (.templateLen8 m) s = .next (testAnswered (.length .eight) s)))

/-- 30_encoding.md R76, 42_format_matcher.md R122: the sentinel rows; a register operand that holds the sentinel
rejects the candidate. That a value is offered alone is the model's choice (log 10). -/
def Obligations.SentinelRows : Prop :=
  ∀ (m : VariantMask) (x : I64) (s : State), s.dec.halted = false →
    exec (.limmSentinel4B m) s = .next (testAnswered (.rejected true) s) ∧
    ((Instr.limmSentinel2BCurrent m).wellFormed = true →
      exec (.limmSentinel2BCurrent m) s = .next (testAnswered (.rejected true) s)) ∧
    ((Instr.limmSentinel2BLegacy x m).wellFormed = true →
      exec (.limmSentinel2BLegacy x m) s =
        .next (testAnswered (.rejected (decide (s.cfg.limmSentinel2BLegacy = some x))) s))

/-- 30_encoding.md R74: the eight compressed register codes and their registers. That a code is offered alone is the
model's choice (log 10). -/
def Obligations.ShorthandCodesNameTheirRegisters : Prop :=
  ∀ s : State, s.dec.halted = false →
    exec .regShorthandCode0 s = .next (answeredOk (.value 0 false) s) ∧
    exec .regShorthandCode1 s = .next (answeredOk (.value 1 false) s) ∧
    exec .regShorthandCode2 s = .next (answeredOk (.value 2 false) s) ∧
    exec .regShorthandCode3 s = .next (answeredOk (.value 3 false) s) ∧
    exec .regShorthandCode4 s = .next (answeredOk (.value 12 false) s) ∧
    exec .regShorthandCode5 s = .next (answeredOk (.value 13 false) s) ∧
    exec .regShorthandCode6 s = .next (answeredOk (.value 14 false) s) ∧
    exec .regShorthandCode7 s = .next (answeredOk (.value 15 false) s)

/-! ### EXTRACT -/

/-- 40_bit_extractors.md R90. -/
def Obligations.ExtractPlainRead : Prop :=
  ∀ (w : Word) (k : Nat) (d : OperandDescriptor) (s : State), s.dec.halted = false →
    s.cfg.tOperands[k]? = some d → descriptorWf d = true → d.extract = none →
    exec (.extract w k) s =
      .next (answeredOk (.value (BitVec.ofNat 64 (w.toNat / 2 ^ d.shift % 2 ^ d.bitWidth)) false) s)

/-- 40_bit_extractors.md R93: the word is ignored, the register's number is the answer. -/
def Obligations.ExtractFixedRegister : Prop :=
  ∀ (w : Word) (k : Nat) (d : OperandDescriptor) (r : FixedReg) (s : State), s.dec.halted = false →
    s.cfg.tOperands[k]? = some d → descriptorWf d = true → d.extract = some (.fixed r) →
    exec (.extract w k) s = .next (answeredOk (.value (BitVec.ofNat 64
      (match r with
        | .r0 => 0
        | .r1 => 1
        | .r2 => 2
        | .r3 => 3
        | .sp => s.cfg.regSp
        | .gp => s.cfg.regGp
        | .blink => s.cfg.regBlink
        | .ilink1 => s.cfg.regIlink1
        | .ilink2 => s.cfg.regIlink2
        | .pcl => s.cfg.regPcl)) false) s)

/-- 40_bit_extractors.md R95. -/
def Obligations.ExtractShorthandRegister : Prop :=
  ∀ (w : Word) (k : Nat) (d : OperandDescriptor) (x : Shorthand) (lo : Nat) (s : State), s.dec.halted = false →
    s.cfg.tOperands[k]? = some d → descriptorWf d = true → d.extract = some (.shorthand x lo) →
    exec (.extract w k) s = .next (answeredOk (.value (BitVec.ofNat 64
      (if w.toNat / 2 ^ lo % 8 > 3 then w.toNat / 2 ^ lo % 8 + 8 else w.toNat / 2 ^ lo % 8)) false) s)

/-- 40_bit_extractors.md R96: the assembled 6-bit field, `invalid` exactly at 0x3e. -/
def Obligations.ExtractRegB : Prop :=
  ∀ (w : Word) (k : Nat) (d : OperandDescriptor) (gs : List BitGroup) (s : State), s.dec.halted = false →
    s.cfg.tOperands[k]? = some d → descriptorWf d = true → d.extract = some (.regB gs) →
    ∃ a, a < 2 ^ 6 ∧ Assembled gs w a ∧
      exec (.extract w k) s = .next (answeredOk (.value (BitVec.ofNat 64 a) (decide (a = 0x3e))) s)

/-- 40_bit_extractors.md R94, R97: assemble, then sign-extend, then scale. A signed result is exact in the i64; the low
bit of a value scaled by 2, the low two bits of one scaled by 4, are zero. That an unsigned result of 2^63 or more is
reinterpreted by two's complement is the model's reading (log 22). -/
def Obligations.ExtractSplitField : Prop :=
  ∀ (w : Word) (k : Nat) (d : OperandDescriptor) (gs : List BitGroup) (signed : Bool) (n : Nat) (sc : Scale)
    (s : State), s.dec.halted = false →
    s.cfg.tOperands[k]? = some d → descriptorWf d = true → d.extract = some (.field gs signed n sc) →
    ∃ (a : Nat) (v : I64), a < 2 ^ n ∧ Assembled gs w a ∧
      exec (.extract w k) s = .next (answeredOk (.value v false) s) ∧
      (signed = false → v = BitVec.ofInt 64 (a * (match sc with | .one => 1 | .two => 2 | .four => 4))) ∧
      (signed = true → v.toInt =
        (if a < 2 ^ (n - 1) then (a : Int) else a - 2 ^ n) * (match sc with | .one => 1 | .two => 2 | .four => 4)) ∧
      (sc = .two → v.toNat % 2 = 0) ∧ (sc = .four → v.toNat % 4 = 0)

/-- 40_bit_extractors.md R92: two's complement at every width, with its boundaries. -/
def Obligations.SignExtensionIsTwosComplement : Prop :=
  ∀ n v : Nat, 1 ≤ n → n ≤ 64 → v < 2 ^ n →
    sext n v = (if v < 2 ^ (n - 1) then (v : Int) else v - 2 ^ n) ∧
      -(2 : Int) ^ 63 ≤ sext n v ∧ sext n v < (2 : Int) ^ 63

/-- 40_bit_extractors.md R94: "field extraction ↔ field construction are inverse when no truncation/aliasing is
involved". -/
def Obligations.FieldConstructionRoundTrip : Prop :=
  ∀ (gs : List BitGroup) (n a : Nat), groupsCover gs n = true → GroupsApart gs → a < 2 ^ n →
    assemble gs (scatter gs a) = a

/-- 40_bit_extractors.md R91, 10_state.md R20, R21, 93 U9: what EXTRACT gives no meaning to: an index outside the table,
and exactly the descriptors that break an invariant, each of which `DescriptorBroken` spells out. That EXTRACT is refused
for the descriptor it is given, and for no other breach of the tables, is the model's reading (log 14). -/
def Obligations.ExtractRefusals : Prop :=
  ∀ (w : Word) (k : Nat) (s : State), s.dec.halted = false →
    (s.cfg.tOperands.length ≤ k → exec (.extract w k) s = .refused .descriptorOutsideTable) ∧
    (∀ d, s.cfg.tOperands[k]? = some d →
      (exec (.extract w k) s = .refused .illFormedTables ↔ DescriptorBroken d))

/-! ### FIND_FORMAT -/

/-- 42_format_matcher.md R115 to R124, R128 to R130, R133: the first template in table order that survives every check
is returned with its record, whose `limm` is 0 (70_reset_and_hazards.md R179); if none survives, DECODE_MISS with
`ZERO_INSN`. Either way no template is left for DISPATCH: `ghost.armed` is the model's own mark (log 7). -/
def Obligations.FindFormatReturnsFirstSurvivor : Prop :=
  ∀ (w : Word) (l : ByteLen) (m : VariantMask) (s : State), s.dec.halted = false → tablesWf s.cfg = true →
    (∃ t T, s.cfg.tOpcodes[t]? = some T ∧ Survives s.cfg w l m T ∧
      (∀ j T', j < t → s.cfg.tOpcodes[j]? = some T' → ¬Survives s.cfg w l m T') ∧
      exec (.findFormat w l m) s = .next
        { s with
          dec := { s.dec with
            status := .ok
            ctx := { s.dec.ctx with decoded := recordOf s.cfg w l T } }
          port := { s.port with answer := { outcome := some .ok, info := .nothing, out := .found t } }
          ghost := { s.ghost with armed := none } }) ∨
    ((∀ T ∈ s.cfg.tOpcodes, ¬Survives s.cfg w l m T) ∧ exec (.findFormat w l m) s = .next (missed .notFound s))

/-- 10_state.md R21, R27, 93 U9, 20_memory.md R51: what FIND_FORMAT and READ_AND_DECODE give no meaning to: ill-formed
tables where the matcher is reached, and an odd `current_pc`. Which table obligations count is the model's reading
(log 14), and that a batch of others' changes lands before each read its choice (log 6). -/
def Obligations.DecodingRefusals : Prop :=
  (∀ (w : Word) (l : ByteLen) (m : VariantMask) (s : State), s.dec.halted = false → tablesWf s.cfg = false →
    exec (.findFormat w l m) s = .refused .illFormedTables) ∧
  (∀ (pc : Addr) (v : VariantMask) (s : State), s.dec.halted = false → pc.toNat % 2 = 1 →
    exec (.readAndDecode pc v) s = .refused .oddProgramCounter) ∧
  (∀ (pc : Addr) (v : VariantMask) (s : State) (u0 : InsnUnit), s.dec.halted = false → pc.toNat % 2 = 0 →
    tablesWf s.cfg = false → s.bus.arrive.unitAt s.cfg.bigEndian pc = some u0 →
    (classifyLength s.cfg u0 v = some .two → exec (.readAndDecode pc v) s = .refused .illFormedTables) ∧
    (∀ u1, classifyLength s.cfg u0 v = some .four → s.bus.arrive.arrive.unitAt s.cfg.bigEndian (pc + 2) = some u1 →
      exec (.readAndDecode pc v) s = .refused .illFormedTables))

/-- 42_format_matcher.md R122, and 30_encoding.md R76 row by row: a register operand that is not itself the long immediate
never holds the sentinel in a returned record: 0x3e at length 4, 0x1e at length 2 under a mask with a current variant,
`LIMM_SENTINEL_2B_LEGACY` at length 2 under any other mask, where there is one. -/
def Obligations.SentinelIsNeverReturned : Prop :=
  ∀ (w : Word) (l : ByteLen) (m : VariantMask) (s t : State) (k : Nat), s.dec.halted = false →
    exec (.findFormat w l m) s = .next t → t.port.answer.out = .found k →
    ∀ o ∈ t.dec.ctx.decoded.operands, o.type.reg = true → o.type.limm = false →
      (l = .four → o.value ≠ 0x3e) ∧ (l = .two → meetsCurrent m = true → o.value ≠ 0x1e) ∧
      (l = .two → meetsCurrent m = false → s.cfg.limmSentinel2BLegacy ≠ some o.value)

/-- 42_format_matcher.md R131: the result does not depend on what DEC held before. -/
def Obligations.FindFormatIgnoresOldState : Prop :=
  ∀ (w : Word) (l : ByteLen) (m : VariantMask) (s s' : State), s.dec.halted = false → s'.dec.halted = false →
    s.cfg = s'.cfg →
    match exec (.findFormat w l m) s, exec (.findFormat w l m) s' with
    | .next t, .next t' =>
      t.port.answer = t'.port.answer ∧ t.dec.ctx.decoded = t'.dec.ctx.decoded ∧ t.dec.status = t'.dec.status
    | .refused r, .refused r' => r = r'
    | _, _ => False

/-- 30_encoding.md R82, 10_state.md R28 (b): with the obligation on the table kept, the all-zero word is NotFound and
leaves the record fully zeroed. `missed` clears the model's own mark too (log 7). -/
def Obligations.AllZeroWordIsIllegal : Prop :=
  ∀ (m : VariantMask) (s : State), s.dec.halted = false → tablesWf s.cfg = true → AllZeroReserved s.cfg .four m →
    exec (.findFormat 0 .four m) s = .next (missed .notFound s)

/-- 42_format_matcher.md R125: an implicit class copies its first member's code into the first of COND, WB, ZZ it has,
tests no bit and rejects nothing. -/
def Obligations.ImplicitClassCopiesFirstCode : Prop :=
  ∀ (P : Params) (w : Word) (cl : FlagClass) (m0 : FlagOperand) (ms : List FlagOperand) (c : DecodedInsn),
    cl.kind.implicit = true → membersOf P cl = m0 :: ms →
    applyClass P w cl c = some
      (if cl.kind.cond then { c with cc := m0.code }
        else if cl.kind.wb then { c with aa := m0.code }
        else if cl.kind.zz then { c with zz := m0.code }
        else c)

/-- 42_format_matcher.md R126, R127, 30_encoding.md R78: the last matching member of a class applies every kind of the
class, and only those; no earlier member leaves a trace. -/
def Obligations.MatchingMemberAppliesEveryKind : Prop :=
  ∀ (P : Params) (w : Word) (cl : FlagClass) (before after : List FlagOperand) (m : FlagOperand) (c : DecodedInsn),
    cl.kind.implicit = false → membersOf P cl = before ++ m :: after →
    w.toNat / 2 ^ m.shift % 2 ^ m.bitWidth = m.code →
    (∀ m' ∈ after, w.toNat / 2 ^ m'.shift % 2 ^ m'.bitWidth ≠ m'.code) →
    applyClass P w cl c = some
      { c with
        cc := if cl.kind.cond then m.code else c.cc
        aa := if cl.kind.wb then m.code else c.aa
        zz := if cl.kind.zz then m.code else c.zz
        d := if cl.kind.d then decide (m.code ≠ 0) else c.d
        f := if cl.kind.f then true else c.f
        di := if cl.kind.di then true else c.di
        x := if cl.kind.x then true else c.x }

/-- 42_format_matcher.md R128: with no matching member, a nonzero field rejects the candidate and all-zero fields leave
the record as it was. -/
def Obligations.UnexplainedFlagsReject : Prop :=
  ∀ (P : Params) (w : Word) (cl : FlagClass) (c : DecodedInsn), cl.kind.implicit = false →
    (∀ m ∈ membersOf P cl, w.toNat / 2 ^ m.shift % 2 ^ m.bitWidth ≠ m.code) →
    ((∃ m ∈ membersOf P cl, w.toNat / 2 ^ m.shift % 2 ^ m.bitWidth ≠ 0) → applyClass P w cl c = none) ∧
    ((∀ m ∈ membersOf P cl, w.toNat / 2 ^ m.shift % 2 ^ m.bitWidth = 0) → applyClass P w cl c = some c)

/-! ### The accessor's values -/

/-- 20_memory.md R47, R48, 30_encoding.md R66, R68: which byte is which, for both byte orders; address sums wrap. -/
def Obligations.ByteLayoutOfUnitsAndWords : Prop :=
  ∀ (b : Accessor) (a : Addr) (b0 b1 b2 b3 : Byte),
    b.byteAt a = some b0 → b.byteAt (a + 1) = some b1 → b.byteAt (a + 2) = some b2 → b.byteAt (a + 3) = some b3 →
    (∃ u0 u1, b.unitAt false a = some u0 ∧ b.unitAt false (a + 2) = some u1 ∧
      (highThenLow u0 u1).toNat = b0.toNat * 2 ^ 16 + b1.toNat * 2 ^ 24 + b2.toNat + b3.toNat * 2 ^ 8) ∧
    (∃ u0 u1, b.unitAt true a = some u0 ∧ b.unitAt true (a + 2) = some u1 ∧
      (highThenLow u0 u1).toNat = b0.toNat * 2 ^ 24 + b1.toNat * 2 ^ 16 + b2.toNat * 2 ^ 8 + b3.toNat) ∧
    (∃ w, b.wordAt false a = some w ∧
      w.toNat = b0.toNat + b1.toNat * 2 ^ 8 + b2.toNat * 2 ^ 16 + b3.toNat * 2 ^ 24) ∧
    (∃ w, b.wordAt true a = some w ∧
      w.toNat = b0.toNat * 2 ^ 24 + b1.toNat * 2 ^ 16 + b2.toNat * 2 ^ 8 + b3.toNat)

/-- 20_memory.md R50: for both byte orders the long immediate of one `read32` is the two units, high first. That the
32-bit read answers exactly when both 16-bit reads would is the model's choice (log 5): R53 lets the accessor abort any
read. -/
def Obligations.LongImmediateIsHighUnitFirst : Prop :=
  ∀ (big : Bool) (b : Accessor) (a : Addr),
    (b.wordAt big a).map (arrange big) =
      match b.unitAt big a, b.unitAt big (a + 2) with
      | some h, some l => some (h ++ l)
      | _, _ => none

/-! ### READ_AND_DECODE -/

/-- 43_decode_entry.md R135 to R137, R139 to R142, 2-byte instructions: with no long immediate one read and 2 bytes,
with one two reads and 6 bytes. The model's choices in the next state: the host's write of `current_pc` and `cpu_variant`
lands with the operation (log 18), one batch of others' changes before each read (log 6), the marks `ghost.armed` and
`ghost.ctxWritten` (log 7). -/
def Obligations.DecodeTwoByteInstruction : Prop :=
  ∀ (pc : Addr) (v : VariantMask) (s : State) (u0 : InsnUnit) (k : Nat) (c : DecodedInsn),
    s.dec.halted = false → pc.toNat % 2 = 0 → tablesWf s.cfg = true →
    s.bus.arrive.unitAt s.cfg.bigEndian pc = some u0 → classifyLength s.cfg u0 v = some .two →
    findFormat s.cfg (BitVec.ofNat 64 u0.toNat) .two v = some (k, c) →
    (c.limmP = false →
      exec (.readAndDecode pc v) s = .next (decodeReturned k c 0 2
        (afterReads pc v s.bus.arrive [.read .read16 pc] s))) ∧
    (∀ h l, c.limmP = true →
      s.bus.arrive.arrive.unitAt s.cfg.bigEndian (pc + 2) = some h →
      s.bus.arrive.arrive.unitAt s.cfg.bigEndian (pc + 4) = some l →
      exec (.readAndDecode pc v) s = .next (decodeReturned k c (h ++ l) 6
        (afterReads pc v s.bus.arrive.arrive [.read .read16 pc, .read .read32 (pc + 2)] s)))

/-- 43_decode_entry.md R135 to R137, R139 to R142, 4-byte instructions: the word is the two units high-then-low; 4 or 8
bytes are consumed. The model's choices in the next state: the host's write of `current_pc` and `cpu_variant` lands with
the operation (log 18), one batch of others' changes before each read (log 6), the marks `ghost.armed` and
`ghost.ctxWritten` (log 7). -/
def Obligations.DecodeFourByteInstruction : Prop :=
  ∀ (pc : Addr) (v : VariantMask) (s : State) (u0 u1 : InsnUnit) (k : Nat) (c : DecodedInsn),
    s.dec.halted = false → pc.toNat % 2 = 0 → tablesWf s.cfg = true →
    s.bus.arrive.unitAt s.cfg.bigEndian pc = some u0 → classifyLength s.cfg u0 v = some .four →
    s.bus.arrive.arrive.unitAt s.cfg.bigEndian (pc + 2) = some u1 →
    findFormat s.cfg (BitVec.ofNat 64 (u0.toNat * 2 ^ 16 + u1.toNat)) .four v = some (k, c) →
    (c.limmP = false →
      exec (.readAndDecode pc v) s = .next (decodeReturned k c 0 4
        (afterReads pc v s.bus.arrive.arrive [.read .read16 pc, .read .read16 (pc + 2)] s))) ∧
    (∀ h l, c.limmP = true →
      s.bus.arrive.arrive.arrive.unitAt s.cfg.bigEndian (pc + 4) = some h →
      s.bus.arrive.arrive.arrive.unitAt s.cfg.bigEndian (pc + 6) = some l →
      exec (.readAndDecode pc v) s = .next (decodeReturned k c (h ++ l) 8
        (afterReads pc v s.bus.arrive.arrive.arrive
          [.read .read16 pc, .read .read16 (pc + 2), .read .read32 (pc + 4)] s)))

/-- 43_decode_entry.md R139, 60_exceptions.md R159: a decode miss returns false with `ZERO_INSN`; `next_pc` and
`aligned_pc` keep their values; no long-immediate read is issued. The model's choices in the next state: the host's write
lands on a miss too (log 18), one batch of others' changes before each read (log 6), the mark `ghost.armed` is cleared
(log 7). -/
def Obligations.DecodeMissReturnsFalse : Prop :=
  ∀ (pc : Addr) (v : VariantMask) (s : State) (u0 : InsnUnit),
    s.dec.halted = false → pc.toNat % 2 = 0 → tablesWf s.cfg = true →
    s.bus.arrive.unitAt s.cfg.bigEndian pc = some u0 →
    (classifyLength s.cfg u0 v = some .two → findFormat s.cfg (BitVec.ofNat 64 u0.toNat) .two v = none →
      exec (.readAndDecode pc v) s =
        .next (missed .undecoded (afterReads pc v s.bus.arrive [.read .read16 pc] s))) ∧
    (∀ u1, classifyLength s.cfg u0 v = some .four →
      s.bus.arrive.arrive.unitAt s.cfg.bigEndian (pc + 2) = some u1 →
      findFormat s.cfg (BitVec.ofNat 64 (u0.toNat * 2 ^ 16 + u1.toNat)) .four v = none →
      exec (.readAndDecode pc v) s = .next (missed .undecoded
        (afterReads pc v s.bus.arrive.arrive [.read .read16 pc, .read .read16 (pc + 2)] s)))

/-- 43_decode_entry.md R136, R138, 60_exceptions.md R167: after the first read, an unrecognised variant and a length
of 6 or 8 are fatal, with no further read and whatever the tables hold. That the first has no address in its
diagnostic is the model's reading (log 13). The model's choices in the next state: the host's write lands on a fatal
outcome too (log 18), one batch of others' changes before the read (log 6), the mark `ghost.armed` is cleared (log 7). -/
def Obligations.DecodeFatalConditions : Prop :=
  ∀ (pc : Addr) (v : VariantMask) (s : State) (u0 : InsnUnit),
    s.dec.halted = false → pc.toNat % 2 = 0 → s.bus.arrive.unitAt s.cfg.bigEndian pc = some u0 →
    (classifyLength s.cfg u0 v = none →
      exec (.readAndDecode pc v) s = .next (fatalTaken .fatalVariant (.variant v) []
        { kind := .fatalConfiguration, mnemonic := none, address := none, value := some v.toNat }
        (afterReads pc v s.bus.arrive [.read .read16 pc] s))) ∧
    (∀ l, l = .six ∨ l = .eight → classifyLength s.cfg u0 v = some l →
      exec (.readAndDecode pc v) s = .next (fatalTaken .fatalLength (.lengthAt l pc) []
        { kind := .fatalConfiguration, mnemonic := none, address := some pc, value := some l.bytes }
        (afterReads pc v s.bus.arrive [.read .read16 pc] s)))

/-- 20_memory.md R53, 60_exceptions.md R163: a refused read ends the operation with ABORTED and no later read;
`halted` is not set; the three unspecified fields may hold anything. Those values are free values (log 4). The model's
choices in the next state: the host's write of `current_pc` and `cpu_variant` lands although the operation is aborted
(log 18), one batch of others' changes before each read (log 6), a read is refused as a whole and its own address recorded
(log 5), the marks `ghost.armed` and `ghost.ctxWritten` are cleared (log 7). -/
def Obligations.RefusedReadAborts : Prop :=
  ∀ (pc : Addr) (v : VariantMask) (s : State), s.dec.halted = false → pc.toNat % 2 = 0 →
    (s.bus.arrive.unitAt s.cfg.bigEndian pc = none →
      ∃ d n a x, exec (.readAndDecode pc v) s = .next (decodeAborted pc d n a x
        (afterReads pc v s.bus.arrive [.read .read16 pc] s))) ∧
    (∀ u0, s.bus.arrive.unitAt s.cfg.bigEndian pc = some u0 → classifyLength s.cfg u0 v = some .four →
      s.bus.arrive.arrive.unitAt s.cfg.bigEndian (pc + 2) = none →
      ∃ d n a x, exec (.readAndDecode pc v) s = .next (decodeAborted (pc + 2) d n a x
        (afterReads pc v s.bus.arrive.arrive [.read .read16 pc, .read .read16 (pc + 2)] s))) ∧
    (∀ u0 k c, s.bus.arrive.unitAt s.cfg.bigEndian pc = some u0 → classifyLength s.cfg u0 v = some .two →
      tablesWf s.cfg = true → findFormat s.cfg (BitVec.ofNat 64 u0.toNat) .two v = some (k, c) → c.limmP = true →
      s.bus.arrive.arrive.wordAt s.cfg.bigEndian (pc + 2) = none →
      ∃ d n a x, exec (.readAndDecode pc v) s = .next (decodeAborted (pc + 2) d n a x
        (afterReads pc v s.bus.arrive.arrive [.read .read16 pc, .read .read32 (pc + 2)] s))) ∧
    (∀ u0 u1 k c, s.bus.arrive.unitAt s.cfg.bigEndian pc = some u0 → classifyLength s.cfg u0 v = some .four →
      s.bus.arrive.arrive.unitAt s.cfg.bigEndian (pc + 2) = some u1 → tablesWf s.cfg = true →
      findFormat s.cfg (BitVec.ofNat 64 (u0.toNat * 2 ^ 16 + u1.toNat)) .four v = some (k, c) → c.limmP = true →
      s.bus.arrive.arrive.arrive.wordAt s.cfg.bigEndian (pc + 4) = none →
      ∃ d n a x, exec (.readAndDecode pc v) s = .next (decodeAborted (pc + 4) d n a x
        (afterReads pc v s.bus.arrive.arrive.arrive
          [.read .read16 pc, .read .read16 (pc + 2), .read .read32 (pc + 4)] s)))

/-- 41_length_classifier.md R112: a template whose derived length is not the classified one, or that is not for the
variant, is never returned. That a batch of others' changes lands before the read is the model's choice (log 6). -/
def Obligations.ReturnedTemplateHasClassifiedLength : Prop :=
  ∀ (pc : Addr) (v : VariantMask) (s t : State) (k : Nat), s.dec.halted = false →
    exec (.readAndDecode pc v) s = .next t → t.port.answer.out = .decoded k →
    ∃ T u0, s.cfg.tOpcodes[k]? = some T ∧ s.bus.arrive.unitAt s.cfg.bigEndian pc = some u0 ∧
      classifyLength s.cfg u0 v = some (templateLength T.mask) ∧ T.cpu &&& v ≠ 0

/-- 43_decode_entry.md R144, 20_memory.md R59: what READ_AND_DECODE answers and decodes depends on the parameters, the
accessor and what the host presents, not on anything DEC kept from before. The accessor's batches are the model's choice
(log 6), and so is the host's write with the operation (log 18). -/
def Obligations.DecodeKeepsNothingFromBefore : Prop :=
  ∀ (pc : Addr) (v : VariantMask) (s s' : State), s.dec.halted = false → s'.dec.halted = false →
    s.cfg = s'.cfg → s.bus = s'.bus →
    match exec (.readAndDecode pc v) s, exec (.readAndDecode pc v) s' with
    | .next t, .next t' =>
      t.port.answer = t'.port.answer ∧ t.bus = t'.bus ∧ t.dec.status = t'.dec.status ∧
        ((t.dec.status = .ok ∧ t.dec.ctx = t'.dec.ctx) ∨
          (t.dec.status = .decodeMiss ∧ t.dec.ctx.decoded = t'.dec.ctx.decoded) ∨
          (t.dec.status ≠ .ok ∧ t.dec.status ≠ .decodeMiss))
    | .refused r, .refused r' => r = r'
    | _, _ => False

/-! ### DISPATCH -/

/-- 44_semantic_dispatcher.md R146, R147: a mnemonic with no mapping is fatal before any handle is allocated. Which
template counts as returned for the context is kept in the model's marks (`Dispatchable`, log 7). -/
def Obligations.DispatchWithoutMapping : Prop :=
  ∀ (k : Nat) (T : OpcodeTemplate) (s : State), Dispatchable s k T → mappingOf s.cfg T.mnemonic = none →
    exec (.dispatch k) s = .next (fatalTaken .fatalNoMapping (.mnemonicAt T.mnemonic s.dec.ctx.currentPc) []
      { kind := .noMapping, mnemonic := some T.mnemonic, address := some s.dec.ctx.currentPc, value := none }
      { s with dec := { s.dec with initDone := true } })

/-- 44_semantic_dispatcher.md R149: a mapping with neither a special nor a generic handler is fatal. Which template counts
as returned for the context is kept in the model's marks (`Dispatchable`, log 7). -/
def Obligations.DispatchWithoutHandler : Prop :=
  ∀ (k : Nat) (T : OpcodeTemplate) (map : MapId) (s : State), Dispatchable s k T →
    mappingOf s.cfg T.mnemonic = some map → specialOf s.cfg map = none → handlerOf s.cfg map = none →
    exec (.dispatch k) s = .next (fatalTaken .fatalNoHandler (.mnemonicAt T.mnemonic s.dec.ctx.currentPc) []
      { kind := .unimplementedSemantic, mnemonic := some T.mnemonic, address := some s.dec.ctx.currentPc, value := none }
      { s with dec := { s.dec with initDone := true } })

/-- 44_semantic_dispatcher.md R148: a special mapping bypasses the generic table; DEC invokes the special handler with
the context, allocates nothing, and returns its disposition, whatever that is (log 9). Which template counts as returned
for the context is kept in the model's marks (`Dispatchable`, log 7). -/
def Obligations.DispatchSpecialHandler : Prop :=
  ∀ (k : Nat) (T : OpcodeTemplate) (map : MapId) (kind : SpecialKind) (s : State), Dispatchable s k T →
    mappingOf s.cfg T.mnemonic = some map → specialOf s.cfg map = some kind →
    ∃ disp x, exec (.dispatch k) s = .next
      { s with
        dec := { s.dec with initDone := true, status := .ok }
        port := { s.port with answer := { outcome := some .ok, info := .nothing, out := .disposition disp } }
        log := s.log ++ [.special kind s.dec.ctx]
        ghost := { s.ghost with free := x } }

/-- 44_semantic_dispatcher.md R150 to R153: the generic path. Exactly `arity` handles, made one by one in order of
position; the handler is invoked with them; the temporaries are released in the order they were allocated; nothing else
is touched. The disposition is the handler's, whatever that is (log 9); temporaries are fresh (log 8). Which template
counts as returned for the context is kept in the model's marks (`Dispatchable`, log 7). -/
def Obligations.DispatchGenericHandler : Prop :=
  ∀ (k : Nat) (T : OpcodeTemplate) (map : MapId) (e : HandlerEntry) (s : State), Dispatchable s k T →
    s.dec.liveTemps = [] →
    mappingOf s.cfg T.mnemonic = some map → specialOf s.cfg map = none → handlerOf s.cfg map = some e →
    (∀ p < e.arity, PositionReady s.cfg map s.dec.ctx.decoded p) →
    ∃ (args : List Handle) (calls : List Event) (disp : Disposition) (x : Nat),
      args.length = e.arity ∧ calls.length = e.arity ∧
      (∀ p h c, args[p]? = some h → calls[p]? = some c → Materialises s.cfg map s.dec.ctx.decoded p h c) ∧
      (temporaries args).Nodup ∧ (∀ n ∈ temporaries args, s.nextTemp ≤ n) ∧
      exec (.dispatch k) s = .next
        { s with
          dec := { s.dec with initDone := true, status := .ok, liveTemps := [] }
          port := { s.port with answer := { outcome := some .ok, info := .nothing, out := .disposition disp } }
          log := s.log ++ calls ++ [.handler e.handler s.dec.ctx args] ++ (temporaries args).map .release
          nextTemp := s.nextTemp + (temporaries args).length
          ghost := { s.ghost with free := x } }

/-- 44_semantic_dispatcher.md R150, 60_exceptions.md R163: at the lowest position with neither an operand nor a default,
the handles made so far are released and FATAL_NO_DEFAULT is taken. The numbers of the temporaries are the model's
(log 8), and which template counts as returned for the context is kept in its marks (`Dispatchable`, log 7). -/
def Obligations.DispatchWithoutDefault : Prop :=
  ∀ (k p : Nat) (T : OpcodeTemplate) (map : MapId) (e : HandlerEntry) (s : State), Dispatchable s k T →
    s.dec.liveTemps = [] →
    mappingOf s.cfg T.mnemonic = some map → specialOf s.cfg map = none → handlerOf s.cfg map = some e →
    p < e.arity → (∀ q < p, PositionReady s.cfg map s.dec.ctx.decoded q) →
    s.dec.ctx.decoded.nOps ≤ p → constOperand s.cfg map p = none →
    ∃ (args : List Handle) (calls : List Event) (x : Nat),
      args.length = p ∧ calls.length = p ∧
      (∀ q h c, args[q]? = some h → calls[q]? = some c → Materialises s.cfg map s.dec.ctx.decoded q h c) ∧
      exec (.dispatch k) s = .next (fatalTaken .fatalNoDefault (.positionAt T.mnemonic p s.dec.ctx.currentPc)
        (calls ++ (temporaries args).map .release)
        { kind := .fatalConfiguration, mnemonic := some T.mnemonic, address := some s.dec.ctx.currentPc,
          value := some p }
        { s with dec := { s.dec with initDone := true }, nextTemp := x })

/-- 44_semantic_dispatcher.md R145, R151, 10_state.md R43, R21, 70_reset_and_hazards.md R174 (5), R179, 93 U4, U15: what
DISPATCH gives no meaning to. The last clause says it of every run: after an operation that writes `ctx`, be it a
FIND_FORMAT that found a template, a decode miss, an abort or a RESET, DISPATCH of `k` is refused unless that operation was
a READ_AND_DECODE that returned `k`. Which template counts as returned, and the order of the two refusals, are kept by the
model (log 7); that DISPATCH is refused for a breach in any table is its reading (log 14). -/
def Obligations.DispatchRefusals : Prop :=
  ∀ (k : Nat) (s : State), s.dec.halted = false →
    (s.ghost.ctxWritten = false → exec (.dispatch k) s = .refused .unwrittenContext) ∧
    (s.ghost.ctxWritten = true → s.ghost.armed ≠ some k → exec (.dispatch k) s = .refused .staleTemplate) ∧
    (s.ghost.ctxWritten = true → s.ghost.armed = some k → tablesWf s.cfg = false →
      exec (.dispatch k) s = .refused .illFormedTables) ∧
    (s.ghost.ctxWritten = true → s.ghost.armed = some k → tablesWf s.cfg = true → s.cfg.tOpcodes.length ≤ k →
      exec (.dispatch k) s = .refused .staleTemplate) ∧
    (∀ T map e p o, Dispatchable s k T → mappingOf s.cfg T.mnemonic = some map → specialOf s.cfg map = none →
      handlerOf s.cfg map = some e → p < e.arity → (∀ q < p, PositionReady s.cfg map s.dec.ctx.decoded q) →
      s.dec.ctx.decoded.operands[p]? = some o → o.type.reg = true →
      (o.value.toInt < 0 ∨ s.cfg.numRegs ≤ o.value.toInt) →
      exec (.dispatch k) s = .refused .registerOutsideFile) ∧
    (∀ i t, writesContext i = true → exec i s = .next t → t.dec.halted = false → t.port.answer.out ≠ .decoded k →
      exec (.dispatch k) t = .refused .unwrittenContext ∨ exec (.dispatch k) t = .refused .staleTemplate)

/-- 10_state.md R30, 70_reset_and_hazards.md R181, 60_exceptions.md R162: with the opcode and semantic tables in step,
no dispatch ends FATAL_NO_MAPPING or FATAL_NO_HANDLER. -/
def Obligations.TablesInStepNeverSkewed : Prop :=
  ∀ (k : Nat) (s t : State), s.dec.halted = false → TablesInStep s.cfg → exec (.dispatch k) s = .next t →
    t.dec.status ≠ .fatalNoMapping ∧ t.dec.status ≠ .fatalNoHandler

/-- 44_semantic_dispatcher.md R154: the target is `aligned_pc + offset` modulo 2^32, the offset a signed i64. -/
def Obligations.PcRelativeTargetWraps : Prop :=
  ∀ (ctx : Context) (offset : I64),
    ((pcRelativeTarget ctx offset).toNat : Int) = (ctx.alignedPc.toNat + offset.toInt) % 2 ^ 32

/-! ### RESET, the reserved codes, HALTED -/

/-- 70_reset_and_hazards.md R173: RESET is accepted in every state and sets these elements; what it leaves unspecified
may be anything. The parameters, the accessor, the trace are no state of DEC and stay. Those are free values (log 4),
and the model's own marks are cleared (log 7). -/
def Obligations.ResetFromEveryState : Prop :=
  ∀ s : State, ∃ pc next aligned v x, exec .reset s = .next
    { s with
      dec :=
        { ctx := { currentPc := pc, nextPc := next, alignedPc := aligned, decoded := {}, cpuVariant := v }
          initDone := false, halted := false, status := .ok, liveTemps := [] }
      port := { s.port with answer := { outcome := some .ok, info := .nothing, out := .nothing } }
      ghost := { armed := none, ctxWritten := false, free := x } }

/-- 10_state.md R42: the values right after reset that the spec states, and BIG_ENDIAN false for this hardware (R5). -/
def Obligations.ResetStateValues : Prop :=
  State.reset.dec.ctx.decoded =
      { operands := [], cc := 0, aa := 0, zz := 0, d := false, f := false, di := false, x := false,
        limmP := false, limm := 0, len := 0, cls := .classNone } ∧
    State.reset.dec.ctx.decoded.nOps = 0 ∧
    State.reset.dec.initDone = false ∧ State.reset.dec.halted = false ∧ State.reset.dec.status = .ok ∧
    State.reset.dec.liveTemps = [] ∧ State.reset.cfg.bigEndian = false

/-- 60_exceptions.md R163 (ILLEGAL_OP), 30_encoding.md R88: a reserved code writes `status` and nothing else. -/
def Obligations.ReservedCodesAreIllegal : Prop :=
  ∀ s : State, s.dec.halted = false →
    exec .reserved110 s = .next { s with
      dec := { s.dec with status := .illegalOp }
      port := { s.port with answer := { outcome := some .illegalOp, info := .nothing, out := .nothing } } } ∧
    exec .reserved111 s = exec .reserved110 s

/-- 60_exceptions.md R164, R167: while halted, everything but RESET is answered HALTED and writes no state, `status`
included. That the encodings offered alone do so is the model's choice (log 10), and that READ_AND_DECODE leaves
`current_pc` and `cpu_variant` too: the host's write does not land while halted (log 18). -/
def Obligations.HaltedAnswersHalted : Prop :=
  ∀ (i : Instr) (s : State), s.dec.halted = true → i ≠ .reset →
    exec i s = .next { s with
      port := { s.port with answer := { outcome := some .halted, info := .nothing, out := .nothing } } }

/-- 60_exceptions.md R158: each of the eight commands that ends, ends with exactly one outcome code, returned and
written to `status`, except that HALTED is returned without being written. -/
def Obligations.EveryCommandReturnsItsStatus : Prop :=
  ∀ (i : Instr) (s t : State),
    (match i with
      | .classify _ _ | .findFormat _ _ _ | .readAndDecode _ _ | .dispatch _ | .extract _ _ | .reset
      | .reserved110 | .reserved111 => True
      | _ => False) →
    exec i s = .next t →
    ∃ c, t.port.answer.outcome = some c ∧ (c = .halted → t.dec.status = s.dec.status) ∧
      (c ≠ .halted → t.dec.status = c)

/-- 60_exceptions.md R164, R165: `halted` rises only with a fatal code, which stands in `status` with its diagnostic last
in the trace: of the kind R165 gives the code, and the only diagnostic the operation emits. -/
def Obligations.HaltedRisesOnlyWithDiagnostic : Prop :=
  ∀ (i : Instr) (s t : State), exec i s = .next t → s.dec.halted = false → t.dec.halted = true →
    2 ≤ t.dec.status.number ∧ t.dec.status.number ≤ 6 ∧ t.dec.liveTemps = [] ∧
      ∃ before d, t.log = s.log ++ before ++ [.diag d] ∧ (∀ e ∈ before, ∀ d', e ≠ .diag d') ∧
        d.kind = (match t.dec.status with
          | .fatalNoMapping => .noMapping
          | .fatalNoHandler => .unimplementedSemantic
          | _ => .fatalConfiguration)

/-! ### Frames -/

/-- Every operation but READ_AND_DECODE reads no memory and changes none (20_memory.md R45): not a byte, not what other
agents have scheduled; none writes a parameter (00_scope.md R5) or takes a command. -/
def Obligations.MemoryFrame : Prop :=
  ∀ (i : Instr) (s t : State), (∀ pc v, i ≠ .readAndDecode pc v) → exec i s = .next t →
    (∀ a, t.bus.byteAt a = s.bus.byteAt a) ∧ t.bus = s.bus ∧ t.cfg = s.cfg ∧ t.port.cmds = s.port.cmds

/-- CLASSIFY, EXTRACT, the reserved codes and every encoding offered alone (60_exceptions.md R168): the context, its
record and its flags, `init_done`, the backend's counter and the model's own fields are unchanged; the trace gains at
most a diagnostic; `live_temps` is unchanged or left empty. Which encodings are offered alone is the model's choice
(log 10). -/
def Obligations.AnswerOnlyFrame : Prop :=
  ∀ (i : Instr) (s t : State), onlyAnswers i = true → exec i s = .next t →
    t.dec.ctx = s.dec.ctx ∧ t.dec.initDone = s.dec.initDone ∧ t.nextTemp = s.nextTemp ∧ t.ghost = s.ghost ∧
      (t.log = s.log ∨ ∃ d, t.log = s.log ++ [.diag d]) ∧
      (t.dec.liveTemps = s.dec.liveTemps ∨ t.dec.liveTemps = [])

/-- FIND_FORMAT writes `ctx.decoded` and `status` only (42_format_matcher.md R114), beside the model's own mark (log 7). -/
def Obligations.FindFormatFrame : Prop :=
  ∀ (w : Word) (l : ByteLen) (m : VariantMask) (s t : State), exec (.findFormat w l m) s = .next t →
    t.dec.ctx.currentPc = s.dec.ctx.currentPc ∧ t.dec.ctx.nextPc = s.dec.ctx.nextPc ∧
      t.dec.ctx.alignedPc = s.dec.ctx.alignedPc ∧ t.dec.ctx.cpuVariant = s.dec.ctx.cpuVariant ∧
      t.dec.initDone = s.dec.initDone ∧ t.dec.halted = s.dec.halted ∧ t.dec.liveTemps = s.dec.liveTemps ∧
      t.log = s.log ∧ t.nextTemp = s.nextTemp ∧ t.ghost.ctxWritten = s.ghost.ctxWritten ∧ t.ghost.free = s.ghost.free

/-- READ_AND_DECODE (43_decode_entry.md R134, R143): DEC writes neither `current_pc` nor `cpu_variant` (10_state.md
R10), nor `init_done`; it allocates no temporary; the memory it read is unchanged where no other agent's change was
scheduled. That the two host fields are afterwards the operands presented is the model's choice (log 18), and that memory
changes by scheduled batches only is another (log 6). -/
def Obligations.ReadAndDecodeFrame : Prop :=
  ∀ (pc : Addr) (v : VariantMask) (s t : State), s.dec.halted = false → exec (.readAndDecode pc v) s = .next t →
    t.dec.ctx.currentPc = pc ∧ t.dec.ctx.cpuVariant = v ∧ t.dec.initDone = s.dec.initDone ∧
      (t.dec.liveTemps = s.dec.liveTemps ∨ t.dec.liveTemps = []) ∧ t.nextTemp = s.nextTemp ∧ t.cfg = s.cfg ∧
      t.port.cmds = s.port.cmds ∧
      (s.bus.edits = [] → t.bus = s.bus ∧ ∀ a, t.bus.byteAt a = s.bus.byteAt a)

/-- DISPATCH "does not write `ctx`" (44_semantic_dispatcher.md R145), and leaves `live_temps` empty if it was (R153). The
marks it leaves, so that one template may be dispatched again, are the model's (log 7). -/
def Obligations.DispatchFrame : Prop :=
  ∀ (k : Nat) (s t : State), exec (.dispatch k) s = .next t →
    t.dec.ctx = s.dec.ctx ∧ (s.dec.liveTemps = [] → t.dec.liveTemps = []) ∧
      (s.dec.halted = false → t.dec.initDone = true) ∧ t.ghost.armed = s.ghost.armed ∧
      t.ghost.ctxWritten = s.ghost.ctxWritten

/-! ### Every step -/

/-- The invariant of `Inv` holds right after reset, where the model has armed no template (log 7). -/
def Obligations.ResetMeetsInvariant : Prop := Inv State.reset

/-- Every step keeps the invariant, from every state that meets it. Its clauses on the armed template, that DISPATCH is
given a whole context and a record of its template, speak of the model's marks (log 7). -/
def Obligations.StepKeepsInvariant : Prop := ∀ s t : State, Inv s → step s = .next t → Inv t

/-- DEC has no write path (20_memory.md R45, R46) and writes no parameter (00_scope.md R5): after a step, memory is
what other agents' batches have made of it, at most three of them, one for each read issued; each read is in the
trace. The batches are the model's choice (log 6). -/
def Obligations.MemoryChangesOnlyByOthers : Prop :=
  ∀ s t : State, step s = .next t →
    t.cfg = s.cfg ∧
    ∃ reads : List Event, reads.length ≤ 3 ∧ t.bus = Accessor.arrive^[reads.length] s.bus ∧
      (∀ e ∈ reads, ∃ w a, e = .read w a) ∧
      ∃ after, t.log = s.log ++ reads ++ after ∧ ∀ e ∈ after, ∀ w a, e ≠ .read w a
end

