-- ==== Sys2Proof/Laws/Memory.lean ====
section
/-! SUPPORT. Memory keeps its canonical form, and a read after a change gives what the change says. -/

namespace Sys2Proof.Machine

theorem Memory.risingFrom_weaken {lo lo' : Nat} (h : lo' ≤ lo) : ∀ {m : Memory}, Memory.risingFrom lo m = true → Memory.risingFrom lo' m = true
  | [], _ => rfl
  | (k, _) :: m, hm => by
    simp only [Memory.risingFrom, Bool.and_eq_true, decide_eq_true_eq] at hm ⊢
    exact ⟨⟨h.trans hm.1.1, hm.1.2⟩, hm.2⟩

theorem Memory.risingFrom_put {a : Nat} {b : Byte} (ha : a < 2 ^ 32) :
    ∀ {m : Memory} {lo : Nat}, lo ≤ a → Memory.risingFrom lo m = true → Memory.risingFrom lo (Memory.put m a b) = true
  | [], lo, hlo, _ => by simpa [Memory.put, Memory.risingFrom, hlo] using ha
  | (k, c) :: m, lo, hlo, hm => by
    simp only [Memory.risingFrom, Bool.and_eq_true, decide_eq_true_eq] at hm
    obtain ⟨⟨h1, h2⟩, h3⟩ := hm
    unfold Memory.put
    split
    · rename_i hk
      simp only [Memory.risingFrom, Bool.and_eq_true, decide_eq_true_eq]
      exact ⟨⟨hlo, ha⟩, ⟨by omega, h2⟩, h3⟩
    · split
      · rename_i hk
        subst hk
        simp only [Memory.risingFrom, Bool.and_eq_true, decide_eq_true_eq]
        exact ⟨⟨h1, h2⟩, h3⟩
      · simp only [Memory.risingFrom, Bool.and_eq_true, decide_eq_true_eq]
        exact ⟨⟨h1, h2⟩, Memory.risingFrom_put ha (by omega) h3⟩

theorem Memory.risingFrom_drop {a : Nat} : ∀ {m : Memory} {lo : Nat}, Memory.risingFrom lo m = true → Memory.risingFrom lo (Memory.drop m a) = true
  | [], _, _ => rfl
  | (k, c) :: m, lo, hm => by
    simp only [Memory.risingFrom, Bool.and_eq_true, decide_eq_true_eq] at hm
    obtain ⟨⟨h1, h2⟩, h3⟩ := hm
    unfold Memory.drop
    split
    · exact Memory.risingFrom_weaken (by omega) h3
    · simp only [Memory.risingFrom, Bool.and_eq_true, decide_eq_true_eq]
      exact ⟨⟨h1, h2⟩, Memory.risingFrom_drop h3⟩

theorem Memory.wf_edit {m : Memory} (e : Edit) (h : Memory.wf m = true) : Memory.wf (Memory.edit m e) = true := by
  unfold Memory.edit
  split
  · exact Memory.risingFrom_put e.addr.isLt (Nat.zero_le _) h
  · exact Memory.risingFrom_drop h

theorem Memory.wf_edits (es : List Edit) : ∀ {m : Memory}, Memory.wf m = true → Memory.wf (es.foldl Memory.edit m) = true := by
  induction es with
  | nil => exact fun h => h
  | cons e es ih => exact fun h => ih (Memory.wf_edit e h)

/-- An address below every listed one is unlisted. -/
theorem Memory.get_below {a : Nat} : ∀ {m : Memory} {lo : Nat}, Memory.risingFrom lo m = true → a < lo → Memory.get m a = none
  | [], _, _, _ => rfl
  | (k, c) :: m, lo, hm, ha => by
    simp only [Memory.risingFrom, Bool.and_eq_true, decide_eq_true_eq] at hm
    have hk : k ≠ a := by omega
    simp only [Memory.get, if_neg hk]
    exact Memory.get_below hm.2 (by omega)

@[simp] theorem Memory.get_put_same (a : Nat) (b : Byte) : ∀ m : Memory, Memory.get (Memory.put m a b) a = some b
  | [] => by simp [Memory.put, Memory.get]
  | (k, c) :: m => by
    unfold Memory.put
    split
    · simp [Memory.get]
    · split
      · simp [Memory.get]
      · rename_i hk
        simp [Memory.get, hk, Memory.get_put_same a b m]

theorem Memory.get_put_other {a a' : Nat} (b : Byte) (h : a' ≠ a) : ∀ m : Memory, Memory.get (Memory.put m a b) a' = Memory.get m a'
  | [] => by simp [Memory.put, Memory.get, h.symm]
  | (k, c) :: m => by
    unfold Memory.put
    split
    · simp [Memory.get, h.symm]
    · split
      · rename_i hk
        subst hk
        simp [Memory.get, h.symm]
      · simp [Memory.get, Memory.get_put_other b h m]

theorem Memory.get_drop_other {a a' : Nat} (h : a' ≠ a) : ∀ m : Memory, Memory.get (Memory.drop m a) a' = Memory.get m a'
  | [] => rfl
  | (k, c) :: m => by
    unfold Memory.drop
    split
    · rename_i hk
      subst hk
      simp [Memory.get, h.symm]
    · simp [Memory.get, Memory.get_drop_other h m]

theorem Memory.get_drop_same {a : Nat} : ∀ {m : Memory} {lo : Nat}, Memory.risingFrom lo m = true → Memory.get (Memory.drop m a) a = none
  | [], _, _ => rfl
  | (k, c) :: m, lo, hm => by
    simp only [Memory.risingFrom, Bool.and_eq_true, decide_eq_true_eq] at hm
    unfold Memory.drop
    split
    · exact Memory.get_below hm.2 (by omega)
    · rename_i hk
      simp only [Memory.get, if_neg hk]
      exact Memory.get_drop_same hm.2

/-! ### The accessor -/

/-- With nothing scheduled by another agent, the accessor is as it was: a read changes nothing (20_memory.md R61). -/
@[simp] theorem Accessor.arrive_of_no_edits {b : Accessor} (h : b.edits = []) : b.arrive = b := by
  simp [Accessor.arrive, h]

theorem Accessor.arrive_wf {b : Accessor} (h : Memory.wf b.mem = true) : Memory.wf b.arrive.mem = true := by
  unfold Accessor.arrive
  split
  · exact h
  · exact Memory.wf_edits _ h

theorem reset_memory_wf : Memory.wf State.reset.bus.mem = true := rfl

end Sys2Proof.Machine
end

