-- ==== Sys2Proof/Laws/State.lean ====
section
/-! SUPPORT. For each shared update of the state, one lemma per field: what the update leaves there. A refusal or a
completion built from these (`raiseVariant`, `raiseLength`, `raiseNoMapping`, `raiseNoHandler`, `answerValue`) reduces to
them by its own unfolding lemma. -/

namespace Sys2Proof.Machine

/-! ### `issueRead` -/

@[simp] theorem issueRead_cfg (w : ReadWidth) (a : Addr) (s : State) : (issueRead w a s).cfg = s.cfg := rfl
@[simp] theorem issueRead_ctx (w : ReadWidth) (a : Addr) (s : State) : (issueRead w a s).dec.ctx = s.dec.ctx := rfl
@[simp] theorem issueRead_initDone (w : ReadWidth) (a : Addr) (s : State) :
    (issueRead w a s).dec.initDone = s.dec.initDone := rfl
@[simp] theorem issueRead_halted (w : ReadWidth) (a : Addr) (s : State) : (issueRead w a s).dec.halted = s.dec.halted := rfl
@[simp] theorem issueRead_status (w : ReadWidth) (a : Addr) (s : State) : (issueRead w a s).dec.status = s.dec.status := rfl
@[simp] theorem issueRead_liveTemps (w : ReadWidth) (a : Addr) (s : State) :
    (issueRead w a s).dec.liveTemps = s.dec.liveTemps := rfl
@[simp] theorem issueRead_bus (w : ReadWidth) (a : Addr) (s : State) : (issueRead w a s).bus = s.bus.arrive := rfl
@[simp] theorem issueRead_cmds (w : ReadWidth) (a : Addr) (s : State) : (issueRead w a s).port.cmds = s.port.cmds := rfl
@[simp] theorem issueRead_answer (w : ReadWidth) (a : Addr) (s : State) :
    (issueRead w a s).port.answer = s.port.answer := rfl
@[simp] theorem issueRead_log (w : ReadWidth) (a : Addr) (s : State) : (issueRead w a s).log = s.log ++ [.read w a] := rfl
@[simp] theorem issueRead_nextTemp (w : ReadWidth) (a : Addr) (s : State) : (issueRead w a s).nextTemp = s.nextTemp := rfl
@[simp] theorem issueRead_ghost (w : ReadWidth) (a : Addr) (s : State) : (issueRead w a s).ghost = s.ghost := rfl

/-! ### `answer` -/

@[simp] theorem answer_cfg (o : Option OutcomeCode) (i : OutcomeInfo) (r : Output) (s : State) :
    (answer o i r s).cfg = s.cfg := rfl
@[simp] theorem answer_ctx (o : Option OutcomeCode) (i : OutcomeInfo) (r : Output) (s : State) :
    (answer o i r s).dec.ctx = s.dec.ctx := rfl
@[simp] theorem answer_initDone (o : Option OutcomeCode) (i : OutcomeInfo) (r : Output) (s : State) :
    (answer o i r s).dec.initDone = s.dec.initDone := rfl
@[simp] theorem answer_halted (o : Option OutcomeCode) (i : OutcomeInfo) (r : Output) (s : State) :
    (answer o i r s).dec.halted = s.dec.halted := rfl
@[simp] theorem answer_status (o : Option OutcomeCode) (i : OutcomeInfo) (r : Output) (s : State) :
    (answer o i r s).dec.status = s.dec.status := rfl
@[simp] theorem answer_liveTemps (o : Option OutcomeCode) (i : OutcomeInfo) (r : Output) (s : State) :
    (answer o i r s).dec.liveTemps = s.dec.liveTemps := rfl
@[simp] theorem answer_bus (o : Option OutcomeCode) (i : OutcomeInfo) (r : Output) (s : State) :
    (answer o i r s).bus = s.bus := rfl
@[simp] theorem answer_cmds (o : Option OutcomeCode) (i : OutcomeInfo) (r : Output) (s : State) :
    (answer o i r s).port.cmds = s.port.cmds := rfl
@[simp] theorem answer_answer (o : Option OutcomeCode) (i : OutcomeInfo) (r : Output) (s : State) :
    (answer o i r s).port.answer = { outcome := o, info := i, out := r } := rfl
@[simp] theorem answer_log (o : Option OutcomeCode) (i : OutcomeInfo) (r : Output) (s : State) :
    (answer o i r s).log = s.log := rfl
@[simp] theorem answer_nextTemp (o : Option OutcomeCode) (i : OutcomeInfo) (r : Output) (s : State) :
    (answer o i r s).nextTemp = s.nextTemp := rfl
@[simp] theorem answer_ghost (o : Option OutcomeCode) (i : OutcomeInfo) (r : Output) (s : State) :
    (answer o i r s).ghost = s.ghost := rfl

/-! ### `complete` -/

@[simp] theorem complete_cfg (c : OutcomeCode) (i : OutcomeInfo) (r : Output) (s : State) :
    (complete c i r s).cfg = s.cfg := rfl
@[simp] theorem complete_ctx (c : OutcomeCode) (i : OutcomeInfo) (r : Output) (s : State) :
    (complete c i r s).dec.ctx = s.dec.ctx := rfl
@[simp] theorem complete_initDone (c : OutcomeCode) (i : OutcomeInfo) (r : Output) (s : State) :
    (complete c i r s).dec.initDone = s.dec.initDone := rfl
@[simp] theorem complete_halted (c : OutcomeCode) (i : OutcomeInfo) (r : Output) (s : State) :
    (complete c i r s).dec.halted = s.dec.halted := rfl
@[simp] theorem complete_status (c : OutcomeCode) (i : OutcomeInfo) (r : Output) (s : State) :
    (complete c i r s).dec.status = c := rfl
@[simp] theorem complete_liveTemps (c : OutcomeCode) (i : OutcomeInfo) (r : Output) (s : State) :
    (complete c i r s).dec.liveTemps = s.dec.liveTemps := rfl
@[simp] theorem complete_bus (c : OutcomeCode) (i : OutcomeInfo) (r : Output) (s : State) :
    (complete c i r s).bus = s.bus := rfl
@[simp] theorem complete_cmds (c : OutcomeCode) (i : OutcomeInfo) (r : Output) (s : State) :
    (complete c i r s).port.cmds = s.port.cmds := rfl
@[simp] theorem complete_answer (c : OutcomeCode) (i : OutcomeInfo) (r : Output) (s : State) :
    (complete c i r s).port.answer = { outcome := some c, info := i, out := r } := rfl
@[simp] theorem complete_log (c : OutcomeCode) (i : OutcomeInfo) (r : Output) (s : State) :
    (complete c i r s).log = s.log := rfl
@[simp] theorem complete_nextTemp (c : OutcomeCode) (i : OutcomeInfo) (r : Output) (s : State) :
    (complete c i r s).nextTemp = s.nextTemp := rfl
@[simp] theorem complete_ghost (c : OutcomeCode) (i : OutcomeInfo) (r : Output) (s : State) :
    (complete c i r s).ghost = s.ghost := rfl

/-! ### `raiseFatal` -/

@[simp] theorem raiseFatal_cfg (c : OutcomeCode) (i : OutcomeInfo) (d : Diag) (s : State) :
    (raiseFatal c i d s).cfg = s.cfg := rfl
@[simp] theorem raiseFatal_ctx (c : OutcomeCode) (i : OutcomeInfo) (d : Diag) (s : State) :
    (raiseFatal c i d s).dec.ctx = s.dec.ctx := rfl
@[simp] theorem raiseFatal_initDone (c : OutcomeCode) (i : OutcomeInfo) (d : Diag) (s : State) :
    (raiseFatal c i d s).dec.initDone = s.dec.initDone := rfl
@[simp] theorem raiseFatal_halted (c : OutcomeCode) (i : OutcomeInfo) (d : Diag) (s : State) :
    (raiseFatal c i d s).dec.halted = true := rfl
@[simp] theorem raiseFatal_status (c : OutcomeCode) (i : OutcomeInfo) (d : Diag) (s : State) :
    (raiseFatal c i d s).dec.status = c := rfl
@[simp] theorem raiseFatal_liveTemps (c : OutcomeCode) (i : OutcomeInfo) (d : Diag) (s : State) :
    (raiseFatal c i d s).dec.liveTemps = [] := rfl
@[simp] theorem raiseFatal_bus (c : OutcomeCode) (i : OutcomeInfo) (d : Diag) (s : State) :
    (raiseFatal c i d s).bus = s.bus := rfl
@[simp] theorem raiseFatal_cmds (c : OutcomeCode) (i : OutcomeInfo) (d : Diag) (s : State) :
    (raiseFatal c i d s).port.cmds = s.port.cmds := rfl
@[simp] theorem raiseFatal_answer (c : OutcomeCode) (i : OutcomeInfo) (d : Diag) (s : State) :
    (raiseFatal c i d s).port.answer = { outcome := some c, info := i, out := .nothing } := rfl
@[simp] theorem raiseFatal_log (c : OutcomeCode) (i : OutcomeInfo) (d : Diag) (s : State) :
    (raiseFatal c i d s).log = s.log ++ [.diag d] := rfl
@[simp] theorem raiseFatal_nextTemp (c : OutcomeCode) (i : OutcomeInfo) (d : Diag) (s : State) :
    (raiseFatal c i d s).nextTemp = s.nextTemp := rfl
@[simp] theorem raiseFatal_ghost (c : OutcomeCode) (i : OutcomeInfo) (d : Diag) (s : State) :
    (raiseFatal c i d s).ghost = s.ghost := rfl

/-! ### `answerHalted` -/

@[simp] theorem answerHalted_cfg (s : State) : (answerHalted s).cfg = s.cfg := rfl
@[simp] theorem answerHalted_ctx (s : State) : (answerHalted s).dec.ctx = s.dec.ctx := rfl
@[simp] theorem answerHalted_initDone (s : State) : (answerHalted s).dec.initDone = s.dec.initDone := rfl
@[simp] theorem answerHalted_halted (s : State) : (answerHalted s).dec.halted = s.dec.halted := rfl
@[simp] theorem answerHalted_status (s : State) : (answerHalted s).dec.status = s.dec.status := rfl
@[simp] theorem answerHalted_liveTemps (s : State) : (answerHalted s).dec.liveTemps = s.dec.liveTemps := rfl
@[simp] theorem answerHalted_bus (s : State) : (answerHalted s).bus = s.bus := rfl
@[simp] theorem answerHalted_cmds (s : State) : (answerHalted s).port.cmds = s.port.cmds := rfl
@[simp] theorem answerHalted_answer (s : State) :
    (answerHalted s).port.answer = { outcome := some .halted, info := .nothing, out := .nothing } := rfl
@[simp] theorem answerHalted_log (s : State) : (answerHalted s).log = s.log := rfl
@[simp] theorem answerHalted_nextTemp (s : State) : (answerHalted s).nextTemp = s.nextTemp := rfl
@[simp] theorem answerHalted_ghost (s : State) : (answerHalted s).ghost = s.ghost := rfl

/-! ### `leaveCommands` -/

@[simp] theorem leaveCommands_cfg (bs : List Byte) (s : State) : (leaveCommands bs s).cfg = s.cfg := rfl
@[simp] theorem leaveCommands_ctx (bs : List Byte) (s : State) : (leaveCommands bs s).dec.ctx = s.dec.ctx := rfl
@[simp] theorem leaveCommands_initDone (bs : List Byte) (s : State) :
    (leaveCommands bs s).dec.initDone = s.dec.initDone := rfl
@[simp] theorem leaveCommands_halted (bs : List Byte) (s : State) : (leaveCommands bs s).dec.halted = s.dec.halted := rfl
@[simp] theorem leaveCommands_status (bs : List Byte) (s : State) : (leaveCommands bs s).dec.status = s.dec.status := rfl
@[simp] theorem leaveCommands_liveTemps (bs : List Byte) (s : State) :
    (leaveCommands bs s).dec.liveTemps = s.dec.liveTemps := rfl
@[simp] theorem leaveCommands_bus (bs : List Byte) (s : State) : (leaveCommands bs s).bus = s.bus := rfl
@[simp] theorem leaveCommands_cmds (bs : List Byte) (s : State) : (leaveCommands bs s).port.cmds = bs := rfl
@[simp] theorem leaveCommands_answer (bs : List Byte) (s : State) : (leaveCommands bs s).port.answer = s.port.answer := rfl
@[simp] theorem leaveCommands_log (bs : List Byte) (s : State) : (leaveCommands bs s).log = s.log := rfl
@[simp] theorem leaveCommands_nextTemp (bs : List Byte) (s : State) : (leaveCommands bs s).nextTemp = s.nextTemp := rfl
@[simp] theorem leaveCommands_ghost (bs : List Byte) (s : State) : (leaveCommands bs s).ghost = s.ghost := rfl

/-! ### `resetDec` -/

@[simp] theorem resetDec_cfg (s : State) : (resetDec s).cfg = s.cfg := rfl
@[simp] theorem resetDec_initDone (s : State) : (resetDec s).dec.initDone = false := rfl
@[simp] theorem resetDec_halted (s : State) : (resetDec s).dec.halted = false := rfl
@[simp] theorem resetDec_status (s : State) : (resetDec s).dec.status = .ok := rfl
@[simp] theorem resetDec_liveTemps (s : State) : (resetDec s).dec.liveTemps = [] := rfl
@[simp] theorem resetDec_bus (s : State) : (resetDec s).bus = s.bus := rfl
@[simp] theorem resetDec_cmds (s : State) : (resetDec s).port.cmds = s.port.cmds := rfl
@[simp] theorem resetDec_answer (s : State) : (resetDec s).port.answer = s.port.answer := rfl
@[simp] theorem resetDec_log (s : State) : (resetDec s).log = s.log := rfl
@[simp] theorem resetDec_nextTemp (s : State) : (resetDec s).nextTemp = s.nextTemp := rfl
@[simp] theorem resetDec_ghost (s : State) :
    (resetDec s).ghost = { armed := none, ctxWritten := false, free := s.ghost.free + 4 } := rfl

/-! ### `acceptRecord` -/

@[simp] theorem acceptRecord_cfg (c : DecodedInsn) (s : State) : (acceptRecord c s).cfg = s.cfg := rfl
@[simp] theorem acceptRecord_ctx (c : DecodedInsn) (s : State) :
    (acceptRecord c s).dec.ctx = { s.dec.ctx with decoded := c } := rfl
@[simp] theorem acceptRecord_initDone (c : DecodedInsn) (s : State) :
    (acceptRecord c s).dec.initDone = s.dec.initDone := rfl
@[simp] theorem acceptRecord_halted (c : DecodedInsn) (s : State) :
    (acceptRecord c s).dec.halted = s.dec.halted := rfl
@[simp] theorem acceptRecord_status (c : DecodedInsn) (s : State) :
    (acceptRecord c s).dec.status = s.dec.status := rfl
@[simp] theorem acceptRecord_liveTemps (c : DecodedInsn) (s : State) :
    (acceptRecord c s).dec.liveTemps = s.dec.liveTemps := rfl
@[simp] theorem acceptRecord_bus (c : DecodedInsn) (s : State) : (acceptRecord c s).bus = s.bus := rfl
@[simp] theorem acceptRecord_cmds (c : DecodedInsn) (s : State) :
    (acceptRecord c s).port.cmds = s.port.cmds := rfl
@[simp] theorem acceptRecord_answer (c : DecodedInsn) (s : State) :
    (acceptRecord c s).port.answer = s.port.answer := rfl
@[simp] theorem acceptRecord_log (c : DecodedInsn) (s : State) : (acceptRecord c s).log = s.log := rfl
@[simp] theorem acceptRecord_nextTemp (c : DecodedInsn) (s : State) :
    (acceptRecord c s).nextTemp = s.nextTemp := rfl
@[simp] theorem acceptRecord_ghost (c : DecodedInsn) (s : State) :
    (acceptRecord c s).ghost = { s.ghost with armed := none } := rfl

/-! ### `clearDecoded` -/

@[simp] theorem clearDecoded_cfg (s : State) : (clearDecoded s).cfg = s.cfg := rfl
@[simp] theorem clearDecoded_ctx (s : State) :
    (clearDecoded s).dec.ctx = { s.dec.ctx with decoded := DecodedInsn.zero } := rfl
@[simp] theorem clearDecoded_initDone (s : State) : (clearDecoded s).dec.initDone = s.dec.initDone := rfl
@[simp] theorem clearDecoded_halted (s : State) : (clearDecoded s).dec.halted = s.dec.halted := rfl
@[simp] theorem clearDecoded_status (s : State) : (clearDecoded s).dec.status = s.dec.status := rfl
@[simp] theorem clearDecoded_liveTemps (s : State) : (clearDecoded s).dec.liveTemps = s.dec.liveTemps := rfl
@[simp] theorem clearDecoded_bus (s : State) : (clearDecoded s).bus = s.bus := rfl
@[simp] theorem clearDecoded_cmds (s : State) : (clearDecoded s).port.cmds = s.port.cmds := rfl
@[simp] theorem clearDecoded_answer (s : State) : (clearDecoded s).port.answer = s.port.answer := rfl
@[simp] theorem clearDecoded_log (s : State) : (clearDecoded s).log = s.log := rfl
@[simp] theorem clearDecoded_nextTemp (s : State) : (clearDecoded s).nextTemp = s.nextTemp := rfl
@[simp] theorem clearDecoded_ghost (s : State) : (clearDecoded s).ghost = { s.ghost with armed := none } := rfl

/-! ### `presentContext` -/

@[simp] theorem presentContext_cfg (pc : Addr) (v : VariantMask) (s : State) : (presentContext pc v s).cfg = s.cfg := rfl
@[simp] theorem presentContext_ctx (pc : Addr) (v : VariantMask) (s : State) :
    (presentContext pc v s).dec.ctx = { s.dec.ctx with currentPc := pc, cpuVariant := v } := rfl
@[simp] theorem presentContext_initDone (pc : Addr) (v : VariantMask) (s : State) :
    (presentContext pc v s).dec.initDone = s.dec.initDone := rfl
@[simp] theorem presentContext_halted (pc : Addr) (v : VariantMask) (s : State) :
    (presentContext pc v s).dec.halted = s.dec.halted := rfl
@[simp] theorem presentContext_status (pc : Addr) (v : VariantMask) (s : State) :
    (presentContext pc v s).dec.status = s.dec.status := rfl
@[simp] theorem presentContext_liveTemps (pc : Addr) (v : VariantMask) (s : State) :
    (presentContext pc v s).dec.liveTemps = s.dec.liveTemps := rfl
@[simp] theorem presentContext_bus (pc : Addr) (v : VariantMask) (s : State) : (presentContext pc v s).bus = s.bus := rfl
@[simp] theorem presentContext_cmds (pc : Addr) (v : VariantMask) (s : State) :
    (presentContext pc v s).port.cmds = s.port.cmds := rfl
@[simp] theorem presentContext_answer (pc : Addr) (v : VariantMask) (s : State) :
    (presentContext pc v s).port.answer = s.port.answer := rfl
@[simp] theorem presentContext_log (pc : Addr) (v : VariantMask) (s : State) : (presentContext pc v s).log = s.log := rfl
@[simp] theorem presentContext_nextTemp (pc : Addr) (v : VariantMask) (s : State) :
    (presentContext pc v s).nextTemp = s.nextTemp := rfl
@[simp] theorem presentContext_ghost (pc : Addr) (v : VariantMask) (s : State) :
    (presentContext pc v s).ghost = { s.ghost with armed := none } := rfl

/-! ### `abortDecode` -/

@[simp] theorem abortDecode_cfg (a : Addr) (s : State) : (abortDecode a s).cfg = s.cfg := rfl
@[simp] theorem abortDecode_ctx (a : Addr) (s : State) :
    (abortDecode a s).dec.ctx = { s.dec.ctx with decoded := freeRecord s.cfg s.ghost.free, nextPc := Config.freeAddr (s.ghost.free + 1), alignedPc := Config.freeAddr (s.ghost.free + 2) } := rfl
@[simp] theorem abortDecode_initDone (a : Addr) (s : State) : (abortDecode a s).dec.initDone = s.dec.initDone := rfl
@[simp] theorem abortDecode_halted (a : Addr) (s : State) : (abortDecode a s).dec.halted = s.dec.halted := rfl
@[simp] theorem abortDecode_status (a : Addr) (s : State) : (abortDecode a s).dec.status = .aborted := rfl
@[simp] theorem abortDecode_liveTemps (a : Addr) (s : State) : (abortDecode a s).dec.liveTemps = s.dec.liveTemps := rfl
@[simp] theorem abortDecode_bus (a : Addr) (s : State) : (abortDecode a s).bus = s.bus := rfl
@[simp] theorem abortDecode_cmds (a : Addr) (s : State) : (abortDecode a s).port.cmds = s.port.cmds := rfl
@[simp] theorem abortDecode_answer (a : Addr) (s : State) :
    (abortDecode a s).port.answer = { outcome := some .aborted, info := .address a, out := .nothing } := rfl
@[simp] theorem abortDecode_log (a : Addr) (s : State) : (abortDecode a s).log = s.log := rfl
@[simp] theorem abortDecode_nextTemp (a : Addr) (s : State) : (abortDecode a s).nextTemp = s.nextTemp := rfl
@[simp] theorem abortDecode_ghost (a : Addr) (s : State) :
    (abortDecode a s).ghost = { armed := none, ctxWritten := false, free := s.ghost.free + 3 } := rfl

/-! ### `finishDecode` -/

@[simp] theorem finishDecode_cfg (t : Nat) (c : DecodedInsn) (l : I32) (n : Nat) (s : State) :
    (finishDecode t c l n s).cfg = s.cfg := rfl
@[simp] theorem finishDecode_ctx (t : Nat) (c : DecodedInsn) (l : I32) (n : Nat) (s : State) :
    (finishDecode t c l n s).dec.ctx = { s.dec.ctx with decoded := { c with limm := l, len := BitVec.ofNat 8 n }, nextPc := s.dec.ctx.currentPc + BitVec.ofNat 32 n, alignedPc := s.dec.ctx.currentPc &&& ~~~(0x3 : Addr) } := rfl
@[simp] theorem finishDecode_initDone (t : Nat) (c : DecodedInsn) (l : I32) (n : Nat) (s : State) :
    (finishDecode t c l n s).dec.initDone = s.dec.initDone := rfl
@[simp] theorem finishDecode_halted (t : Nat) (c : DecodedInsn) (l : I32) (n : Nat) (s : State) :
    (finishDecode t c l n s).dec.halted = s.dec.halted := rfl
@[simp] theorem finishDecode_status (t : Nat) (c : DecodedInsn) (l : I32) (n : Nat) (s : State) :
    (finishDecode t c l n s).dec.status = .ok := rfl
@[simp] theorem finishDecode_liveTemps (t : Nat) (c : DecodedInsn) (l : I32) (n : Nat) (s : State) :
    (finishDecode t c l n s).dec.liveTemps = s.dec.liveTemps := rfl
@[simp] theorem finishDecode_bus (t : Nat) (c : DecodedInsn) (l : I32) (n : Nat) (s : State) :
    (finishDecode t c l n s).bus = s.bus := rfl
@[simp] theorem finishDecode_cmds (t : Nat) (c : DecodedInsn) (l : I32) (n : Nat) (s : State) :
    (finishDecode t c l n s).port.cmds = s.port.cmds := rfl
@[simp] theorem finishDecode_answer (t : Nat) (c : DecodedInsn) (l : I32) (n : Nat) (s : State) :
    (finishDecode t c l n s).port.answer = { outcome := some .ok, info := .nothing, out := .decoded t } := rfl
@[simp] theorem finishDecode_log (t : Nat) (c : DecodedInsn) (l : I32) (n : Nat) (s : State) :
    (finishDecode t c l n s).log = s.log := rfl
@[simp] theorem finishDecode_nextTemp (t : Nat) (c : DecodedInsn) (l : I32) (n : Nat) (s : State) :
    (finishDecode t c l n s).nextTemp = s.nextTemp := rfl
@[simp] theorem finishDecode_ghost (t : Nat) (c : DecodedInsn) (l : I32) (n : Nat) (s : State) :
    (finishDecode t c l n s).ghost = { s.ghost with armed := some t, ctxWritten := true } := rfl

/-! ### `initialise` -/

@[simp] theorem initialise_cfg (s : State) : (initialise s).cfg = s.cfg := rfl
@[simp] theorem initialise_ctx (s : State) : (initialise s).dec.ctx = s.dec.ctx := rfl
@[simp] theorem initialise_initDone (s : State) : (initialise s).dec.initDone = true := rfl
@[simp] theorem initialise_halted (s : State) : (initialise s).dec.halted = s.dec.halted := rfl
@[simp] theorem initialise_status (s : State) : (initialise s).dec.status = s.dec.status := rfl
@[simp] theorem initialise_liveTemps (s : State) : (initialise s).dec.liveTemps = s.dec.liveTemps := rfl
@[simp] theorem initialise_bus (s : State) : (initialise s).bus = s.bus := rfl
@[simp] theorem initialise_cmds (s : State) : (initialise s).port.cmds = s.port.cmds := rfl
@[simp] theorem initialise_answer (s : State) : (initialise s).port.answer = s.port.answer := rfl
@[simp] theorem initialise_log (s : State) : (initialise s).log = s.log := rfl
@[simp] theorem initialise_nextTemp (s : State) : (initialise s).nextTemp = s.nextTemp := rfl
@[simp] theorem initialise_ghost (s : State) : (initialise s).ghost = s.ghost := rfl

/-! ### `invokeHandler` -/

@[simp] theorem invokeHandler_cfg (h : String) (m : Materialised) (s : State) : (invokeHandler h m s).cfg = s.cfg := rfl
@[simp] theorem invokeHandler_ctx (h : String) (m : Materialised) (s : State) :
    (invokeHandler h m s).dec.ctx = s.dec.ctx := rfl
@[simp] theorem invokeHandler_initDone (h : String) (m : Materialised) (s : State) :
    (invokeHandler h m s).dec.initDone = s.dec.initDone := rfl
@[simp] theorem invokeHandler_halted (h : String) (m : Materialised) (s : State) :
    (invokeHandler h m s).dec.halted = s.dec.halted := rfl
@[simp] theorem invokeHandler_status (h : String) (m : Materialised) (s : State) :
    (invokeHandler h m s).dec.status = .ok := rfl
@[simp] theorem invokeHandler_liveTemps (h : String) (m : Materialised) (s : State) :
    (invokeHandler h m s).dec.liveTemps = [] := rfl
@[simp] theorem invokeHandler_bus (h : String) (m : Materialised) (s : State) : (invokeHandler h m s).bus = s.bus := rfl
@[simp] theorem invokeHandler_cmds (h : String) (m : Materialised) (s : State) :
    (invokeHandler h m s).port.cmds = s.port.cmds := rfl
@[simp] theorem invokeHandler_answer (h : String) (m : Materialised) (s : State) :
    (invokeHandler h m s).port.answer = { outcome := some .ok, info := .nothing, out := .disposition (Config.handlerDisposition s.ghost.free h s.dec.ctx m.handles) } := rfl
@[simp] theorem invokeHandler_log (h : String) (m : Materialised) (s : State) :
    (invokeHandler h m s).log = s.log ++ m.calls ++ [.handler h s.dec.ctx m.handles] ++ m.live.map .release := rfl
@[simp] theorem invokeHandler_nextTemp (h : String) (m : Materialised) (s : State) :
    (invokeHandler h m s).nextTemp = m.nextTemp := rfl
@[simp] theorem invokeHandler_ghost (h : String) (m : Materialised) (s : State) :
    (invokeHandler h m s).ghost = { s.ghost with free := s.ghost.free + 1 } := rfl

/-! ### `invokeSpecial` -/

@[simp] theorem invokeSpecial_cfg (k : SpecialKind) (s : State) : (invokeSpecial k s).cfg = s.cfg := rfl
@[simp] theorem invokeSpecial_ctx (k : SpecialKind) (s : State) : (invokeSpecial k s).dec.ctx = s.dec.ctx := rfl
@[simp] theorem invokeSpecial_initDone (k : SpecialKind) (s : State) :
    (invokeSpecial k s).dec.initDone = s.dec.initDone := rfl
@[simp] theorem invokeSpecial_halted (k : SpecialKind) (s : State) : (invokeSpecial k s).dec.halted = s.dec.halted := rfl
@[simp] theorem invokeSpecial_status (k : SpecialKind) (s : State) : (invokeSpecial k s).dec.status = .ok := rfl
@[simp] theorem invokeSpecial_liveTemps (k : SpecialKind) (s : State) :
    (invokeSpecial k s).dec.liveTemps = s.dec.liveTemps := rfl
@[simp] theorem invokeSpecial_bus (k : SpecialKind) (s : State) : (invokeSpecial k s).bus = s.bus := rfl
@[simp] theorem invokeSpecial_cmds (k : SpecialKind) (s : State) : (invokeSpecial k s).port.cmds = s.port.cmds := rfl
@[simp] theorem invokeSpecial_answer (k : SpecialKind) (s : State) :
    (invokeSpecial k s).port.answer = { outcome := some .ok, info := .nothing, out := .disposition (Config.specialDisposition s.ghost.free k s.dec.ctx) } := rfl
@[simp] theorem invokeSpecial_log (k : SpecialKind) (s : State) :
    (invokeSpecial k s).log = s.log ++ [.special k s.dec.ctx] := rfl
@[simp] theorem invokeSpecial_nextTemp (k : SpecialKind) (s : State) : (invokeSpecial k s).nextTemp = s.nextTemp := rfl
@[simp] theorem invokeSpecial_ghost (k : SpecialKind) (s : State) :
    (invokeSpecial k s).ghost = { s.ghost with free := s.ghost.free + 1 } := rfl

/-! ### `resetDec`: the record of the context it leaves -/

@[simp] theorem resetDec_decoded (s : State) : (resetDec s).dec.ctx.decoded = DecodedInsn.zero := rfl

/-! ### The completions built from them -/

theorem raiseVariant_eq (v : VariantMask) (s : State) :
    raiseVariant v s = raiseFatal .fatalVariant (.variant v)
      { kind := .fatalConfiguration, mnemonic := none, address := none, value := some v.toNat } s := rfl

theorem raiseLength_eq (l : ByteLen) (s : State) :
    raiseLength l s = raiseFatal .fatalLength (.lengthAt l s.dec.ctx.currentPc)
      { kind := .fatalConfiguration, mnemonic := none, address := some s.dec.ctx.currentPc, value := some l.bytes } s :=
  rfl

theorem raiseNoMapping_eq (mn : String) (s : State) :
    raiseNoMapping mn s = raiseFatal .fatalNoMapping (.mnemonicAt mn s.dec.ctx.currentPc)
      { kind := .noMapping, mnemonic := some mn, address := some s.dec.ctx.currentPc, value := none } s := rfl

theorem raiseNoHandler_eq (mn : String) (s : State) :
    raiseNoHandler mn s = raiseFatal .fatalNoHandler (.mnemonicAt mn s.dec.ctx.currentPc)
      { kind := .unimplementedSemantic, mnemonic := some mn, address := some s.dec.ctx.currentPc, value := none } s := rfl

theorem raiseNoDefault_eq (mn : String) (p : Nat) (m : Materialised) (s : State) :
    raiseNoDefault mn p m s = raiseFatal .fatalNoDefault (.positionAt mn p s.dec.ctx.currentPc)
      { kind := .fatalConfiguration, mnemonic := some mn, address := some s.dec.ctx.currentPc, value := some p }
      { s with log := s.log ++ m.calls ++ m.live.map .release, nextTemp := m.nextTemp } := rfl

theorem answerValue_eq (r : I64 × Bool) (s : State) :
    answerValue r s = complete .ok .nothing (.value r.1 r.2) s := rfl

end Sys2Proof.Machine
end

