-- ==== Sys2Proof/Laws/Ops.lean ====
section
/-! SUPPORT. For each shared operation, once, everything it can do. -/

namespace Sys2Proof.Machine

/-! ### Guards -/

theorem unlessHalted_of_halted {s : State} (h : s.dec.halted = true) (r : Result) :
    unlessHalted s r = .next (answerHalted s) := by simp [unlessHalted, h]

@[simp] theorem unlessHalted_of_running {s : State} (h : s.dec.halted = false) (r : Result) : unlessHalted s r = r := by
  simp [unlessHalted, h]

theorem unlessHalted_next {s t : State} {r : Result} (h : unlessHalted s r = .next t) :
    (s.dec.halted = true ∧ t = answerHalted s) ∨ (s.dec.halted = false ∧ r = .next t) := by
  unfold unlessHalted at h
  split at h
  · exact .inl ⟨‹_›, by simpa using h.symm⟩
  · exact .inr ⟨by simpa using ‹¬s.dec.halted = true›, h⟩

/-! ### CLASSIFY -/

theorem classifyUnit_next {u0 : InsnUnit} {v : VariantMask} {s t : State} (h : classifyUnit u0 v s = .next t) :
    (s.dec.halted = true ∧ t = answerHalted s) ∨
      s.dec.halted = false ∧
        ((∃ l, classifyLength s.cfg u0 v = some l ∧ t = complete .ok .nothing (.length l) s) ∨
          classifyLength s.cfg u0 v = none ∧ t = raiseVariant v s) := by
  obtain hh | ⟨hh, h⟩ := unlessHalted_next h
  · exact .inl hh
  · refine .inr ⟨hh, ?_⟩
    split at h
    · exact .inl ⟨_, ‹_›, by simpa using h.symm⟩
    · exact .inr ⟨‹_›, by simpa using h.symm⟩

/-! ### EXTRACT -/

theorem execExtract_next {w : Word} {k : Nat} {s t : State} (h : execExtract w k s = .next t) :
    (s.dec.halted = true ∧ t = answerHalted s) ∨
      s.dec.halted = false ∧ ∃ d, s.cfg.tOperands[k]? = some d ∧ descriptorWf d = true ∧
        t = answerValue (extractWith s.cfg w d) s := by
  obtain hh | ⟨hh, h⟩ := unlessHalted_next h
  · exact .inl hh
  · refine .inr ⟨hh, ?_⟩
    split at h
    · cases h
    · split at h
      · exact ⟨_, ‹_›, ‹_›, by simpa using h.symm⟩
      · cases h

theorem shorthandCode_next {c : Nat} {s t : State} (h : shorthandCode c s = .next t) :
    (s.dec.halted = true ∧ t = answerHalted s) ∨
      s.dec.halted = false ∧ t = answerValue (BitVec.ofNat 64 (expandShorthand c), false) s := by
  obtain hh | ⟨hh, h⟩ := unlessHalted_next h
  · exact .inl hh
  · exact .inr ⟨hh, by simpa using h.symm⟩

/-! ### FIND_FORMAT -/

theorem execFindFormat_next {w : Word} {l : ByteLen} {m : VariantMask} {s t : State}
    (h : execFindFormat w l m s = .next t) :
    (s.dec.halted = true ∧ t = answerHalted s) ∨
      s.dec.halted = false ∧ tablesWf s.cfg = true ∧
        ((∃ k c, findFormat s.cfg w l m = some (k, c) ∧ t = complete .ok .nothing (.found k) (acceptRecord c s)) ∨
          findFormat s.cfg w l m = none ∧ t = complete .decodeMiss .nothing .notFound (clearDecoded s)) := by
  obtain hh | ⟨hh, h⟩ := unlessHalted_next h
  · exact .inl hh
  · refine .inr ⟨hh, ?_⟩
    split at h
    · refine ⟨‹_›, ?_⟩
      split at h
      · exact .inl ⟨_, _, ‹_›, by simpa using h.symm⟩
      · exact .inr ⟨‹_›, by simpa using h.symm⟩
    · cases h

/-- What the scan returns is an entry of the table that survives, and every earlier entry does not. -/
theorem scanTemplates_some {P : Params} {w : Word} {l : ByteLen} {m : VariantMask} {t : Nat} {c : DecodedInsn} :
    ∀ {Ts : List OpcodeTemplate} {n : Nat}, scanTemplates P w l m Ts n = some (t, c) →
      ∃ k T, t = n + k ∧ Ts[k]? = some T ∧ tryTemplate P w l m T = some c ∧
        ∀ j T', j < k → Ts[j]? = some T' → tryTemplate P w l m T' = none
  | [], _, h => by simp [scanTemplates] at h
  | T :: Ts, n, h => by
    unfold scanTemplates at h
    split at h
    · rename_i c' hc
      simp only [Option.some.injEq, Prod.mk.injEq] at h
      obtain ⟨rfl, rfl⟩ := h
      exact ⟨0, T, rfl, rfl, hc, by omega⟩
    · rename_i hc
      obtain ⟨k, T₁, rfl, h1, h2, h3⟩ := scanTemplates_some h
      refine ⟨k + 1, T₁, by omega, by simpa using h1, h2, fun j T' hj hT' => ?_⟩
      cases j with
      | zero => simp only [List.getElem?_cons_zero, Option.some.injEq] at hT'; subst hT'; exact hc
      | succ j => exact h3 j T' (by omega) (by simpa using hT')

/-- The scan returns nothing exactly when no entry survives. -/
theorem scanTemplates_none {P : Params} {w : Word} {l : ByteLen} {m : VariantMask} :
    ∀ {Ts : List OpcodeTemplate} {n : Nat}, scanTemplates P w l m Ts n = none ↔ ∀ T ∈ Ts, tryTemplate P w l m T = none
  | [], _ => by simp [scanTemplates]
  | T :: Ts, n => by
    unfold scanTemplates
    split
    · rename_i c hc
      simp [hc]
    · rename_i hc
      simp [hc, scanTemplates_none]

/-! ### READ_AND_DECODE -/

theorem decodeWord_next {w : Word} {l : ByteLen} {s t : State} (h : decodeWord w l s = .next t) :
    tablesWf s.cfg = true ∧
      ((findFormat s.cfg w l s.dec.ctx.cpuVariant = none ∧ t = complete .decodeMiss .nothing .undecoded (clearDecoded s)) ∨
        ∃ k c, findFormat s.cfg w l s.dec.ctx.cpuVariant = some (k, c) ∧ t = decodeLimm k c l s) := by
  unfold decodeWord at h
  split at h
  · refine ⟨‹_›, ?_⟩
    split at h
    · exact .inl ⟨‹_›, by simpa using h.symm⟩
    · exact .inr ⟨_, _, ‹_›, by simpa using h.symm⟩
  · cases h

theorem decodeLimm_cases (k : Nat) (c : DecodedInsn) (l : ByteLen) (s : State) :
    let a := s.dec.ctx.currentPc + BitVec.ofNat 32 l.bytes
    (c.limmP = false ∧ decodeLimm k c l s = finishDecode k c 0 l.bytes s) ∨
      c.limmP = true ∧
        ((s.bus.arrive.wordAt s.cfg.bigEndian a = none ∧ decodeLimm k c l s = abortDecode a (issueRead .read32 a s)) ∨
          ∃ w, s.bus.arrive.wordAt s.cfg.bigEndian a = some w ∧
            decodeLimm k c l s =
              finishDecode k c (arrange s.cfg.bigEndian w) (l.bytes + 4) (issueRead .read32 a s)) := by
  intro a
  by_cases hc : c.limmP = true
  · refine .inr ⟨hc, ?_⟩
    cases hw : s.bus.arrive.wordAt s.cfg.bigEndian a with
    | none => exact .inl ⟨rfl, by simp only [decodeLimm, hc, if_true, issueRead_bus]; rw [hw]⟩
    | some w => exact .inr ⟨w, rfl, by simp only [decodeLimm, hc, if_true, issueRead_bus]; rw [hw]⟩
  · exact .inl ⟨by simpa using hc, by simp [decodeLimm, hc]⟩

theorem decodeFour_next {u0 : InsnUnit} {s t : State} (h : decodeFour u0 s = .next t) :
    let a := s.dec.ctx.currentPc + 2
    (s.bus.arrive.unitAt s.cfg.bigEndian a = none ∧ t = abortDecode a (issueRead .read16 a s)) ∨
      ∃ u1, s.bus.arrive.unitAt s.cfg.bigEndian a = some u1 ∧
        decodeWord ((highThenLow u0 u1).setWidth 64) .four (issueRead .read16 a s) = .next t := by
  intro a
  simp only [decodeFour] at h
  split at h
  · exact .inl ⟨‹_›, (Host.Outcome.next.inj h).symm⟩
  · exact .inr ⟨_, ‹_›, h⟩

theorem decodeUnit_next {u0 : InsnUnit} {s t : State} (h : decodeUnit u0 s = .next t) :
    (classifyLength s.cfg u0 s.dec.ctx.cpuVariant = none ∧ t = raiseVariant s.dec.ctx.cpuVariant s) ∨
      (classifyLength s.cfg u0 s.dec.ctx.cpuVariant = some .two ∧ decodeWord (u0.setWidth 64) .two s = .next t) ∨
      (classifyLength s.cfg u0 s.dec.ctx.cpuVariant = some .four ∧ decodeFour u0 s = .next t) ∨
      ∃ l, (l = .six ∨ l = .eight) ∧ classifyLength s.cfg u0 s.dec.ctx.cpuVariant = some l ∧ t = raiseLength l s := by
  unfold decodeUnit at h
  split at h
  · exact .inl ⟨‹_›, by simpa using h.symm⟩
  · exact .inr (.inl ⟨‹_›, h⟩)
  · exact .inr (.inr (.inl ⟨‹_›, h⟩))
  · exact .inr (.inr (.inr ⟨.six, .inl rfl, ‹_›, by simpa using h.symm⟩))
  · exact .inr (.inr (.inr ⟨.eight, .inr rfl, ‹_›, by simpa using h.symm⟩))

theorem decodeEntry_next {s t : State} (h : decodeEntry s = .next t) :
    let a := s.dec.ctx.currentPc
    (s.bus.arrive.unitAt s.cfg.bigEndian a = none ∧ t = abortDecode a (issueRead .read16 a s)) ∨
      ∃ u0, s.bus.arrive.unitAt s.cfg.bigEndian a = some u0 ∧ decodeUnit u0 (issueRead .read16 a s) = .next t := by
  intro a
  simp only [decodeEntry] at h
  split at h
  · exact .inl ⟨‹_›, (Host.Outcome.next.inj h).symm⟩
  · exact .inr ⟨_, ‹_›, h⟩

theorem execReadAndDecode_next {pc : Addr} {v : VariantMask} {s t : State} (h : execReadAndDecode pc v s = .next t) :
    (s.dec.halted = true ∧ t = answerHalted s) ∨
      s.dec.halted = false ∧ pc.getLsbD 0 = false ∧ decodeEntry (presentContext pc v s) = .next t := by
  obtain hh | ⟨hh, h⟩ := unlessHalted_next h
  · exact .inl hh
  · refine .inr ⟨hh, ?_⟩
    split at h
    · cases h
    · exact ⟨by simpa using ‹¬pc.getLsbD 0 = true›, h⟩

/-! ### DISPATCH -/

theorem dispatchGeneric_next {mn map : String} {e : HandlerEntry} {s t : State}
    (h : dispatchGeneric mn map e s = .next t) :
    (∃ m, materialise s.cfg map s.dec.ctx.decoded e.arity 0 (startMaterialised s) = .done m ∧
        t = invokeHandler e.handler m s) ∨
      ∃ p m, materialise s.cfg map s.dec.ctx.decoded e.arity 0 (startMaterialised s) = .missing p m ∧
        t = raiseNoDefault mn p m s := by
  unfold dispatchGeneric at h
  split at h
  · exact .inl ⟨_, ‹_›, by simpa using h.symm⟩
  · exact .inr ⟨_, _, ‹_›, by simpa using h.symm⟩
  · cases h

theorem dispatchMnemonic_next {mn : String} {s t : State} (h : dispatchMnemonic mn s = .next t) :
    (mappingOf s.cfg mn = none ∧ t = raiseNoMapping mn s) ∨
      ∃ map, mappingOf s.cfg mn = some map ∧
        ((∃ k, specialOf s.cfg map = some k ∧ t = invokeSpecial k s) ∨
          specialOf s.cfg map = none ∧
            ((handlerOf s.cfg map = none ∧ t = raiseNoHandler mn s) ∨
              ∃ e, handlerOf s.cfg map = some e ∧ dispatchGeneric mn map e s = .next t)) := by
  unfold dispatchMnemonic at h
  split at h
  · exact .inl ⟨‹_›, by simpa using h.symm⟩
  · refine .inr ⟨_, ‹_›, ?_⟩
    split at h
    · exact .inl ⟨_, ‹_›, by simpa using h.symm⟩
    · refine .inr ⟨‹_›, ?_⟩
      split at h
      · exact .inl ⟨‹_›, by simpa using h.symm⟩
      · exact .inr ⟨_, ‹_›, h⟩

theorem execDispatch_next {k : Nat} {s t : State} (h : execDispatch k s = .next t) :
    (s.dec.halted = true ∧ t = answerHalted s) ∨
      s.dec.halted = false ∧ s.ghost.ctxWritten = true ∧ s.ghost.armed = some k ∧ tablesWf s.cfg = true ∧
        ∃ T, s.cfg.tOpcodes[k]? = some T ∧ dispatchMnemonic T.mnemonic (initialise s) = .next t := by
  obtain hh | ⟨hh, h⟩ := unlessHalted_next h
  · exact .inl hh
  · refine .inr ⟨hh, ?_⟩
    split at h
    · cases h
    split at h
    · cases h
    split at h
    · cases h
    split at h
    · cases h
    · exact ⟨by simpa using ‹¬(!s.ghost.ctxWritten) = true›, by simpa using ‹¬s.ghost.armed ≠ some k›,
        by simpa using ‹¬(!tablesWf s.cfg) = true›, _, ‹_›, h⟩

/-! ### The matcher's inner tests, and the reserved codes -/

theorem deriveLength_next {m : Word} {s t : State} (h : deriveLength m s = .next t) :
    (s.dec.halted = true ∧ t = answerHalted s) ∨
      s.dec.halted = false ∧ t = answer none .nothing (.length (templateLength m)) s := by
  obtain hh | ⟨hh, h⟩ := unlessHalted_next h
  · exact .inl hh
  · exact .inr ⟨hh, by simpa using h.symm⟩

theorem testSentinel_next {l : ByteLen} {m : VariantMask} {v : I64} {s t : State} (h : testSentinel l m v s = .next t) :
    (s.dec.halted = true ∧ t = answerHalted s) ∨
      s.dec.halted = false ∧
        t = answer none .nothing (.rejected (sentinelConflict s.cfg l m { reg := true } v)) s := by
  obtain hh | ⟨hh, h⟩ := unlessHalted_next h
  · exact .inl hh
  · exact .inr ⟨hh, by simpa using h.symm⟩

theorem illegalOp_next {s t : State} (h : illegalOp s = .next t) :
    (s.dec.halted = true ∧ t = answerHalted s) ∨
      s.dec.halted = false ∧ t = complete .illegalOp .nothing .nothing s := by
  obtain hh | ⟨hh, h⟩ := unlessHalted_next h
  · exact .inl hh
  · exact .inr ⟨hh, by simpa using h.symm⟩

/-! ### Fetching -/

theorem nextCommand_of_decode {s : State} {i : Instr} {rest : List Byte} (h : decode s.port.cmds = .ok (i, rest)) :
    nextCommand s = .command i rest := by
  unfold nextCommand
  split
  · rename_i h0
    simp [h0, decode] at h
  · rename_i b bs h0
    rw [h0] at h
    simp [h]

end Sys2Proof.Machine
end

