-- ==== Sys2Proof/Laws/Classify.lean ====
section
/-! SUPPORT. The classifier in numbers: the major and minor opcodes, the two length rules, the rows of the length-class map
as ranges of the major opcode. -/

namespace Sys2Proof.Machine

theorem majorOpcode_toNat (u0 : InsnUnit) : (majorOpcode u0).toNat = u0.toNat / 2 ^ 11 := by
  have := u0.isLt
  simp only [majorOpcode, BitVec.extractLsb'_toNat, Nat.shiftRight_eq_div_pow]
  omega

theorem majorOpcode_eq_iff (u0 : InsnUnit) {k : Nat} (hk : k < 32) :
    majorOpcode u0 = BitVec.ofNat 5 k ↔ u0.toNat / 2 ^ 11 = k := by
  rw [← BitVec.toNat_inj, majorOpcode_toNat, BitVec.toNat_ofNat]
  omega

theorem majorOpcode_gt_iff (u0 : InsnUnit) {k : Nat} (hk : k < 32) :
    majorOpcode u0 > BitVec.ofNat 5 k ↔ u0.toNat / 2 ^ 11 > k := by
  rw [gt_iff_lt, BitVec.lt_def, majorOpcode_toNat, BitVec.toNat_ofNat]
  omega

theorem minorOpcode_eq (u0 : InsnUnit) : minorOpcode u0 = BitVec.ofNat 5 (u0.toNat % 2 ^ 5) := by
  apply BitVec.eq_of_toNat_eq
  simp [minorOpcode]

theorem currentLength_eq (u0 : InsnUnit) : currentLength u0 = if u0.toNat / 2 ^ 11 > 0x7 then .two else .four :=
  ite_congr (propext (majorOpcode_gt_iff u0 (k := 7) (by omega))) (fun _ => rfl) (fun _ => rfl)

theorem legacyLength_eq (P : Params) (u0 : InsnUnit) :
    legacyLength P u0 =
      match if u0.toNat / 2 ^ 11 = 0xb then extMinorLen P (BitVec.ofNat 5 (u0.toNat % 2 ^ 5)) else none with
      | some .six => .six
      | some .eight => .eight
      | none => if u0.toNat / 2 ^ 11 = 0xa then .eight else if u0.toNat / 2 ^ 11 > 0xb then .two else .four := by
  have h1 : (majorOpcode u0 > 0xb) = _ := propext (majorOpcode_gt_iff u0 (k := 0xb) (by omega))
  have h2 : (majorOpcode u0 = 0xb) = _ := propext (majorOpcode_eq_iff u0 (k := 0xb) (by omega))
  have h3 : (majorOpcode u0 = 0xa) = _ := propext (majorOpcode_eq_iff u0 (k := 0xa) (by omega))
  simp only [legacyLength, legacyTail, h1, h2, h3, ← minorOpcode_eq]
  by_cases hb : u0.toNat / 2 ^ 11 = 0xb
  · simp only [hb, if_true] <;>
      rcases extMinorLen P (minorOpcode u0) with _ | _ | _ <;> rfl
  · simp only [hb, if_false]

/-- CLASSIFY under a legacy variant. -/
theorem classifyUnit_legacy {u0 : InsnUnit} {v : VariantMask} {s : State} (hs : s.dec.halted = false)
    (hv : isLegacyVariant v = true) :
    classifyUnit u0 v s = .next (answeredOk (.length (legacyLength s.cfg u0)) s) := by
  have hl : v = VariantMask.a600 ∨ v = VariantMask.a700 := by simpa [isLegacyVariant] using hv
  have hc : ¬(v = VariantMask.em ∨ v = VariantMask.hs) := by rcases hl with rfl | rfl <;> decide
  simp only [classifyUnit, unlessHalted_of_running hs, classifyLength, hl, hc, if_true, if_false]
  rfl

/-- CLASSIFY under a current variant. -/
theorem classifyUnit_current {u0 : InsnUnit} {v : VariantMask} {s : State} (hs : s.dec.halted = false)
    (hv : isCurrentVariant v = true) : classifyUnit u0 v s = .next (answeredOk (.length (currentLength u0)) s) := by
  have hc : v = VariantMask.em ∨ v = VariantMask.hs := by simpa [isCurrentVariant] using hv
  simp only [classifyUnit, unlessHalted_of_running hs, classifyLength, hc, if_true]
  rfl

/-- A row that looks at the major opcode only. -/
theorem unitInRow_iff (u : InsnUnit) (m k : BitVec 5) :
    unitInRow (m ++ (0 : BitVec 11)) (k ++ (0 : BitVec 11)) u = true ↔ majorOpcode u &&& m = k := by
  have hu : u = majorOpcode u ++ u.extractLsb' 0 11 := by
    apply BitVec.eq_of_getLsbD_eq
    intro i hi
    simp only [majorOpcode, BitVec.getLsbD_append, BitVec.getLsbD_extractLsb']
    by_cases h : i < 11
    · simp [h]
    · have h1 : i - 11 < 5 := by omega
      have h2 : 11 + (i - 11) = i := by omega
      simp [h, h1, h2]
  have h2 : u &&& (m ++ (0 : BitVec 11)) = (majorOpcode u &&& m) ++ (0 : BitVec 11) := by
    conv_lhs => rw [hu]
    rw [BitVec.and_append]
    simp
  unfold unitInRow
  rw [beq_iff_eq, h2]
  refine ⟨fun h => ?_, fun h => by rw [h]⟩
  have := congrArg BitVec.toNat h
  rw [BitVec.toNat_append, BitVec.toNat_append] at this
  apply BitVec.eq_of_toNat_eq
  simpa [Nat.shiftLeft_eq] using this

/-- A row as a property of the major opcode, given by all 32 of them. -/
theorem unitInRow_range (u : InsnUnit) (m k : BitVec 5) (p : Nat → Prop)
    (h : ∀ x : BitVec 5, x &&& m = k ↔ p x.toNat) :
    unitInRow (m ++ (0 : BitVec 11)) (k ++ (0 : BitVec 11)) u = true ↔ p (u.toNat / 2 ^ 11) := by
  rw [unitInRow_iff, h, majorOpcode_toNat]

theorem unitInRow_00_07 (u : InsnUnit) : unitInRow 0xC000 0x0000 u = true ↔ u.toNat / 2 ^ 11 ≤ 0x7 :=
  unitInRow_range u 0b11000 0b00000 (· ≤ 0x7) (by decide)

theorem unitInRow_08_09 (u : InsnUnit) :
    unitInRow 0xF000 0x4000 u = true ↔ 0x8 ≤ u.toNat / 2 ^ 11 ∧ u.toNat / 2 ^ 11 ≤ 0x9 :=
  unitInRow_range u 0b11110 0b01000 (fun n => 0x8 ≤ n ∧ n ≤ 0x9) (by decide)

theorem unitInRow_0A (u : InsnUnit) : unitInRow 0xF800 0x5000 u = true ↔ u.toNat / 2 ^ 11 = 0xa :=
  unitInRow_range u 0b11111 0b01010 (· = 0xa) (by decide)

theorem unitInRow_0B (u : InsnUnit) : unitInRow 0xF800 0x5800 u = true ↔ u.toNat / 2 ^ 11 = 0xb :=
  unitInRow_range u 0b11111 0b01011 (· = 0xb) (by decide)

theorem unitInRow_0C_0F (u : InsnUnit) :
    unitInRow 0xE000 0x6000 u = true ↔ 0xc ≤ u.toNat / 2 ^ 11 ∧ u.toNat / 2 ^ 11 ≤ 0xf :=
  unitInRow_range u 0b11100 0b01100 (fun n => 0xc ≤ n ∧ n ≤ 0xf) (by decide)

theorem unitInRow_08_0F (u : InsnUnit) :
    unitInRow 0xC000 0x4000 u = true ↔ 0x8 ≤ u.toNat / 2 ^ 11 ∧ u.toNat / 2 ^ 11 ≤ 0xf :=
  unitInRow_range u 0b11000 0b01000 (fun n => 0x8 ≤ n ∧ n ≤ 0xf) (by decide)

theorem unitInRow_10_1F (u : InsnUnit) : unitInRow 0x8000 0x8000 u = true ↔ 0x10 ≤ u.toNat / 2 ^ 11 :=
  unitInRow_range u 0b10000 0b10000 (0x10 ≤ ·) (by decide)

end Sys2Proof.Machine
end

