-- ==== Sys2Proof/Laws/Decode.lean ====
section
/-! SUPPORT. Operand bytes, there and back, and the rows a unit and a mask are given by the decoder. -/

namespace Sys2Proof

@[simp] theorem putLE_length : ∀ n v : Nat, (putLE n v).length = n
  | 0, _ => rfl
  | n + 1, v => by simp [putLE, putLE_length n]

/-- Reading back what was put, whatever follows it. -/
theorem takeLE_putLE (rest : List Byte) : ∀ n v : Nat, v < 256 ^ n → takeLE n (putLE n v ++ rest) = some (v, rest)
  | 0, v, h => by
    obtain rfl : v = 0 := by simpa using h
    rfl
  | n + 1, v, h => by
    have hv : v / 256 < 256 ^ n := by rw [Nat.pow_succ] at h; omega
    simp only [putLE, List.cons_append, takeLE, takeLE_putLE rest n _ hv, BitVec.toNat_ofNat]
    simp only [Option.some.injEq, Prod.mk.injEq, and_true]
    omega

/-- What was read is below its bound, and putting it gives the bytes back. -/
theorem takeLE_some {rest : List Byte} : ∀ {n : Nat} {bs : List Byte} {v : Nat}, takeLE n bs = some (v, rest) →
    v < 256 ^ n ∧ bs = putLE n v ++ rest
  | 0, bs, v, h => by
    simp only [takeLE, Option.some.injEq, Prod.mk.injEq] at h
    obtain ⟨rfl, rfl⟩ := h
    simp [putLE]
  | n + 1, [], v, h => by simp [takeLE] at h
  | n + 1, b :: bs, v, h => by
    unfold takeLE at h
    split at h
    · cases h
    · rename_i v' rest' h'
      simp only [Option.some.injEq, Prod.mk.injEq] at h
      obtain ⟨rfl, rfl⟩ := h
      obtain ⟨h1, rfl⟩ := takeLE_some h'
      have hb : b.toNat < 256 := b.isLt
      refine ⟨by rw [Nat.pow_succ]; omega, ?_⟩
      have h2 : (b.toNat + 256 * v') / 256 = v' := by omega
      have h3 : BitVec.ofNat 8 (b.toNat + 256 * v') = b := by
        apply BitVec.eq_of_toNat_eq
        rw [BitVec.toNat_ofNat]
        omega
      simp only [putLE, h2, h3, List.cons_append]

theorem operandLE_putLE {n v : Nat} (h : v < 256 ^ n) (rest : List Byte) (k : Nat → List Byte → Decoded) :
    operandLE n (putLE n v ++ rest) k = k v rest := by
  simp only [operandLE, takeLE_putLE rest n v h]

theorem smallOperand_putLE {bound v : Nat} (h : v < bound) (hb : v < 256) (rest : List Byte)
    (k : Nat → List Byte → Decoded) : smallOperand bound (putLE 1 v ++ rest) k = k v rest := by
  rw [smallOperand, operandLE_putLE (by simpa using hb)]
  simp [h]

/-- An operand that is accepted was read whole. -/
theorem operandLE_ok {n : Nat} {bs : List Byte} {k : Nat → List Byte → Decoded} {r : Instr × List Byte}
    (h : operandLE n bs k = .ok r) : ∃ v rest, v < 256 ^ n ∧ bs = putLE n v ++ rest ∧ k v rest = .ok r := by
  unfold operandLE at h
  split at h
  · cases h
  · rename_i v rest h'
    obtain ⟨h1, h2⟩ := takeLE_some h'
    exact ⟨v, rest, h1, h2, h⟩

theorem smallOperand_ok {bound : Nat} {bs : List Byte} {k : Nat → List Byte → Decoded} {r : Instr × List Byte}
    (h : smallOperand bound bs k = .ok r) : ∃ v rest, v < bound ∧ bs = putLE 1 v ++ rest ∧ k v rest = .ok r := by
  obtain ⟨v, rest, -, h2, h3⟩ := operandLE_ok h
  split at h3
  · exact ⟨v, rest, ‹_›, h2, h3⟩
  · cases h3

/-! ### Fields -/

@[simp] theorem ByteLen.ofCode_code (l : ByteLen) : ByteLen.ofCode l.code = l := by cases l <;> rfl

theorem ByteLen.code_lt (l : ByteLen) : l.code < 4 := by cases l <;> decide

theorem ByteLen.code_ofCode {c : Nat} (h : c < 4) : (ByteLen.ofCode c).code = c := by interval_cases c <;> rfl

theorem indexOfVariant_lt (v : VariantMask) : indexOfVariant v < 4 := by revert v; decide

theorem indexOfVariant_variantOfIndex {k : Nat} (h : k < 4) : indexOfVariant (variantOfIndex k) = k := by
  interval_cases k <;> decide

theorem variantOfIndex_indexOfVariant {v : VariantMask} (h : isLegacyVariant v = true ∨ isCurrentVariant v = true) :
    variantOfIndex (indexOfVariant v) = v := by revert v; decide

theorem variantOfIndex_recognised {k : Nat} (h : k < 4) :
    isLegacyVariant (variantOfIndex k) = true ∨
      isLegacyVariant (variantOfIndex k) = false ∧ isCurrentVariant (variantOfIndex k) = true := by
  interval_cases k <;> decide

/-! ### The row of a unit, the row of a mask -/

open Sys2Proof.Machine in
/-- The row the decoder gives a unit is one the unit lies in, and its packet is the unit's. -/
theorem unitRow_spec (u : InsnUnit) {v : VariantMask} (hv : isLegacyVariant v = true ∨ isCurrentVariant v = true) :
    (unitRow u v).wellFormed = true ∧ encode (unitRow u v) = encodeUnit u v := by
  have hlt := u.isLt
  unfold unitRow legacyRow currentRow
  by_cases hl : isLegacyVariant v = true
  · rw [if_pos hl]
    repeat' split
    all_goals first
      | exact ⟨(Bool.and_eq_true _ _).mpr ⟨‹_›, ‹_›⟩, rfl⟩
      | skip
    refine ⟨?_, rfl⟩
    simp only [unitInRow_00_07, unitInRow_08_09, unitInRow_0A, unitInRow_0B, unitInRow_0C_0F] at *
    simp only [Instr.wellFormed, Bool.and_eq_true, unitInRow_10_1F, hl, and_true]
    omega
  · rw [if_neg hl]
    have hc : isCurrentVariant v = true := hv.resolve_left hl
    repeat' split
    all_goals first
      | exact ⟨(Bool.and_eq_true _ _).mpr ⟨‹_›, ‹_›⟩, rfl⟩
      | skip
    refine ⟨?_, rfl⟩
    simp only [unitInRow_00_07, unitInRow_08_0F] at *
    simp only [Instr.wellFormed, Bool.and_eq_true, unitInRow_10_1F, hc, and_true]
    omega

/-- The row the decoder gives a mask is one the mask lies in, and its packet is the mask's. -/
theorem maskRow_spec (m : Word) : (maskRow m).wellFormed = true ∧ encode (maskRow m) = encodeMask m := by
  unfold maskRow
  repeat' split
  all_goals
    refine ⟨?_, rfl⟩
    simp only [Instr.wellFormed, Bool.and_eq_true, decide_eq_true_eq]
    omega

end Sys2Proof
end

