-- ==== Sys2Proof/Laws/Dispatcher.lean ====
section
/-! SUPPORT. DISPATCH's materialisation, said once: over positions that are ready it makes one handle and one call each, in
order, and the temporaries among the handles are consecutive fresh numbers. -/

namespace Sys2Proof.Machine

/-- What materialising positions `p`, `p + 1`, … has added: a handle and a call for each. -/
structure Adds (P : Params) (map : MapId) (c : DecodedInsn) (p n : Nat) (m m' : Materialised) (hs : List Handle)
    (cs : List Event) : Prop where
  handles : hs.length = n
  calls : cs.length = n
  each : ∀ q h e, hs[q]? = some h → cs[q]? = some e → Materialises P map c (p + q) h e
  handlesAfter : m'.handles = m.handles ++ hs
  callsAfter : m'.calls = m.calls ++ cs
  liveAfter : m'.live = m.live ++ temporaries hs
  nextAfter : m'.nextTemp = m.nextTemp + (temporaries hs).length
  fresh : temporaries hs = List.range' m.nextTemp (temporaries hs).length

theorem Adds.nil {P : Params} {map : MapId} {c : DecodedInsn} {p : Nat} (m : Materialised) : Adds P map c p 0 m m [] [] where
  handles := rfl
  calls := rfl
  each := by simp
  handlesAfter := by simp
  callsAfter := by simp
  liveAfter := by simp [temporaries]
  nextAfter := by simp [temporaries]
  fresh := by simp [temporaries]

/-- A ready position is materialised, and the loop goes on behind it. -/
theorem materialise_ready {P : Params} {map : MapId} {c : DecodedInsn} {n p : Nat} {m : Materialised}
    (h : PositionReady P map c p) :
    ∃ m' x e, materialise P map c (n + 1) p m = materialise P map c n (p + 1) m' ∧ Adds P map c p 1 m m' [x] [e] := by
  unfold PositionReady at h
  simp only [materialise]
  cases ho : c.operands[p]? with
  | some o =>
    simp only [ho] at h
    unfold bindOperand
    by_cases hr : o.type.reg = true
    · simp only [hr, if_true, if_pos (h hr)]
      refine ⟨_, .reg o.value.toNat, .regHandle o.value.toNat, rfl, ?_⟩
      refine ⟨rfl, rfl, ?_, rfl, rfl, by simp [temporaries, regHandle], by simp [temporaries, regHandle],
        by simp [temporaries]⟩
      intro q x e hx he
      cases q with
      | succ q => simp at hx
      | zero =>
        simp only [List.getElem?_cons_zero, Option.some.injEq] at hx he
        subst hx he
        simp [Materialises, ho, hr]
    · by_cases hl : o.type.limm = true
      · simp only [hr, hl, Bool.false_eq_true, if_false, if_true]
        refine ⟨_, .temp m.nextTemp, .limmHandle c.limm m.nextTemp, rfl, ?_⟩
        refine ⟨rfl, rfl, ?_, rfl, rfl, rfl, rfl, rfl⟩
        intro q x e hx he
        cases q with
        | succ q => simp at hx
        | zero =>
          simp only [List.getElem?_cons_zero, Option.some.injEq] at hx he
          subst hx he
          simp [Materialises, ho, hr, hl]
      · simp only [hr, hl, Bool.false_eq_true, if_false]
        refine ⟨_, .temp m.nextTemp, .constHandle o.value m.nextTemp, rfl, ?_⟩
        refine ⟨rfl, rfl, ?_, rfl, rfl, rfl, rfl, rfl⟩
        intro q x e hx he
        cases q with
        | succ q => simp at hx
        | zero =>
          simp only [List.getElem?_cons_zero, Option.some.injEq] at hx he
          subst hx he
          simp [Materialises, ho, hr, hl]
  | none =>
    simp only [ho] at h
    obtain ⟨k, hk⟩ := Option.isSome_iff_exists.mp h
    simp only [hk]
    refine ⟨_, .temp m.nextTemp, .constHandle k m.nextTemp, rfl, ?_⟩
    refine ⟨rfl, rfl, ?_, rfl, rfl, rfl, rfl, rfl⟩
    intro q x e hx he
    cases q with
    | succ q => simp at hx
    | zero =>
      simp only [List.getElem?_cons_zero, Option.some.injEq] at hx he
      subst hx he
      simp [Materialises, ho, hk]

theorem temporaries_append (a b : List Handle) : temporaries (a ++ b) = temporaries a ++ temporaries b := by
  simp [temporaries]

/-- One position, then more. -/
theorem Adds.cons {P : Params} {map : MapId} {c : DecodedInsn} {p n : Nat} {m m₁ m' : Materialised} {x : Handle}
    {e : Event} {hs : List Handle} {cs : List Event} (h1 : Adds P map c p 1 m m₁ [x] [e])
    (h2 : Adds P map c (p + 1) n m₁ m' hs cs) : Adds P map c p (n + 1) m m' (x :: hs) (e :: cs) where
  handles := by simp [h2.handles]
  calls := by simp [h2.calls]
  each := by
    intro q y f hy hf
    cases q with
    | zero =>
      simp only [List.getElem?_cons_zero, Option.some.injEq] at hy hf
      subst hy hf
      exact h1.each 0 _ _ rfl rfl
    | succ q =>
      have := h2.each q y f (by simpa using hy) (by simpa using hf)
      rwa [show p + 1 + q = p + (q + 1) by omega] at this
  handlesAfter := by rw [h2.handlesAfter, h1.handlesAfter]; simp
  callsAfter := by rw [h2.callsAfter, h1.callsAfter]; simp
  liveAfter := by
    rw [h2.liveAfter, h1.liveAfter, List.append_assoc, ← temporaries_append]
    rfl
  nextAfter := by
    rw [h2.nextAfter, h1.nextAfter, show x :: hs = [x] ++ hs from rfl, temporaries_append, List.length_append]
    omega
  fresh := by
    rw [show x :: hs = [x] ++ hs from rfl, temporaries_append, List.length_append, List.range'_append_1.symm,
      ← h1.fresh, ← h1.nextAfter, ← h2.fresh]

/-- Any number of ready positions (44_semantic_dispatcher.md R150, R151). -/
theorem materialise_steps {P : Params} {map : MapId} {c : DecodedInsn} : ∀ (j : Nat) {n p : Nat} (m : Materialised),
    (∀ q < j, PositionReady P map c (p + q)) →
    ∃ m' hs cs, materialise P map c (j + n) p m = materialise P map c n (p + j) m' ∧ Adds P map c p j m m' hs cs
  | 0, n, p, m, _ => ⟨m, [], [], by rw [Nat.zero_add, Nat.add_zero], Adds.nil m⟩
  | j + 1, n, p, m, h => by
    obtain ⟨m₁, x, e, h1, h2⟩ := materialise_ready (n := j + n) (p := p) (m := m) (h 0 (by omega))
    obtain ⟨m', hs, cs, h3, h4⟩ := materialise_steps j (n := n) (p := p + 1) m₁ fun q hq => by
      have := h (q + 1) (by omega)
      rwa [show p + (q + 1) = p + 1 + q by omega] at this
    refine ⟨m', x :: hs, e :: cs, ?_, h2.cons h4⟩
    rw [show j + 1 + n = j + n + 1 by omega, h1, h3, show p + 1 + j = p + (j + 1) by omega]

/-- DISPATCH within its contract goes on to mnemonic resolution. -/
theorem execDispatch_of_dispatchable {s : State} {k : Nat} {T : OpcodeTemplate} (h : Dispatchable s k T) :
    execDispatch k s = dispatchMnemonic T.mnemonic (initialise s) := by
  simp only [execDispatch, unlessHalted_of_running h.running, h.armed, h.written, h.tables, h.template, ne_eq,
    not_true_eq_false, if_false, Bool.not_true, Bool.false_eq_true]

/-! ### Mnemonic resolution, case by case -/

theorem dispatchMnemonic_of_noMapping {mn : String} {s : State} (h : mappingOf s.cfg mn = none) :
    dispatchMnemonic mn s = .next (raiseNoMapping mn s) := by
  rw [dispatchMnemonic, h]

theorem dispatchMnemonic_of_special {mn : String} {map : MapId} {k : SpecialKind} {s : State}
    (h : mappingOf s.cfg mn = some map) (h' : specialOf s.cfg map = some k) :
    dispatchMnemonic mn s = .next (invokeSpecial k s) := by
  simp only [dispatchMnemonic, h, h']

theorem dispatchMnemonic_of_noHandler {mn : String} {map : MapId} {s : State} (h : mappingOf s.cfg mn = some map)
    (h' : specialOf s.cfg map = none) (h'' : handlerOf s.cfg map = none) :
    dispatchMnemonic mn s = .next (raiseNoHandler mn s) := by
  simp only [dispatchMnemonic, h, h', h'']

theorem dispatchMnemonic_of_handler {mn : String} {map : MapId} {e : HandlerEntry} {s : State}
    (h : mappingOf s.cfg mn = some map) (h' : specialOf s.cfg map = none) (h'' : handlerOf s.cfg map = some e) :
    dispatchMnemonic mn s = dispatchGeneric mn map e s := by
  simp only [dispatchMnemonic, h, h', h'']

end Sys2Proof.Machine
end

