-- ==== Sys2Proof/Laws/Operands.lean ====
section
/-! SUPPORT. Bit fields in numbers and in bits: the plain read, the reassembled split field, sign extension. -/

namespace Sys2Proof.Machine

/-! ### One field -/

theorem fieldAt_eq (w : Word) (shift width : Nat) : fieldAt w shift width = w.toNat / 2 ^ shift % 2 ^ width := by
  rw [fieldAt, maskOf, Nat.and_two_pow_sub_one_eq_mod, Nat.shiftRight_eq_div_pow]

theorem fieldAt_lt (w : Word) (shift width : Nat) : fieldAt w shift width < 2 ^ width := by
  rw [fieldAt_eq]
  exact Nat.mod_lt _ (by positivity)

theorem fieldAt_testBit (w : Word) (shift width b : Nat) :
    (fieldAt w shift width).testBit b = (decide (b < width) && w.getLsbD (shift + b)) := by
  rw [fieldAt, maskOf, Nat.testBit_and, Nat.testBit_shiftRight, Nat.testBit_two_pow_sub_one, Bool.and_comm]
  rfl

/-! ### A split field -/

/-- One group's contribution, bit by bit. -/
theorem slice_shift_testBit (w : Word) (g : BitGroup) (b : Nat) :
    (slice w g.hi g.lo <<< g.dst).testBit b = (groupGives g b && w.getLsbD (g.lo + (b - g.dst))) := by
  rw [Nat.testBit_shiftLeft, slice, fieldAt_testBit]
  by_cases h : g.dst ≤ b
  · have h2 : b - g.dst < g.hi + 1 - g.lo ↔ b < g.dst + groupWidth g := by unfold groupWidth; omega
    simp [groupGives, h, h2]
  · simp [groupGives, h]

theorem assembleFrom_testBit (w : Word) (b : Nat) : ∀ (gs : List BitGroup) (v : Nat),
    (gs.foldl (fun v g => v ||| (slice w g.hi g.lo <<< g.dst)) v).testBit b =
      (v.testBit b || gs.any fun g => groupGives g b && w.getLsbD (g.lo + (b - g.dst)))
  | [], v => by simp
  | g :: gs, v => by
    simp only [List.foldl_cons, List.any_cons]
    rw [assembleFrom_testBit w b gs, Nat.testBit_or, slice_shift_testBit, Bool.or_assoc]

/-- The reassembled field, bit by bit (40_bit_extractors.md R94). -/
theorem assemble_testBit (gs : List BitGroup) (w : Word) (b : Nat) :
    (assemble gs w).testBit b = gs.any fun g => groupGives g b && w.getLsbD (g.lo + (b - g.dst)) := by
  rw [assemble, assembleFrom_testBit]
  simp

theorem groupsCover_group {gs : List BitGroup} {n : Nat} (h : groupsCover gs n = true) {g : BitGroup} (hg : g ∈ gs) :
    g.lo ≤ g.hi ∧ g.hi < 64 ∧ g.dst + groupWidth g ≤ n := by
  simp only [groupsCover, groupWf, Bool.and_eq_true, List.all_eq_true, decide_eq_true_eq] at h
  have := h.1 g hg
  exact ⟨this.1.1.1, this.1.1.2, this.2⟩

/-- What it is for the groups to fall short (40_bit_extractors.md R94, R102). -/
theorem groupsCover_eq_false_iff (gs : List BitGroup) (n : Nat) : groupsCover gs n = false ↔ GroupsBroken gs n := by
  simp only [groupsCover, groupWf, GroupsBroken, Bool.and_eq_false_iff, List.all_eq_false,
    decide_eq_true_eq, Bool.and_eq_true, List.mem_range]
  refine or_congr (exists_congr fun g => and_congr_right fun _ => by omega) (exists_congr fun b => ?_)
  exact Iff.rfl

/-- What it is for a descriptor to break its invariants (10_state.md R20, R21). -/
theorem descriptorWf_eq_false_iff (d : OperandDescriptor) : descriptorWf d = false ↔ DescriptorBroken d := by
  obtain ⟨bitWidth, shift, relocation, flags, extract⟩ := d
  rcases extract with _ | r | ⟨gs, signed, n, sc⟩ | ⟨x, lo⟩ | gs <;>
    simp only [descriptorWf, DescriptorBroken, extractorWf, Bool.and_eq_false_iff, Bool.or_eq_false_iff,
      Bool.not_eq_false', Bool.and_eq_true, decide_eq_false_iff_not, decide_eq_true_eq, not_le, not_lt, or_assoc,
      groupsCover_eq_false_iff, Nat.lt_one_iff, ne_eq]

/-- Below `n` exactly one group gives a bit. -/
theorem groupsCover_unique {gs : List BitGroup} {n b : Nat} (h : groupsCover gs n = true) (hb : b < n) :
    ∃ g, gs.filter (fun g => groupGives g b) = [g] := by
  simp only [groupsCover, Bool.and_eq_true, List.all_eq_true, decide_eq_true_eq, List.mem_range] at h
  exact List.length_eq_one_iff.mp (h.2 b hb)

/-- Two groups that give the same bit are the same group. -/
theorem groupsCover_same {gs : List BitGroup} {n b : Nat} (h : groupsCover gs n = true) (hb : b < n) {g g' : BitGroup}
    (hg : g ∈ gs) (hg' : g' ∈ gs) (h1 : groupGives g b = true) (h2 : groupGives g' b = true) : g = g' := by
  obtain ⟨x, hx⟩ := groupsCover_unique h hb
  have e1 : g ∈ gs.filter fun g => groupGives g b := List.mem_filter.mpr ⟨hg, h1⟩
  have e2 : g' ∈ gs.filter fun g => groupGives g b := List.mem_filter.mpr ⟨hg', h2⟩
  rw [hx, List.mem_singleton] at e1 e2
  exact e1.trans e2.symm

theorem assemble_lt {gs : List BitGroup} {n : Nat} (h : groupsCover gs n = true) (w : Word) : assemble gs w < 2 ^ n := by
  apply Nat.lt_pow_two_of_testBit
  intro b hb
  rw [assemble_testBit, List.any_eq_false]
  intro g hg
  have := groupsCover_group h hg
  simp [groupGives]
  omega

/-- What the matcher assembles is the field the groups name. -/
theorem assemble_assembled {gs : List BitGroup} {n : Nat} (h : groupsCover gs n = true) (w : Word) :
    Assembled gs w (assemble gs w) := by
  intro g hg j hj
  have hw := groupsCover_group h hg
  have hgives : groupGives g (g.dst + j) = true := by
    simp only [groupGives, Bool.and_eq_true, decide_eq_true_eq]
    omega
  rw [assemble_testBit]
  cases hbit : w.getLsbD (g.lo + j) with
  | true =>
    rw [List.any_eq_true]
    exact ⟨g, hg, by rw [hgives, Nat.add_sub_cancel_left, hbit]; rfl⟩
  | false =>
    rw [List.any_eq_false]
    intro g' hg' hc
    simp only [Bool.and_eq_true] at hc
    obtain rfl := groupsCover_same h (by omega) hg hg' hgives hc.1
    rw [Nat.add_sub_cancel_left, hbit] at hc
    exact absurd hc.2 (by decide)

/-! ### Sign extension -/

/-- Two's complement (40_bit_extractors.md R92). -/
theorem sext_eq {n v : Nat} (hn : 1 ≤ n) (hv : v < 2 ^ n) :
    sext n v = if v < 2 ^ (n - 1) then (v : Int) else v - 2 ^ n := by
  obtain ⟨m, rfl⟩ : ∃ m, n = m + 1 := ⟨n - 1, by omega⟩
  have hp : 2 ^ (m + 1) = 2 ^ m + 2 ^ m := by rw [Nat.pow_succ]; omega
  have hpi : (2 : Int) ^ (m + 1) = 2 ^ m + 2 ^ m := by exact_mod_cast hp
  have hm : v &&& maskOf (m + 1) = v := by
    rw [maskOf, Nat.and_two_pow_sub_one_eq_mod, Nat.mod_eq_of_lt hv]
  rw [sext, hm, Nat.add_sub_cancel, hpi]
  split
  · rename_i h
    have hx : v ^^^ 2 ^ m = v + 2 ^ m := by
      have e := Nat.two_pow_add_eq_or_of_lt h 1
      apply Nat.eq_of_testBit_eq
      intro i
      rw [show v + 2 ^ m = 2 ^ m * 1 + v by omega, e]
      simp only [Nat.testBit_xor, Nat.testBit_or, Nat.mul_one, Nat.testBit_two_pow]
      by_cases hi : m = i
      · subst hi
        simp [Nat.testBit_lt_two_pow h]
      · simp [hi]
    rw [hx]
    push_cast
    omega
  · rename_i h
    obtain ⟨u, rfl⟩ : ∃ u, v = 2 ^ m + u := ⟨v - 2 ^ m, by omega⟩
    have hu : u < 2 ^ m := by omega
    have hx : (2 ^ m + u) ^^^ 2 ^ m = u := by
      have e := Nat.two_pow_add_eq_or_of_lt hu 1
      apply Nat.eq_of_testBit_eq
      intro i
      rw [show 2 ^ m + u = 2 ^ m * 1 + u by omega, e]
      simp only [Nat.testBit_xor, Nat.testBit_or, Nat.mul_one, Nat.testBit_two_pow]
      by_cases hi : m = i
      · subst hi
        simp [Nat.testBit_lt_two_pow hu]
      · simp [hi]
    rw [hx]
    push_cast
    omega

theorem sext_bounds {n v : Nat} (hn : 1 ≤ n) (hv : v < 2 ^ n) :
    -(2 : Int) ^ (n - 1) ≤ sext n v ∧ sext n v < (2 : Int) ^ (n - 1) := by
  obtain ⟨m, rfl⟩ : ∃ m, n = m + 1 := ⟨n - 1, by omega⟩
  have hp : 2 ^ (m + 1) = 2 ^ m + 2 ^ m := by rw [Nat.pow_succ]; omega
  have hpi : (2 : Int) ^ (m + 1) = 2 ^ m + 2 ^ m := by exact_mod_cast hp
  have hmi : ((2 ^ m : Nat) : Int) = (2 : Int) ^ m := by push_cast; rfl
  rw [sext_eq hn hv, Nat.add_sub_cancel, hpi]
  split <;> omega

end Sys2Proof.Machine
end

