-- ==== Sys2Proof/Laws/Match.lean ====
section
/-! SUPPORT. The matcher's loops, each said once: what the operand loop and the flag loop accept, and what they leave in
the record. -/

namespace Sys2Proof.Machine

/-! ### Operands -/

theorem sentinelConflict_iff (P : Params) (l : ByteLen) (m : VariantMask) (fl : OperandFlags) (v : I64) :
    sentinelConflict P l m fl v = true ↔ fl.reg = true ∧ fl.limm = false ∧ sentinel P l m = some v := by
  simp [sentinelConflict, and_assoc]

/-- An operand that passes is entered. -/
theorem takeOperand_of_passes {P : Params} {w : Word} {l : ByteLen} {m : VariantMask} {d : OperandDescriptor}
    (h : OperandPasses P w l m d) (c : DecodedInsn) :
    takeOperand P w l m d c =
      some { c with limmP := c.limmP || d.flags.limm, operands := c.operands ++ [entryOf P w d] } := by
  have hs : ¬sentinelConflict P l m d.flags (extractWith P w d).1 = true := by
    rw [sentinelConflict_iff]
    rintro ⟨h1, h2, h3⟩
    exact h.2 h1 h2 h3
  simp only [takeOperand, h.1, hs, Bool.false_eq_true, if_false, entryOf]

/-- An operand that does not pass rejects the candidate. -/
theorem takeOperand_of_not_passes {P : Params} {w : Word} {l : ByteLen} {m : VariantMask} {d : OperandDescriptor}
    (h : ¬OperandPasses P w l m d) (c : DecodedInsn) : takeOperand P w l m d c = none := by
  by_cases h1 : (extractWith P w d).2 = true
  · simp only [takeOperand, h1, if_true]
  · have h2 : sentinelConflict P l m d.flags (extractWith P w d).1 = true := by
      rw [sentinelConflict_iff]
      by_contra hc
      exact h ⟨by simpa using h1, fun hr hl hs => hc ⟨hr, hl, hs⟩⟩
    simp only [takeOperand, h1, h2, Bool.false_eq_true, if_false, if_true]

theorem extractedOperands_cons {P : Params} {k : Nat} {ks : List Nat} {d : OperandDescriptor}
    (h : P.tOperands[k]? = some d) :
    extractedOperands P (k :: ks) = if d.flags.fake then extractedOperands P ks else d :: extractedOperands P ks := by
  simp only [extractedOperands, List.filterMap_cons, h, List.filter_cons]
  by_cases hf : d.flags.fake <;> simp [hf]

/-- The operand loop of a candidate whose operands all pass (42_format_matcher.md R120 to R124). -/
theorem gatherOperands_of_pass {P : Params} {w : Word} {l : ByteLen} {m : VariantMask} :
    ∀ {ks : List Nat} (c : DecodedInsn), (∀ k ∈ ks, k < P.tOperands.length) →
      (∀ d ∈ extractedOperands P ks, OperandPasses P w l m d) →
      gatherOperands P w l m ks c =
        some { c with
          limmP := c.limmP || (extractedOperands P ks).any fun d => d.flags.limm
          operands := c.operands ++ (extractedOperands P ks).map (entryOf P w) }
  | [], c, _, _ => by simp [gatherOperands, extractedOperands]
  | k :: ks, c, hk, hp => by
    obtain ⟨d, hd⟩ : ∃ d, P.tOperands[k]? = some d := ⟨_, List.getElem?_eq_getElem (hk k (by simp))⟩
    have hks : ∀ k ∈ ks, k < P.tOperands.length := fun j hj => hk j (by simp [hj])
    rw [extractedOperands_cons hd] at hp ⊢
    simp only [gatherOperands, hd]
    split
    · rename_i hf
      rw [if_pos hf] at hp
      exact gatherOperands_of_pass c hks hp
    · rename_i hf
      rw [if_neg hf] at hp
      rw [takeOperand_of_passes (hp _ (by simp))]
      simp only
      rw [gatherOperands_of_pass _ hks fun d' hd' => hp d' (by simp [hd'])]
      simp [Bool.or_assoc]

/-- One operand that does not pass rejects the candidate. -/
theorem gatherOperands_of_fail {P : Params} {w : Word} {l : ByteLen} {m : VariantMask} :
    ∀ {ks : List Nat} (c : DecodedInsn), (∀ k ∈ ks, k < P.tOperands.length) →
      ¬(∀ d ∈ extractedOperands P ks, OperandPasses P w l m d) → gatherOperands P w l m ks c = none
  | [], c, _, hp => absurd (by simp [extractedOperands]) hp
  | k :: ks, c, hk, hp => by
    obtain ⟨d, hd⟩ : ∃ d, P.tOperands[k]? = some d := ⟨_, List.getElem?_eq_getElem (hk k (by simp))⟩
    have hks : ∀ k ∈ ks, k < P.tOperands.length := fun j hj => hk j (by simp [hj])
    rw [extractedOperands_cons hd] at hp
    simp only [gatherOperands, hd]
    split
    · rename_i hf
      rw [if_pos hf] at hp
      exact gatherOperands_of_fail c hks hp
    · rename_i hf
      rw [if_neg hf] at hp
      by_cases h1 : OperandPasses P w l m d
      · rw [takeOperand_of_passes h1]
        refine gatherOperands_of_fail _ hks fun h2 => hp fun d' hd' => ?_
        rcases List.mem_cons.mp hd' with rfl | hd'
        · exact h1
        · exact h2 d' hd'
      · rw [takeOperand_of_not_passes h1]

/-! ### Flags -/

theorem scanFrom_found (w : Word) (k : ClassKind) : ∀ (ms : List FlagOperand) (r : MemberScan),
    (ms.foldl (scanMember w k) r).found = (r.found || ms.any fun m => decide (fieldAt w m.shift m.bitWidth = m.code))
  | [], r => by simp
  | m :: ms, r => by
    rw [List.foldl_cons, scanFrom_found w k ms, List.any_cons, ← Bool.or_assoc]
    rfl

theorem scanFrom_nonzero (w : Word) (k : ClassKind) : ∀ (ms : List FlagOperand) (r : MemberScan),
    (ms.foldl (scanMember w k) r).nonzero = (r.nonzero || ms.any fun m => decide (fieldAt w m.shift m.bitWidth ≠ 0))
  | [], r => by simp
  | m :: ms, r => by
    rw [List.foldl_cons, scanFrom_nonzero w k ms, List.any_cons, ← Bool.or_assoc]
    rfl

/-- A class rejects exactly when its flags are not explicable (42_format_matcher.md R128). -/
theorem applyClass_none_iff (P : Params) (w : Word) (cl : FlagClass) (c : DecodedInsn) :
    applyClass P w cl c = none ↔ ¬ClassPasses P w cl := by
  unfold applyClass ClassPasses
  split
  · simp [*]
  · rename_i hi
    simp only [scanMembers, scanFrom_found, scanFrom_nonzero, Bool.false_or]
    by_cases hf : (membersOf P cl).any fun m => decide (fieldAt w m.shift m.bitWidth = m.code)
    · have : ∃ m ∈ membersOf P cl, fieldAt w m.shift m.bitWidth = m.code := by simpa using hf
      simp [hf, this]
    · have h1 : ¬∃ m ∈ membersOf P cl, fieldAt w m.shift m.bitWidth = m.code := by simpa using hf
      simp [hf, h1, hi]

theorem applyClass_cls {P : Params} {w : Word} {cl : FlagClass} {c c' : DecodedInsn} (h : applyClass P w cl c = some c') :
    c'.cls = c.cls ∧ c'.operands = c.operands ∧ c'.limmP = c.limmP ∧ c'.len = c.len ∧ c'.limm = c.limm := by
  have hm : ∀ (ms : List FlagOperand) (r : MemberScan),
      let i := (ms.foldl (scanMember w cl.kind) r).insn
      i.cls = r.insn.cls ∧ i.operands = r.insn.operands ∧ i.limmP = r.insn.limmP ∧ i.len = r.insn.len ∧
        i.limm = r.insn.limm := by
    intro ms
    induction ms with
    | nil => exact fun r => ⟨rfl, rfl, rfl, rfl, rfl⟩
    | cons m ms ih =>
      intro r
      have := ih (scanMember w cl.kind r m)
      simp only [List.foldl_cons]
      simp only at this
      rw [this.1, this.2.1, this.2.2.1, this.2.2.2.1, this.2.2.2.2]
      unfold scanMember applyEffect
      simp only
      split <;> exact ⟨rfl, rfl, rfl, rfl, rfl⟩
  unfold applyClass at h
  split at h
  · simp only [Option.some.injEq] at h
    subst h
    unfold applyImplicit
    split
    · exact ⟨rfl, rfl, rfl, rfl, rfl⟩
    · split_ifs <;> exact ⟨rfl, rfl, rfl, rfl, rfl⟩
  · simp only at h
    split at h
    · cases h
    · simp only [Option.some.injEq] at h
      subst h
      exact hm _ _

/-- The flag loop of a candidate whose classes all pass. -/
theorem matchFlags_of_pass {P : Params} {w : Word} :
    ∀ {js : List Nat} (c : DecodedInsn), (∀ j ∈ js, j < P.tClasses.length) →
      (∀ j ∈ js, ∀ cl, P.tClasses[j]? = some cl → ClassPasses P w cl) →
      matchFlags P w js c =
        some (js.foldl
          (fun c j => match P.tClasses[j]? with
            | none => c
            | some cl => (applyClass P w cl c).getD c) c)
  | [], c, _, _ => rfl
  | j :: js, c, hj, hp => by
    obtain ⟨cl, hd⟩ : ∃ cl, P.tClasses[j]? = some cl := ⟨_, List.getElem?_eq_getElem (hj j (by simp))⟩
    have h1 := hp j (by simp) _ hd
    simp only [matchFlags, hd, List.foldl_cons]
    cases ha : applyClass P w cl c with
    | none => exact absurd h1 ((applyClass_none_iff P w _ c).mp ha)
    | some c' =>
      exact matchFlags_of_pass c' (fun k hk => hj k (by simp [hk])) fun k hk => hp k (by simp [hk])

/-- One class that does not pass rejects the candidate. -/
theorem matchFlags_of_fail {P : Params} {w : Word} :
    ∀ {js : List Nat} (c : DecodedInsn), (∀ j ∈ js, j < P.tClasses.length) →
      ¬(∀ j ∈ js, ∀ cl, P.tClasses[j]? = some cl → ClassPasses P w cl) → matchFlags P w js c = none
  | [], c, _, hp => absurd (by simp) hp
  | j :: js, c, hj, hp => by
    obtain ⟨cl, hd⟩ : ∃ cl, P.tClasses[j]? = some cl := ⟨_, List.getElem?_eq_getElem (hj j (by simp))⟩
    simp only [matchFlags, hd]
    cases ha : applyClass P w cl c with
    | none => rfl
    | some c' =>
      refine matchFlags_of_fail c' (fun k hk => hj k (by simp [hk])) fun h2 => hp fun k hk cl' hcl => ?_
      rcases List.mem_cons.mp hk with rfl | hk
      · rw [hd, Option.some.injEq] at hcl
        subst hcl
        by_contra hc
        rw [(applyClass_none_iff P w _ c).mpr hc] at ha
        cases ha
      · exact h2 k hk cl' hcl

/-! ### A template -/

theorem tablesWf_template {P : Params} (h : tablesWf P = true) {t : Nat} {T : OpcodeTemplate}
    (ht : P.tOpcodes[t]? = some T) : templateWf P T = true := by
  simp only [tablesWf, Bool.and_eq_true, List.all_eq_true] at h
  exact h.1.1.1.1.2 T (List.mem_of_getElem? ht)

theorem templateWf_indices {P : Params} {T : OpcodeTemplate} (h : templateWf P T = true) :
    (∀ k ∈ T.operandList, k < P.tOperands.length) ∧ (∀ j ∈ T.flagList, j < P.tClasses.length) ∧
      (extractedOperands P T.operandList).length ≤ P.maxOps := by
  simp only [templateWf, Bool.and_eq_true, List.all_eq_true, decide_eq_true_eq] at h
  exact ⟨h.1.1.1, h.1.1.2, h.1.2⟩

theorem immediateTests_iff {w : Word} {l : ByteLen} {m : VariantMask} {T : OpcodeTemplate} :
    immediateTests w l m T = true ↔
      T.cpu &&& m ≠ 0 ∧ templateLength T.mask = l ∧ w &&& T.mask = T.opcodeValue := by
  simp [immediateTests, and_assoc]

/-- A template that survives gives its record. -/
theorem tryTemplate_of_survives {P : Params} {w : Word} {l : ByteLen} {m : VariantMask} {T : OpcodeTemplate}
    (hw : templateWf P T = true) (h : Survives P w l m T) : tryTemplate P w l m T = some (recordOf P w l T) := by
  obtain ⟨hk, hj, -⟩ := templateWf_indices hw
  rw [tryTemplate, if_pos (immediateTests_iff.mpr ⟨h.variant, h.length, h.opcode⟩),
    gatherOperands_of_pass _ hk h.operands]
  simp only
  rw [matchFlags_of_pass _ hj h.classes]
  simp only [recordOf, freshCandidate, DecodedInsn.zero, Bool.false_or, List.nil_append] <;> rfl

/-- A template that does not survive is passed over. -/
theorem tryTemplate_of_not_survives {P : Params} {w : Word} {l : ByteLen} {m : VariantMask} {T : OpcodeTemplate}
    (hw : templateWf P T = true) (h : ¬Survives P w l m T) : tryTemplate P w l m T = none := by
  obtain ⟨hk, hj, -⟩ := templateWf_indices hw
  rw [tryTemplate]
  split
  · rename_i hi
    obtain ⟨h1, h2, h3⟩ := immediateTests_iff.mp hi
    by_cases hp : ∀ d ∈ extractedOperands P T.operandList, OperandPasses P w l m d
    · rw [gatherOperands_of_pass _ hk hp]
      exact matchFlags_of_fail _ hj fun hc => h ⟨h1, h2, h3, hp, hc⟩
    · rw [gatherOperands_of_fail _ hk hp]
  · rfl

/-- The matcher's result, over well-formed tables: the first survivor with its record, or nothing. -/
theorem findFormat_spec {P : Params} (hw : tablesWf P = true) (w : Word) (l : ByteLen) (m : VariantMask) :
    (∃ t T, P.tOpcodes[t]? = some T ∧ Survives P w l m T ∧
        (∀ j T', j < t → P.tOpcodes[j]? = some T' → ¬Survives P w l m T') ∧
        findFormat P w l m = some (t, recordOf P w l T)) ∨
      (∀ T ∈ P.tOpcodes, ¬Survives P w l m T) ∧ findFormat P w l m = none := by
  cases hf : findFormat P w l m with
  | none =>
    refine .inr ⟨fun T hT hs => ?_, rfl⟩
    obtain ⟨t, ht⟩ := List.getElem?_of_mem hT
    have := scanTemplates_none.mp hf T hT
    rw [tryTemplate_of_survives (tablesWf_template hw ht) hs] at this
    cases this
  | some r =>
    obtain ⟨t, c⟩ := r
    obtain ⟨k, T, rfl, h1, h2, h3⟩ := scanTemplates_some hf
    have hwf := tablesWf_template hw h1
    have hs : Survives P w l m T := by
      by_contra hc
      rw [tryTemplate_of_not_survives hwf hc] at h2
      cases h2
    rw [tryTemplate_of_survives hwf hs, Option.some.injEq] at h2
    subst h2
    refine .inl ⟨k, T, h1, hs, fun j T' hj hT' hc => ?_, by simp⟩
    have := h3 j T' hj hT'
    rw [tryTemplate_of_survives (tablesWf_template hw hT') hc] at this
    cases this

/-- What the flag loop leaves alone in a record. -/
theorem recordOf_fields (P : Params) (w : Word) (l : ByteLen) (T : OpcodeTemplate) :
    (recordOf P w l T).cls = .label T.cls ∧
      (recordOf P w l T).operands = (extractedOperands P T.operandList).map (entryOf P w) ∧
      (recordOf P w l T).limmP = (extractedOperands P T.operandList).any (fun d => d.flags.limm) ∧
      (recordOf P w l T).len = BitVec.ofNat 8 l.bytes ∧ (recordOf P w l T).limm = 0 := by
  have key : ∀ (js : List Nat) (c : DecodedInsn),
      let i := js.foldl
        (fun c j => match P.tClasses[j]? with
          | none => c
          | some cl => (applyClass P w cl c).getD c) c
      i.cls = c.cls ∧ i.operands = c.operands ∧ i.limmP = c.limmP ∧ i.len = c.len ∧ i.limm = c.limm := by
    intro js
    induction js with
    | nil => exact fun c => ⟨rfl, rfl, rfl, rfl, rfl⟩
    | cons j js ih =>
      intro c
      simp only [List.foldl_cons]
      cases hj : P.tClasses[j]? with
      | none => exact ih c
      | some cl =>
        cases ha : applyClass P w cl c with
        | none => simpa [ha] using ih c
        | some c' =>
          have h1 := applyClass_cls ha
          have h2 := ih c'
          simp only at h2
          simp only [ha, Option.getD_some]
          rw [h2.1, h2.2.1, h2.2.2.1, h2.2.2.2.1, h2.2.2.2.2]
          exact h1
  exact key _ _

end Sys2Proof.Machine
end

