-- ==== Sys2Proof/Laws/Entry.lean ====
section
/-! SUPPORT. READ_AND_DECODE: the assembled word, the long immediate, the aligned program counter, and the operation up to
each of its decisions. -/

namespace Sys2Proof.Machine

/-! ### Numbers -/

theorem toNat_append_units (u0 u1 : InsnUnit) : (u0 ++ u1).toNat = u0.toNat * 2 ^ 16 + u1.toNat := by
  rw [BitVec.toNat_append, ← Nat.shiftLeft_add_eq_or_of_lt u1.isLt, Nat.shiftLeft_eq]

theorem toNat_append_bytes (b0 b1 : Byte) : (b0 ++ b1).toNat = b0.toNat * 2 ^ 8 + b1.toNat := by
  rw [BitVec.toNat_append, ← Nat.shiftLeft_add_eq_or_of_lt b1.isLt, Nat.shiftLeft_eq]

/-- The word of a 2-byte instruction. -/
theorem setWidth_unit (u0 : InsnUnit) : u0.setWidth 64 = BitVec.ofNat 64 u0.toNat := by
  apply BitVec.eq_of_toNat_eq
  simp

/-- The word of a 4-byte instruction. -/
theorem setWidth_highThenLow (u0 u1 : InsnUnit) :
    (highThenLow u0 u1).setWidth 64 = BitVec.ofNat 64 (u0.toNat * 2 ^ 16 + u1.toNat) := by
  apply BitVec.eq_of_toNat_eq
  rw [BitVec.toNat_setWidth, highThenLow, toNat_append_units, BitVec.toNat_ofNat]

/-- Clearing bits 1 and 0. -/
theorem alignedPc_eq (pc : Addr) : pc &&& ~~~(0x3 : Addr) = BitVec.ofNat 32 (pc.toNat / 4 * 4) := by
  apply BitVec.eq_of_getLsbD_eq
  intro i hi
  have h3 : (~~~(0x3 : Addr)).getLsbD i = decide (2 ≤ i) := by
    interval_cases i <;> rfl
  rw [BitVec.getLsbD_and, h3, BitVec.getLsbD_ofNat, show pc.toNat / 4 * 4 = pc.toNat / 2 ^ 2 * 2 ^ 2 by norm_num,
    Nat.testBit_mul_two_pow, Nat.testBit_div_two_pow]
  by_cases h2 : 2 ≤ i
  · simp [h2, hi, BitVec.getLsbD]
  · simp [h2]

theorem even_getLsbD {pc : Addr} (h : pc.toNat % 2 = 0) : pc.getLsbD 0 = false := by
  simp [BitVec.getLsbD, Nat.testBit_zero, h]

theorem odd_getLsbD {pc : Addr} (h : pc.toNat % 2 = 1) : pc.getLsbD 0 = true := by
  simp [BitVec.getLsbD, Nat.testBit_zero, h]

/-! ### The long immediate -/

/-- Whatever the byte order, `arrange` undoes what `read32` did to the order of the units. -/
theorem arrange_joinHalves (big : Bool) (h l : InsnUnit) : arrange big (joinHalves big h l) = h ++ l := by
  cases big with
  | true => rfl
  | false =>
    apply BitVec.eq_of_toNat_eq
    have h1 := h.isLt
    have h2 := l.isLt
    simp only [arrange, joinHalves, Bool.false_eq_true, if_false]
    rw [toNat_append_units, toNat_append_units, BitVec.extractLsb'_toNat, BitVec.extractLsb'_toNat,
      toNat_append_units, Nat.shiftRight_eq_div_pow, Nat.shiftRight_eq_div_pow]
    omega

/-- A 32-bit read is the two 16-bit reads (20_memory.md R50). -/
theorem wordAt_arrange (big : Bool) (b : Accessor) (a : Addr) :
    (b.wordAt big a).map (arrange big) =
      match b.unitAt big a, b.unitAt big (a + 2) with
      | some h, some l => some (h ++ l)
      | _, _ => none := by
  unfold Accessor.wordAt
  cases b.unitAt big a with
  | none => rfl
  | some h =>
    cases b.unitAt big (a + 2) with
    | none => rfl
    | some l => simp only [Option.map_some, arrange_joinHalves]

/-! ### The operation up to each decision -/

/-- Presented with an even address while running, the operation reads. -/
theorem execReadAndDecode_of_even {pc : Addr} {v : VariantMask} {s : State} (hs : s.dec.halted = false)
    (h : pc.toNat % 2 = 0) : execReadAndDecode pc v s = decodeEntry (presentContext pc v s) := by
  rw [execReadAndDecode, unlessHalted_of_running hs, even_getLsbD h]
  rfl

theorem decodeEntry_of_read {s : State} {u0 : InsnUnit}
    (h : s.bus.arrive.unitAt s.cfg.bigEndian s.dec.ctx.currentPc = some u0) :
    decodeEntry s = decodeUnit u0 (issueRead .read16 s.dec.ctx.currentPc s) := by
  simp only [decodeEntry, issueRead_bus]
  rw [h]

theorem decodeEntry_of_abort {s : State} (h : s.bus.arrive.unitAt s.cfg.bigEndian s.dec.ctx.currentPc = none) :
    decodeEntry s = .next (abortDecode s.dec.ctx.currentPc (issueRead .read16 s.dec.ctx.currentPc s)) := by
  simp only [decodeEntry, issueRead_bus]
  rw [h]

theorem decodeUnit_of_two {s : State} {u0 : InsnUnit} (h : classifyLength s.cfg u0 s.dec.ctx.cpuVariant = some .two) :
    decodeUnit u0 s = decodeWord (BitVec.ofNat 64 u0.toNat) .two s := by
  simp only [decodeUnit, h, setWidth_unit]

theorem decodeUnit_of_four {s : State} {u0 : InsnUnit}
    (h : classifyLength s.cfg u0 s.dec.ctx.cpuVariant = some .four) : decodeUnit u0 s = decodeFour u0 s := by
  simp only [decodeUnit, h]

theorem decodeFour_of_read {s : State} {u0 u1 : InsnUnit}
    (h : s.bus.arrive.unitAt s.cfg.bigEndian (s.dec.ctx.currentPc + 2) = some u1) :
    decodeFour u0 s =
      decodeWord (BitVec.ofNat 64 (u0.toNat * 2 ^ 16 + u1.toNat)) .four
        (issueRead .read16 (s.dec.ctx.currentPc + 2) s) := by
  simp only [decodeFour, issueRead_bus]
  rw [h]
  simp only [setWidth_highThenLow]

theorem decodeFour_of_abort {s : State} {u0 : InsnUnit}
    (h : s.bus.arrive.unitAt s.cfg.bigEndian (s.dec.ctx.currentPc + 2) = none) :
    decodeFour u0 s =
      .next (abortDecode (s.dec.ctx.currentPc + 2) (issueRead .read16 (s.dec.ctx.currentPc + 2) s)) := by
  simp only [decodeFour, issueRead_bus]
  rw [h]

theorem decodeWord_of_found {s : State} {w : Word} {l : ByteLen} {k : Nat} {c : DecodedInsn}
    (hw : tablesWf s.cfg = true) (h : findFormat s.cfg w l s.dec.ctx.cpuVariant = some (k, c)) :
    decodeWord w l s = .next (decodeLimm k c l s) := by
  rw [decodeWord, if_pos hw, h]

theorem decodeWord_of_miss {s : State} {w : Word} {l : ByteLen} (hw : tablesWf s.cfg = true)
    (h : findFormat s.cfg w l s.dec.ctx.cpuVariant = none) :
    decodeWord w l s = .next (complete .decodeMiss .nothing .undecoded (clearDecoded s)) := by
  rw [decodeWord, if_pos hw, h]

/-- The context update as the claims state it. -/
theorem finishDecode_eq (k : Nat) (c : DecodedInsn) (limm : I32) (n : Nat) (s : State) :
    finishDecode k c limm n s = decodeReturned k c limm n s := by
  unfold finishDecode
  rw [alignedPc_eq]
  rfl

end Sys2Proof.Machine
end

