-- ==== Sys2Proof/Laws/Exec.lean ====
section
/-! SUPPORT. Said once: every next state an instruction can have. Invariants and frames follow by cases of `ExecNext`. -/

namespace Sys2Proof.Machine

/-! ### READ_AND_DECODE -/

/-- The state after some reads, in order. -/
def readAll (rs : List (ReadWidth × Addr)) (s : State) : State := rs.foldl (fun s r => issueRead r.1 r.2 s) s

/-- What reads change: the accessor and the trace. -/
theorem readAll_eq (rs : List (ReadWidth × Addr)) : ∀ s : State,
    readAll rs s =
      { s with
        bus := Accessor.arrive^[rs.length] s.bus
        log := s.log ++ rs.map fun r => .read r.1 r.2 } := by
  induction rs with
  | nil => intro s; simp [readAll]
  | cons r rs ih =>
    intro s
    have := ih (issueRead r.1 r.2 s)
    simp only [readAll, List.foldl_cons] at this ⊢
    rw [this]
    simp [issueRead]

/-- How READ_AND_DECODE ends, from the state `s` its reads have left. -/
inductive DecodeNext (s : State) : State → Prop where
  | abort (a : Addr) : DecodeNext s (abortDecode a s)
  | variant (v : VariantMask) : DecodeNext s (raiseVariant v s)
  | length (l : ByteLen) : DecodeNext s (raiseLength l s)
  | miss : DecodeNext s (complete .decodeMiss .nothing .undecoded (clearDecoded s))
  | done (w : Word) (l : ByteLen) (k : Nat) (c : DecodedInsn) (limm : I32) (n : Nat) (hn : n ≤ 12)
      (hw : tablesWf s.cfg = true) (hf : findFormat s.cfg w l s.dec.ctx.cpuVariant = some (k, c)) : DecodeNext s (finishDecode k c limm n s)

theorem ByteLen.bytes_le (l : ByteLen) : l.bytes ≤ 8 := by cases l <;> decide

/-- At most 12 bytes are consumed (40_bit_extractors.md R102). -/
theorem decodeLimm_next (k : Nat) (c : DecodedInsn) (l : ByteLen) (s : State) :
    (∃ limm n, n ≤ 12 ∧ decodeLimm k c l s = finishDecode k c limm n s) ∨
      ∃ a, decodeLimm k c l s = abortDecode a (issueRead .read32 a s) ∨
        ∃ limm n, n ≤ 12 ∧ decodeLimm k c l s = finishDecode k c limm n (issueRead .read32 a s) := by
  have hl := ByteLen.bytes_le l
  obtain ⟨-, h⟩ | ⟨-, ⟨-, h⟩ | ⟨w, -, h⟩⟩ := decodeLimm_cases k c l s
  · exact .inl ⟨_, _, by omega, h⟩
  · exact .inr ⟨_, .inl h⟩
  · exact .inr ⟨_, .inr ⟨_, _, by omega, h⟩⟩

theorem decodeWord_ends {w : Word} {l : ByteLen} {s₀ t : State} {rs : List (ReadWidth × Addr)}
    (h : decodeWord w l (readAll rs s₀) = .next t) :
    ∃ rs', rs'.length ≤ rs.length + 1 ∧ DecodeNext (readAll rs' s₀) t := by
  have snoc : ∀ a, readAll (rs ++ [(.read32, a)]) s₀ = issueRead .read32 a (readAll rs s₀) := by simp [readAll]
  obtain ⟨hw, ⟨-, rfl⟩ | ⟨k, c, hf, rfl⟩⟩ := decodeWord_next h
  · exact ⟨rs, by omega, .miss⟩
  · obtain ⟨limm, n, hn, h⟩ | ⟨a, h | ⟨limm, n, hn, h⟩⟩ := decodeLimm_next k c l (readAll rs s₀)
    · rw [h]
      exact ⟨rs, by omega, .done w l k c limm n hn hw hf⟩
    · rw [h, ← snoc]
      exact ⟨_, by simp, .abort a⟩
    · rw [h, ← snoc]
      exact ⟨_, by simp, .done w l k c limm n hn (by rw [snoc]; exact hw) (by rw [snoc]; exact hf)⟩

/-- READ_AND_DECODE while running: at most three reads, then one of five ends. -/
theorem execReadAndDecode_ends {pc : Addr} {v : VariantMask} {s t : State} (hs : s.dec.halted = false)
    (h : execReadAndDecode pc v s = .next t) :
    ∃ rs, rs.length ≤ 3 ∧ DecodeNext (readAll rs (presentContext pc v s)) t := by
  obtain ⟨hh, -⟩ | ⟨-, -, h⟩ := execReadAndDecode_next h
  · rw [hs] at hh
    cases hh
  obtain ⟨-, rfl⟩ | ⟨u0, -, h⟩ := decodeEntry_next h
  · exact ⟨[(.read16, pc)], by simp, .abort _⟩
  obtain ⟨-, rfl⟩ | ⟨-, h⟩ | ⟨-, h⟩ | ⟨l, -, -, rfl⟩ := decodeUnit_next h
  · exact ⟨[(.read16, pc)], by simp, .variant _⟩
  · obtain ⟨rs, hl, hr⟩ := decodeWord_ends (rs := [(.read16, pc)]) h
    exact ⟨rs, by simp at hl; omega, hr⟩
  · obtain ⟨-, rfl⟩ | ⟨u1, -, h⟩ := decodeFour_next h
    · exact ⟨[(.read16, pc), (.read16, pc + 2)], by simp, .abort _⟩
    · obtain ⟨rs, hl, hr⟩ := decodeWord_ends (rs := [(.read16, pc), (.read16, pc + 2)]) h
      exact ⟨rs, by simp at hl; omega, hr⟩
  · exact ⟨[(.read16, pc)], by simp, .length _⟩

/-! ### DISPATCH -/

/-- A call that makes a handle (10_state.md R38). -/
def isHandleCall : Event → Bool
  | .regHandle _ => true
  | .constHandle _ _ => true
  | .limmHandle _ _ => true
  | _ => false

/-- Materialisation makes handles and does nothing else on the interfaces: no read, no diagnostic. -/
def HandleCalls (es : List Event) : Prop := ∀ e ∈ es, isHandleCall e = true

theorem HandleCalls.snoc {es : List Event} (h : HandleCalls es) {e : Event} (he : isHandleCall e = true) :
    HandleCalls (es ++ [e]) := by
  intro e' he'
  rcases List.mem_append.mp he' with h' | h'
  · exact h e' h'
  · rw [List.mem_singleton.mp h']
    exact he

theorem HandleCalls.not_read {es : List Event} (h : HandleCalls es) {e : Event} (he : e ∈ es) (w : ReadWidth) (a : Addr) :
    e ≠ .read w a := by
  rintro rfl
  exact Bool.false_ne_true (h _ he)

theorem HandleCalls.not_diag {es : List Event} (h : HandleCalls es) {e : Event} (he : e ∈ es) (d : Diag) : e ≠ .diag d := by
  rintro rfl
  exact Bool.false_ne_true (h _ he)

theorem bindOperand_handleCalls {P : Params} {limm : I32} {o : Operand} {m m' : Materialised} (hm : HandleCalls m.calls)
    (h : bindOperand P limm o m = some m') : HandleCalls m'.calls := by
  unfold bindOperand at h
  split_ifs at h <;> cases h <;> exact hm.snoc rfl

theorem materialise_handleCalls {P : Params} {map : MapId} {c : DecodedInsn} :
    ∀ {n p : Nat} {m : Materialised}, HandleCalls m.calls →
      (∀ m', materialise P map c n p m = .done m' → HandleCalls m'.calls) ∧
        ∀ p' m', materialise P map c n p m = .missing p' m' → HandleCalls m'.calls
  | 0, p, m, hm => by simpa [materialise] using hm
  | n + 1, p, m, hm => by
    simp only [materialise]
    split
    · split
      · simp
      · exact materialise_handleCalls (bindOperand_handleCalls hm ‹_›)
    · split
      · simp only [reduceCtorEq, false_imp_iff, implies_true, Materialisation.missing.injEq, and_imp, true_and]
        rintro p' m' - rfl
        exact hm
      · exact materialise_handleCalls (hm.snoc rfl)

/-! ### Every instruction -/

/-- The eight commands, which end with an outcome code (60_exceptions.md R158). -/
def isCommand : Instr → Bool
  | .classify _ _ => true
  | .findFormat _ _ _ => true
  | .readAndDecode _ _ => true
  | .dispatch _ => true
  | .extract _ _ => true
  | .reset => true
  | .reserved110 => true
  | .reserved111 => true
  | _ => false

@[simp] theorem onlyAnswers_findFormat (w : Word) (l : ByteLen) (m : VariantMask) :
    onlyAnswers (.findFormat w l m) = false := rfl
@[simp] theorem onlyAnswers_readAndDecode (pc : Addr) (v : VariantMask) : onlyAnswers (.readAndDecode pc v) = false := rfl
@[simp] theorem onlyAnswers_dispatch (k : Nat) : onlyAnswers (.dispatch k) = false := rfl
@[simp] theorem onlyAnswers_reset : onlyAnswers .reset = false := rfl

/-- Every next state of an instruction presented in `s`. -/
inductive ExecNext (s : State) : Instr → State → Prop where
  | halted (i : Instr) (hi : i ≠ .reset) (hs : s.dec.halted = true) : ExecNext s i (answerHalted s)
  | length (i : Instr) (hi : onlyAnswers i = true) (hs : s.dec.halted = false) (l : ByteLen) :
      ExecNext s i (complete .ok .nothing (.length l) s)
  | variant (i : Instr) (hi : onlyAnswers i = true) (hs : s.dec.halted = false) (v : VariantMask) :
      ExecNext s i (raiseVariant v s)
  | value (i : Instr) (hi : onlyAnswers i = true) (hs : s.dec.halted = false) (r : I64 × Bool) :
      ExecNext s i (answerValue r s)
  | inner (i : Instr) (hi : onlyAnswers i = true) (hc : isCommand i = false) (hs : s.dec.halted = false) (o : Output) :
      ExecNext s i (answer none .nothing o s)
  | illegal (i : Instr) (hi : onlyAnswers i = true) (hs : s.dec.halted = false) :
      ExecNext s i (complete .illegalOp .nothing .nothing s)
  | found (w : Word) (l : ByteLen) (m : VariantMask) (hs : s.dec.halted = false) (k : Nat) (c : DecodedInsn)
      (hw : tablesWf s.cfg = true) (hf : findFormat s.cfg w l m = some (k, c)) :
      ExecNext s (.findFormat w l m) (complete .ok .nothing (.found k) (acceptRecord c s))
  | missed (w : Word) (l : ByteLen) (m : VariantMask) (hs : s.dec.halted = false) :
      ExecNext s (.findFormat w l m) (complete .decodeMiss .nothing .notFound (clearDecoded s))
  | decode (pc : Addr) (v : VariantMask) (hs : s.dec.halted = false) (rs : List (ReadWidth × Addr)) (hr : rs.length ≤ 3)
      (t : State) (ht : DecodeNext (readAll rs (presentContext pc v s)) t) : ExecNext s (.readAndDecode pc v) t
  | noMapping (k : Nat) (hs : s.dec.halted = false) (mn : String) :
      ExecNext s (.dispatch k) (raiseNoMapping mn (initialise s))
  | noHandler (k : Nat) (hs : s.dec.halted = false) (mn : String) :
      ExecNext s (.dispatch k) (raiseNoHandler mn (initialise s))
  | special (k : Nat) (hs : s.dec.halted = false) (x : SpecialKind) :
      ExecNext s (.dispatch k) (invokeSpecial x (initialise s))
  | generic (k : Nat) (hs : s.dec.halted = false) (r : String) (m : Materialised) (hm : HandleCalls m.calls) :
      ExecNext s (.dispatch k) (invokeHandler r m (initialise s))
  | noDefault (k : Nat) (hs : s.dec.halted = false) (mn : String) (p : Nat) (m : Materialised) (hm : HandleCalls m.calls) :
      ExecNext s (.dispatch k) (raiseNoDefault mn p m (initialise s))
  | reset : ExecNext s .reset (answer (some .ok) .nothing .nothing (resetDec s))

theorem classifyUnit_execNext {i : Instr} (hi : onlyAnswers i = true) (hr : i ≠ .reset) {u0 : InsnUnit} {v : VariantMask}
    {s t : State} (h : classifyUnit u0 v s = .next t) : ExecNext s i t := by
  obtain ⟨hs, rfl⟩ | ⟨hs, ⟨l, -, rfl⟩ | ⟨-, rfl⟩⟩ := classifyUnit_next h
  · exact .halted i hr hs
  · exact .length i hi hs l
  · exact .variant i hi hs v

theorem shorthandCode_execNext {i : Instr} (hi : onlyAnswers i = true) (hr : i ≠ .reset) {c : Nat} {s t : State}
    (h : shorthandCode c s = .next t) : ExecNext s i t := by
  obtain ⟨hs, rfl⟩ | ⟨hs, rfl⟩ := shorthandCode_next h
  · exact .halted i hr hs
  · exact .value i hi hs _

theorem deriveLength_execNext {i : Instr} (hi : onlyAnswers i = true) (hc : isCommand i = false) (hr : i ≠ .reset)
    {m : Word} {s t : State} (h : deriveLength m s = .next t) : ExecNext s i t := by
  obtain ⟨hs, rfl⟩ | ⟨hs, rfl⟩ := deriveLength_next h
  · exact .halted i hr hs
  · exact .inner i hi hc hs _

theorem testSentinel_execNext {i : Instr} (hi : onlyAnswers i = true) (hc : isCommand i = false) (hr : i ≠ .reset)
    {l : ByteLen} {m : VariantMask} {v : I64} {s t : State} (h : testSentinel l m v s = .next t) : ExecNext s i t := by
  obtain ⟨hs, rfl⟩ | ⟨hs, rfl⟩ := testSentinel_next h
  · exact .halted i hr hs
  · exact .inner i hi hc hs _

theorem illegalOp_execNext {i : Instr} (hi : onlyAnswers i = true) (hr : i ≠ .reset) {s t : State}
    (h : illegalOp s = .next t) : ExecNext s i t := by
  obtain ⟨hs, rfl⟩ | ⟨hs, rfl⟩ := illegalOp_next h
  · exact .halted i hr hs
  · exact .illegal i hi hs

theorem execExtract_execNext {w : Word} {k : Nat} {s t : State} (h : execExtract w k s = .next t) :
    ExecNext s (.extract w k) t := by
  obtain ⟨hs, rfl⟩ | ⟨hs, d, -, -, rfl⟩ := execExtract_next h
  · exact .halted _ (by simp) hs
  · exact .value _ rfl hs _

theorem execFindFormat_execNext {w : Word} {l : ByteLen} {m : VariantMask} {s t : State}
    (h : execFindFormat w l m s = .next t) : ExecNext s (.findFormat w l m) t := by
  obtain ⟨hs, rfl⟩ | ⟨hs, hw, ⟨k, c, hf, rfl⟩ | ⟨-, rfl⟩⟩ := execFindFormat_next h
  · exact .halted _ (by simp) hs
  · exact .found w l m hs k c hw hf
  · exact .missed w l m hs

theorem execReadAndDecode_execNext {pc : Addr} {v : VariantMask} {s t : State}
    (h : execReadAndDecode pc v s = .next t) : ExecNext s (.readAndDecode pc v) t := by
  by_cases hs : s.dec.halted = true
  · rw [execReadAndDecode, unlessHalted_of_halted hs] at h
    cases h
    exact .halted _ (by simp) hs
  · have hs : s.dec.halted = false := by simpa using hs
    obtain ⟨rs, hr, ht⟩ := execReadAndDecode_ends hs h
    exact .decode pc v hs rs hr t ht

theorem execDispatch_execNext {k : Nat} {s t : State} (h : execDispatch k s = .next t) : ExecNext s (.dispatch k) t := by
  obtain ⟨hs, rfl⟩ | ⟨hs, -, -, -, T, -, h⟩ := execDispatch_next h
  · exact .halted _ (by simp) hs
  obtain ⟨-, rfl⟩ | ⟨map, -, ⟨x, -, rfl⟩ | ⟨-, ⟨-, rfl⟩ | ⟨e, -, h⟩⟩⟩ := dispatchMnemonic_next h
  · exact .noMapping k hs _
  · exact .special k hs x
  · exact .noHandler k hs _
  · have hm : HandleCalls (startMaterialised (initialise s)).calls := by simp [HandleCalls, startMaterialised]
    obtain ⟨m, hd, rfl⟩ | ⟨p, m, hd, rfl⟩ := dispatchGeneric_next h
    · exact .generic k hs _ m ((materialise_handleCalls hm).1 m hd)
    · exact .noDefault k hs _ p m ((materialise_handleCalls hm).2 p m hd)

/-- THE INVERSION OF `exec`: a next state is one of these. -/
theorem exec_next {i : Instr} {s t : State} (h : exec i s = .next t) : ExecNext s i t := by
  cases i with
  | classify _ _ => exact classifyUnit_execNext rfl (by simp) h
  | findFormat _ _ _ => exact execFindFormat_execNext h
  | readAndDecode _ _ => exact execReadAndDecode_execNext h
  | dispatch _ => exact execDispatch_execNext h
  | extract _ _ => exact execExtract_execNext h
  | reset =>
    cases h
    exact .reset
  | reserved110 => exact illegalOp_execNext rfl (by simp) h
  | reserved111 => exact illegalOp_execNext rfl (by simp) h
  | lenLegacyMajor00To07 _ _ => exact classifyUnit_execNext rfl (by simp) h
  | lenLegacyMajor08To09 _ _ => exact classifyUnit_execNext rfl (by simp) h
  | lenLegacyMajor0A _ _ => exact classifyUnit_execNext rfl (by simp) h
  | lenLegacyMajor0B _ _ => exact classifyUnit_execNext rfl (by simp) h
  | lenLegacyMajor0CTo0F _ _ => exact classifyUnit_execNext rfl (by simp) h
  | lenLegacyMajor10To1F _ _ => exact classifyUnit_execNext rfl (by simp) h
  | lenCurrentMajor00To07 _ _ => exact classifyUnit_execNext rfl (by simp) h
  | lenCurrentMajor08To0F _ _ => exact classifyUnit_execNext rfl (by simp) h
  | lenCurrentMajor10To1F _ _ => exact classifyUnit_execNext rfl (by simp) h
  | templateLen2 _ => exact deriveLength_execNext rfl rfl (by simp) h
  | templateLen4 _ => exact deriveLength_execNext rfl rfl (by simp) h
  | templateLen6 _ => exact deriveLength_execNext rfl rfl (by simp) h
  | templateLen8 _ => exact deriveLength_execNext rfl rfl (by simp) h
  | limmSentinel4B _ => exact testSentinel_execNext rfl rfl (by simp) h
  | limmSentinel2BCurrent _ => exact testSentinel_execNext rfl rfl (by simp) h
  | limmSentinel2BLegacy _ _ => exact testSentinel_execNext rfl rfl (by simp) h
  | regShorthandCode0 => exact shorthandCode_execNext rfl (by simp) h
  | regShorthandCode1 => exact shorthandCode_execNext rfl (by simp) h
  | regShorthandCode2 => exact shorthandCode_execNext rfl (by simp) h
  | regShorthandCode3 => exact shorthandCode_execNext rfl (by simp) h
  | regShorthandCode4 => exact shorthandCode_execNext rfl (by simp) h
  | regShorthandCode5 => exact shorthandCode_execNext rfl (by simp) h
  | regShorthandCode6 => exact shorthandCode_execNext rfl (by simp) h
  | regShorthandCode7 => exact shorthandCode_execNext rfl (by simp) h

/-! ### Which template DISPATCH may be given -/

@[simp] theorem writesContext_dispatch (k : Nat) : writesContext (.dispatch k) = false := rfl

theorem writesContext_of_onlyAnswers {i : Instr} (h : onlyAnswers i = true) : writesContext i = false := by
  cases i <;> first | rfl | cases h

/-- An operation that writes `ctx` leaves no template for DISPATCH but the one it returned as decoded
(44_semantic_dispatcher.md R145, 93 U15). -/
theorem armed_of_writesContext {i : Instr} {s t : State} {k : Nat} (hs : s.dec.halted = false)
    (hi : writesContext i = true) (h : exec i s = .next t) (ho : t.port.answer.out ≠ .decoded k) :
    t.ghost.armed ≠ some k := by
  have no : onlyAnswers i = true → False := fun h' => by rw [writesContext_of_onlyAnswers h'] at hi; cases hi
  cases exec_next h with
  | halted _ _ hs' => rw [hs] at hs'; cases hs'
  | length _ h' => exact (no h').elim
  | variant _ h' => exact (no h').elim
  | value _ h' => exact (no h').elim
  | inner _ h' => exact (no h').elim
  | illegal _ h' => exact (no h').elim
  | found => simp
  | missed => simp
  | decode pc v _ rs _ _ hd =>
    cases hd with
    | done =>
      rw [finishDecode_ghost, ne_eq, Option.some.injEq]
      rintro rfl
      exact ho rfl
    | abort => simp
    | miss => simp
    | variant => simp [raiseVariant, readAll_eq]
    | length => simp [raiseLength, readAll_eq]
  | noMapping => simp at hi
  | noHandler => simp at hi
  | special => simp at hi
  | generic => simp at hi
  | noDefault => simp at hi
  | reset => simp

end Sys2Proof.Machine
end

