-- ==== Sys2Proof/Laws/PerInstr.lean ====
section
/-! SUPPORT. Statements about every instruction as syntax, one lemma per constructor. -/

/-! ### Every packet has a selector byte and fits the longest packet -/

def Sys2Proof.Laws.PacketLength.Statement (i : Sys2Proof.Instr) : Prop :=
  1 ≤ (Sys2Proof.encode i).length ∧ (Sys2Proof.encode i).length ≤ Sys2Proof.packetBytes

namespace Sys2Proof.Laws.PacketLength

theorem classify (u0 : InsnUnit) (variant : VariantMask) : Statement (.classify u0 variant) :=
  by simp [Statement, encode, packetBytes]
theorem findFormat (word : Word) (len : ByteLen) (mask : VariantMask) : Statement (.findFormat word len mask) :=
  by simp [Statement, encode, packetBytes]
theorem readAndDecode (pc : Addr) (variant : VariantMask) : Statement (.readAndDecode pc variant) :=
  by simp [Statement, encode, packetBytes]
theorem dispatch (t : Nat) : Statement (.dispatch t) := by simp [Statement, encode, packetBytes]
theorem extract (word : Word) (k : Nat) : Statement (.extract word k) := by simp [Statement, encode, packetBytes]
theorem reset : Statement .reset := by simp [Statement, encode, packetBytes]
theorem reserved110 : Statement .reserved110 := by simp [Statement, encode, packetBytes]
theorem reserved111 : Statement .reserved111 := by simp [Statement, encode, packetBytes]
theorem lenLegacyMajor00To07 (u0 : InsnUnit) (variant : VariantMask) : Statement (.lenLegacyMajor00To07 u0 variant) :=
  by simp [Statement, encode, encodeUnit, packetBytes]
theorem lenLegacyMajor08To09 (u0 : InsnUnit) (variant : VariantMask) : Statement (.lenLegacyMajor08To09 u0 variant) :=
  by simp [Statement, encode, encodeUnit, packetBytes]
theorem lenLegacyMajor0A (u0 : InsnUnit) (variant : VariantMask) : Statement (.lenLegacyMajor0A u0 variant) :=
  by simp [Statement, encode, encodeUnit, packetBytes]
theorem lenLegacyMajor0B (u0 : InsnUnit) (variant : VariantMask) : Statement (.lenLegacyMajor0B u0 variant) :=
  by simp [Statement, encode, encodeUnit, packetBytes]
theorem lenLegacyMajor0CTo0F (u0 : InsnUnit) (variant : VariantMask) : Statement (.lenLegacyMajor0CTo0F u0 variant) :=
  by simp [Statement, encode, encodeUnit, packetBytes]
theorem lenLegacyMajor10To1F (u0 : InsnUnit) (variant : VariantMask) : Statement (.lenLegacyMajor10To1F u0 variant) :=
  by simp [Statement, encode, encodeUnit, packetBytes]
theorem lenCurrentMajor00To07 (u0 : InsnUnit) (variant : VariantMask) : Statement (.lenCurrentMajor00To07 u0 variant) :=
  by simp [Statement, encode, encodeUnit, packetBytes]
theorem lenCurrentMajor08To0F (u0 : InsnUnit) (variant : VariantMask) : Statement (.lenCurrentMajor08To0F u0 variant) :=
  by simp [Statement, encode, encodeUnit, packetBytes]
theorem lenCurrentMajor10To1F (u0 : InsnUnit) (variant : VariantMask) : Statement (.lenCurrentMajor10To1F u0 variant) :=
  by simp [Statement, encode, encodeUnit, packetBytes]
theorem templateLen2 (mask : Word) : Statement (.templateLen2 mask) :=
  by simp [Statement, encode, encodeMask, packetBytes]
theorem templateLen4 (mask : Word) : Statement (.templateLen4 mask) :=
  by simp [Statement, encode, encodeMask, packetBytes]
theorem templateLen6 (mask : Word) : Statement (.templateLen6 mask) :=
  by simp [Statement, encode, encodeMask, packetBytes]
theorem templateLen8 (mask : Word) : Statement (.templateLen8 mask) :=
  by simp [Statement, encode, encodeMask, packetBytes]
theorem limmSentinel4B (mask : VariantMask) : Statement (.limmSentinel4B mask) :=
  by simp [Statement, encode, packetBytes]
theorem limmSentinel2BCurrent (mask : VariantMask) : Statement (.limmSentinel2BCurrent mask) :=
  by simp [Statement, encode, packetBytes]
theorem limmSentinel2BLegacy (value : I64) (mask : VariantMask) : Statement (.limmSentinel2BLegacy value mask) :=
  by simp [Statement, encode, packetBytes]
theorem regShorthandCode0 : Statement .regShorthandCode0 := by simp [Statement, encode, packetBytes]
theorem regShorthandCode1 : Statement .regShorthandCode1 := by simp [Statement, encode, packetBytes]
theorem regShorthandCode2 : Statement .regShorthandCode2 := by simp [Statement, encode, packetBytes]
theorem regShorthandCode3 : Statement .regShorthandCode3 := by simp [Statement, encode, packetBytes]
theorem regShorthandCode4 : Statement .regShorthandCode4 := by simp [Statement, encode, packetBytes]
theorem regShorthandCode5 : Statement .regShorthandCode5 := by simp [Statement, encode, packetBytes]
theorem regShorthandCode6 : Statement .regShorthandCode6 := by simp [Statement, encode, packetBytes]
theorem regShorthandCode7 : Statement .regShorthandCode7 := by simp [Statement, encode, packetBytes]

end Sys2Proof.Laws.PacketLength
end

