-- ==== Sys2Proof/Tests/Slice0.lean ====
section
/-! SUPPORT. The author's own tests. Expected values are those of spec/95_test_vectors.md (the vector is named) or made by
hand from the rule cited. SYN is that file's synthetic fixture, not the ARC table. A theorem named `witness_…` shows
states and operands that meet the hypotheses of the statement of that name, clause by clause. -/

set_option maxRecDepth 10000

open Sys2Proof Sys2Proof.Machine

namespace Sys2Proof.Tests

/-! ### The fixture (95_test_vectors.md section 2; register numbers of 93 G3, G4) -/

def regFlag : OperandFlags := { reg := true }

/-- The split 6-bit register field of SYN's RB. -/
def groupsRb : List BitGroup := [⟨26, 24, 0⟩, ⟨14, 12, 3⟩]

def groupsSimm12 : List BitGroup := [⟨11, 6, 0⟩, ⟨5, 0, 6⟩]

def groupsS25 : List BitGroup := [⟨26, 18, 0⟩, ⟨15, 6, 9⟩, ⟨3, 0, 19⟩]

def groupsSimm9 : List BitGroup := [⟨23, 16, 0⟩, ⟨15, 15, 8⟩]

/-- RA, RB, RC, RBdup, LIMM, UIMM6, SIMM12, S25A32, SIMM9, RBS, RH5, BLINK, UIMM6_5, BRAKET. -/
def synOperands : List OperandDescriptor :=
  [ { bitWidth := 6, shift := 0, flags := regFlag },
    { bitWidth := 6, shift := 0, flags := regFlag, extract := some (.regB groupsRb) },
    { bitWidth := 6, shift := 6, flags := regFlag },
    { bitWidth := 6, shift := 0, flags := { reg := true, duplicate := true }, extract := some (.regB groupsRb) },
    { bitWidth := 0, shift := 0, flags := { limm := true } },
    { bitWidth := 6, shift := 6, flags := { unsigned := true } },
    { bitWidth := 12, shift := 0, flags := { signed := true }, extract := some (.field groupsSimm12 true 12 .one) },
    { bitWidth := 25, shift := 0, flags := { signed := true, aligned32 := true },
      extract := some (.field groupsS25 true 23 .four) },
    { bitWidth := 9, shift := 0, flags := { signed := true }, extract := some (.field groupsSimm9 true 9 .one) },
    { bitWidth := 3, shift := 8, flags := regFlag, extract := some (.shorthand .rbs 8) },
    { bitWidth := 5, shift := 0, flags := regFlag },
    { bitWidth := 0, shift := 0, flags := regFlag, extract := some (.fixed .blink) },
    { bitWidth := 6, shift := 5, flags := { unsigned := true } },
    { bitWidth := 0, shift := 0, flags := { fake := true } } ]

def synFlags : List FlagOperand :=
  [ ⟨"al", 0, 0, 0, false⟩, ⟨"eq", 1, 5, 0, false⟩, ⟨"ne", 2, 5, 0, false⟩, ⟨"p", 3, 5, 0, false⟩,
    ⟨"f", 1, 1, 15, false⟩, ⟨"nd", 0, 1, 5, false⟩, ⟨"d", 1, 1, 5, false⟩, ⟨"a", 1, 2, 9, false⟩,
    ⟨"ab", 2, 2, 9, false⟩, ⟨"as", 3, 2, 9, false⟩, ⟨"x", 1, 1, 6, false⟩, ⟨"b", 1, 2, 7, false⟩,
    ⟨"h", 2, 2, 7, false⟩, ⟨"di", 1, 1, 11, false⟩ ]

/-- C_CC. -/
def classCc : FlagClass := ⟨{ optional := true, cond := true }, [1, 2, 3]⟩

/-- C_ALWAYS. -/
def classAlways : FlagClass := ⟨{ implicit := true, cond := true }, [0]⟩

/-- C_ALWAYS, C_CC, C_F, C_D, C_DI, C_AA, C_X, C_ZZ. -/
def synClasses : List FlagClass :=
  [ classAlways, classCc, ⟨{ optional := true, f := true }, [4]⟩, ⟨{ optional := true, d := true }, [5, 6]⟩,
    ⟨{ optional := true, di := true }, [13]⟩, ⟨{ optional := true, wb := true }, [7, 8, 9]⟩,
    ⟨{ optional := true, x := true }, [10]⟩, ⟨{ optional := true, zz := true }, [11, 12]⟩ ]

/-- T1 to T13, at index 0 to 12. -/
def synOpcodes : List OpcodeTemplate :=
  [ ⟨"add", 0x20000F80, 0xF8FF0FC0, 0xC, "ARITH", [0, 1, 4], [2]⟩,
    ⟨"add", 0x20000000, 0xF8FF0000, 0xF, "ARITH", [0, 1, 2], [2]⟩,
    ⟨"add", 0x20400000, 0xF8FF0000, 0xF, "ARITH", [0, 1, 5], [2]⟩,
    ⟨"add", 0x20800000, 0xF8FF0000, 0xF, "ARITH", [1, 3, 6], [2]⟩,
    ⟨"add", 0x20C00000, 0xF8FF0020, 0xF, "ARITH", [1, 3, 2], [1, 2]⟩,
    ⟨"asl", 0x202F0000, 0xF8FF003F, 0xF, "ARITH", [1, 2], [2]⟩,
    ⟨"ld", 0x10000000, 0xF8000000, 0xF, "LOAD", [0, 13, 1, 8, 13], [4, 5, 6, 7]⟩,
    ⟨"bl", 0x08020000, 0xF8030010, 0xF, "BRANCH", [7], [0, 3]⟩,
    ⟨"mov_s", 0x701E, 0xF8FF, 0x4, "MOVE", [9, 4], []⟩,
    ⟨"mov_s", 0x7000, 0xF8E0, 0xF, "MOVE", [9, 10], []⟩,
    ⟨"nop_s", 0x78E0, 0xFFFF, 0xF, "MISC", [], []⟩,
    ⟨"j_s", 0x7EE0, 0xFFFF, 0xF, "JUMP", [11], []⟩,
    ⟨"trap_s", 0x781E, 0xF81F, 0xF, "KERNEL", [12], []⟩ ]

def SYN : Params where
  extMinorLen := []
  bigEndian := false
  limmSentinel2BLegacy := none
  maxOps := 3
  numRegs := 64
  regSp := 28
  regGp := 26
  regBlink := 31
  regIlink1 := 29
  regIlink2 := 30
  regPcl := 63
  tOperands := synOperands
  tFlags := synFlags
  tClasses := synClasses
  tOpcodes := synOpcodes
  tMnemonicMap :=
    [ ⟨"add", "ADD"⟩, ⟨"asl", "ASL"⟩, ⟨"ld", "LD"⟩, ⟨"bl", "BL"⟩, ⟨"mov_s", "MOV"⟩, ⟨"nop_s", "NOP"⟩, ⟨"j_s", "J"⟩,
      ⟨"trap_s", "TRAP"⟩ ]
  tHandlers :=
    [ ⟨"ADD", 3, "ADD"⟩, ⟨"ASL", 3, "ASL"⟩, ⟨"LD", 3, "LD"⟩, ⟨"BL", 1, "BL"⟩, ⟨"MOV", 2, "MOV"⟩, ⟨"NOP", 0, "NOP"⟩,
      ⟨"J", 1, "J"⟩ ]
  tConstOperands := [⟨"ASL", 2, 1⟩]
  sSpecial := [⟨"TRAP", .syscallTrap⟩]

/-- The suggested extension window (93 G1). -/
def synG1 : Params := { SYN with extMinorLen := [(0, .six), (1, .six), (2, .six), (3, .six), (0x10, .eight), (0x11, .eight)] }

/-- Tables that break R27: a template with more operands than the record holds. -/
def synBroken : Params := { SYN with maxOps := 2 }

theorem syn_wf : tablesWf SYN = true := by decide

theorem synBroken_not_wf : tablesWf synBroken = false := by decide

/-- 16-bit units at even addresses from `a` up, `BIG_ENDIAN = false`. -/
def unitsAt (a : Nat) : List Nat → Memory
  | [] => []
  | u :: us => (a, BitVec.ofNat 8 u) :: (a + 1, BitVec.ofNat 8 (u / 256)) :: unitsAt (a + 2) us

/-- Right after reset, over these parameters, with this memory. -/
def stOf (P : Params) (m : Memory) : State := { State.reset with cfg := P, bus := { mem := m, edits := [] } }

/-- Right after reset, over SYN. -/
def st (m : Memory) : State := stOf SYN m

/-- As `st`, these bytes presented. -/
def stCmds (bs : List Byte) : State := { st [] with port := { (st []).port with cmds := bs } }

/-- Halted by an earlier FATAL_VARIANT. -/
def stHalted : State := { st [] with dec := { (st []).dec with halted := true, status := .fatalVariant } }

/-- After a successful READ_AND_DECODE at 0x100 that returned template `k` with record `c`. -/
def ready (P : Params) (k : Nat) (c : DecodedInsn) : State :=
  { stOf P [] with
    dec := { (stOf P []).dec with
      ctx := { currentPc := 0x100, nextPc := 0x104, alignedPc := 0x100, decoded := c, cpuVariant := VariantMask.em } }
    ghost := { armed := some k, ctxWritten := true, free := 0 } }

def isNext : Result → Bool
  | .next _ => true
  | _ => false

def refusalOf : Result → Option Refusal
  | .refused r => some r
  | _ => none

def answerOf : Result → Option Answer
  | .next s => some s.port.answer
  | _ => none

def ctxOf : Result → Option Context
  | .next s => some s.dec.ctx
  | _ => none

def logOf : Result → List Event
  | .next s => s.log
  | _ => []

/-- The number in `status`, `halted`, and what `live_temps` holds. -/
def endOf : Result → Option (Nat × Bool × List Nat)
  | .next s => some (s.dec.status.number, s.dec.halted, s.dec.liveTemps)
  | _ => none

/-- The length CLASSIFY answers. -/
def lengthOf : Result → Option ByteLen
  | .next s => match s.port.answer.out with
    | .length l => some l
    | _ => none
  | _ => none

/-- The value EXTRACT answers. -/
def valueOf : Result → Option (I64 × Bool)
  | .next s => match s.port.answer.out with
    | .value v b => some (v, b)
    | _ => none
  | _ => none

def okAnswer (o : Output) : Option Answer := some { outcome := some .ok, info := .nothing, out := o }

/-! ### Decoding: words written out from the encodings of 30_encoding.md -/

theorem test_decode_commands :
    decode [0b000, 0xE0, 0x78, 4] = .ok (.classify 0x78E0 4, []) ∧
    decode [0b001, 0xC2, 0, 0, 0x21, 0, 0, 0, 0, 1, 4] = .ok (.findFormat 0x210000C2 .four 4, []) ∧
    decode [0b010, 6, 1, 0, 0, 8] = .ok (.readAndDecode 0x106 8, []) ∧
    decode [0b011, 1, 2, 0, 0] = .ok (.dispatch 0x201, []) ∧
    decode [0b100, 0xC2, 0, 0, 0x21, 0, 0, 0, 0, 2, 0, 0, 0] = .ok (.extract 0x210000C2 2, []) ∧
    decode [0b101] = .ok (.reset, []) ∧ decode [0b110] = .ok (.reserved110, []) ∧
    decode [0b111] = .ok (.reserved111, []) := ⟨rfl, rfl, rfl, rfl, rfl, rfl, rfl, rfl⟩

theorem test_decode_legacy_rows :
    decode [0x10, 0xFF, 0x3F, 0] = .ok (.lenLegacyMajor00To07 0x3FFF 1, []) ∧
    decode [0x10, 0x00, 0x40, 1] = .ok (.lenLegacyMajor08To09 0x4000 2, []) ∧
    decode [0x10, 0xFF, 0x57, 0] = .ok (.lenLegacyMajor0A 0x57FF 1, []) ∧
    decode [0x10, 0x00, 0x58, 1] = .ok (.lenLegacyMajor0B 0x5800 2, []) ∧
    decode [0x10, 0x00, 0x60, 0] = .ok (.lenLegacyMajor0CTo0F 0x6000 1, []) ∧
    decode [0x10, 0x00, 0x80, 1] = .ok (.lenLegacyMajor10To1F 0x8000 2, []) := ⟨rfl, rfl, rfl, rfl, rfl, rfl⟩

theorem test_decode_current_rows :
    decode [0x10, 0xFF, 0x3F, 2] = .ok (.lenCurrentMajor00To07 0x3FFF 4, []) ∧
    decode [0x10, 0x00, 0x40, 3] = .ok (.lenCurrentMajor08To0F 0x4000 8, []) ∧
    decode [0x10, 0xFF, 0xFF, 2] = .ok (.lenCurrentMajor10To1F 0xFFFF 4, []) := ⟨rfl, rfl, rfl⟩

/-- The masks of E4. -/
theorem test_decode_template_lengths :
    decode [0x20, 0xFF, 0xFF, 0, 0, 0, 0, 0, 0] = .ok (.templateLen2 0xFFFF, []) ∧
    decode [0x20, 0, 0, 1, 0, 0, 0, 0, 0] = .ok (.templateLen4 0x10000, []) ∧
    decode [0x20, 0, 0, 0, 0, 1, 0, 0, 0] = .ok (.templateLen6 0x100000000, []) ∧
    decode [0x20, 0, 0, 0, 0, 0, 0, 1, 0] = .ok (.templateLen8 0x1000000000000, []) := ⟨rfl, rfl, rfl, rfl⟩

theorem test_decode_sentinels :
    decode [0x3E, 2] = .ok (.limmSentinel4B 2, []) ∧ decode [0x1E, 4] = .ok (.limmSentinel2BCurrent 8, []) ∧
    decode [0x5E, 2, 0x1E, 0, 0, 0, 0, 0, 0, 0] = .ok (.limmSentinel2BLegacy 0x1e 2, []) := ⟨rfl, rfl, rfl⟩

theorem test_decode_register_codes :
    decode [0x08] = .ok (.regShorthandCode0, []) ∧ decode [0x09] = .ok (.regShorthandCode1, []) ∧
    decode [0x0A] = .ok (.regShorthandCode2, []) ∧ decode [0x0B] = .ok (.regShorthandCode3, []) ∧
    decode [0x0C] = .ok (.regShorthandCode4, []) ∧ decode [0x0D] = .ok (.regShorthandCode5, []) ∧
    decode [0x0E] = .ok (.regShorthandCode6, []) ∧ decode [0x0F] = .ok (.regShorthandCode7, []) :=
  ⟨rfl, rfl, rfl, rfl, rfl, rfl, rfl, rfl⟩

theorem test_decode_rejects :
    decode [] = .error .empty ∧ decode [0x11] = .error (.unknownSelector 0x11) ∧ decode [0, 1] = .error .truncated ∧
    decode [0, 1, 2, 16] = .error .reservedValue ∧ decode [0x1E, 12] = .error .reservedValue := ⟨rfl, rfl, rfl, rfl, rfl⟩

/-- The rows of spec/opcode_table.json whose words are told apart by their length and their bits. -/
theorem test_decode_table_words :
    decodeTableWord 8 0 = some (.classify 0 0) ∧ decodeTableWord 8 1 = some (.findFormat 0 .two 0) ∧
    decodeTableWord 8 2 = some (.readAndDecode 0 0) ∧ decodeTableWord 8 3 = some (.dispatch 0) ∧
    decodeTableWord 8 4 = some (.extract 0 0) ∧ decodeTableWord 8 5 = some .reset ∧
    decodeTableWord 8 6 = some .reserved110 ∧ decodeTableWord 8 7 = some .reserved111 ∧
    decodeTableWord 16 0x4000 = some (.lenLegacyMajor08To09 0x4000 1) ∧
    decodeTableWord 16 0x5800 = some (.lenLegacyMajor0B 0x5800 1) ∧
    decodeTableWord 8 0x3e = some (.limmSentinel4B 0) ∧ decodeTableWord 8 0x1e = some (.limmSentinel2BCurrent 4) := by
  decide

/-! ### Well-formedness: for each check a term it refuses -/

theorem test_wellFormed_indices :
    (Instr.dispatch (2 ^ 32)).wellFormed = false ∧ (Instr.extract 0 (2 ^ 32)).wellFormed = false ∧
    (Instr.dispatch (2 ^ 32 - 1)).wellFormed = true := by decide

theorem test_wellFormed_legacy_rows :
    (Instr.lenLegacyMajor00To07 0x4000 1).wellFormed = false ∧ (Instr.lenLegacyMajor00To07 0 4).wellFormed = false ∧
    (Instr.lenLegacyMajor08To09 0x5000 1).wellFormed = false ∧ (Instr.lenLegacyMajor08To09 0x4000 3).wellFormed = false ∧
    (Instr.lenLegacyMajor0A 0x5800 1).wellFormed = false ∧ (Instr.lenLegacyMajor0A 0x5000 8).wellFormed = false ∧
    (Instr.lenLegacyMajor0B 0x5000 1).wellFormed = false ∧ (Instr.lenLegacyMajor0B 0x5800 0).wellFormed = false ∧
    (Instr.lenLegacyMajor0CTo0F 0x5800 1).wellFormed = false ∧ (Instr.lenLegacyMajor0CTo0F 0x6000 4).wellFormed = false ∧
    (Instr.lenLegacyMajor10To1F 0x7FFF 1).wellFormed = false ∧ (Instr.lenLegacyMajor10To1F 0x8000 8).wellFormed = false := by
  decide

theorem test_wellFormed_current_rows :
    (Instr.lenCurrentMajor00To07 0x4000 4).wellFormed = false ∧ (Instr.lenCurrentMajor00To07 0 1).wellFormed = false ∧
    (Instr.lenCurrentMajor08To0F 0x3FFF 4).wellFormed = false ∧ (Instr.lenCurrentMajor08To0F 0x4000 12).wellFormed = false ∧
    (Instr.lenCurrentMajor10To1F 0x7FFF 8).wellFormed = false ∧ (Instr.lenCurrentMajor10To1F 0x8000 2).wellFormed = false := by
  decide

theorem test_wellFormed_masks :
    (Instr.templateLen2 0x10000).wellFormed = false ∧ (Instr.templateLen4 0xFFFF).wellFormed = false ∧
    (Instr.templateLen4 0x100000000).wellFormed = false ∧ (Instr.templateLen6 0xFFFFFFFF).wellFormed = false ∧
    (Instr.templateLen6 0x1000000000000).wellFormed = false ∧ (Instr.templateLen8 0xFFFFFFFFFFFF).wellFormed = false ∧
    (Instr.limmSentinel2BCurrent 3).wellFormed = false ∧ (Instr.limmSentinel2BLegacy 0 0xC).wellFormed = false := by decide

/-! ### CLASSIFY (section 3) -/

theorem test_classify_legacy :
    lengthOf (exec (.classify 0x3FFF 1) (st [])) = some .four ∧ lengthOf (exec (.classify 0x57FF 2) (st [])) = some .eight ∧
    lengthOf (exec (.classify 0x5800 2) (st [])) = some .four ∧
    lengthOf (exec (.classify 0x5FE0 2) (stOf synG1 [])) = some .six ∧
    lengthOf (exec (.classify 0x5811 1) (stOf synG1 [])) = some .eight ∧
    lengthOf (exec (.classify 0x5812 1) (stOf synG1 [])) = some .four ∧
    lengthOf (exec (.classify 0x6000 1) (st [])) = some .two := by decide

/-- The current variants, and an unrecognised one: FATAL_VARIANT, `status = 2`, halted. -/
theorem test_classify_current_and_fatal :
    lengthOf (exec (.classify 0x3FFF 8) (st [])) = some .four ∧ lengthOf (exec (.classify 0x4000 4) (st [])) = some .two ∧
    endOf (exec (.classify 0x78E0 5) (st [])) = some (2, true, []) ∧
    logOf (exec (.classify 0x78E0 5) (st [])) =
      [.diag { kind := .fatalConfiguration, mnemonic := none, address := none, value := some 5 }] := by decide

/-- The rows of the length-class map. -/
theorem test_length_rows :
    lengthOf (exec (.lenLegacyMajor08To09 0x4FFF 1) (st [])) = some .four ∧
    lengthOf (exec (.lenLegacyMajor0A 0x5000 2) (st [])) = some .eight ∧
    lengthOf (exec (.lenLegacyMajor0B 0x5810 2) (stOf synG1 [])) = some .eight ∧
    lengthOf (exec (.lenLegacyMajor0B 0x5810 2) (st [])) = some .four ∧
    lengthOf (exec (.lenLegacyMajor10To1F 0xFFFF 1) (st [])) = some .two ∧
    lengthOf (exec (.lenCurrentMajor08To0F 0x47FF 8) (st [])) = some .two := by decide

/-! ### Encodings the matcher consumes -/

/-- E4. -/
theorem test_template_lengths :
    answerOf (exec (.templateLen2 0xFFFF) (st [])) = some { outcome := none, info := .nothing, out := .length .two } ∧
    lengthOf (exec (.templateLen4 0xFFFFFFFF) (st [])) = some .four ∧
    lengthOf (exec (.templateLen6 0xFFFFFFFFFFFF) (st [])) = some .six ∧
    lengthOf (exec (.templateLen8 0x1000000000000) (st [])) = some .eight := by decide

/-- E6; the legacy sentinel is a parameter (M20, M21). -/
theorem test_sentinels :
    answerOf (exec (.limmSentinel4B 2) (st [])) = some { outcome := none, info := .nothing, out := .rejected true } ∧
    answerOf (exec (.limmSentinel2BCurrent 4) (st [])) =
      some { outcome := none, info := .nothing, out := .rejected true } ∧
    answerOf (exec (.limmSentinel2BLegacy 0x1e 2) (st [])) =
      some { outcome := none, info := .nothing, out := .rejected false } ∧
    answerOf (exec (.limmSentinel2BLegacy 0x1e 2) (stOf { SYN with limmSentinel2BLegacy := some 0x1e } [])) =
      some { outcome := none, info := .nothing, out := .rejected true } := by decide

/-- E2. -/
theorem test_register_codes :
    valueOf (exec .regShorthandCode3 (st [])) = some (3, false) ∧ valueOf (exec .regShorthandCode4 (st [])) = some (12, false) ∧
    valueOf (exec .regShorthandCode7 (st [])) = some (15, false) := by decide

/-! ### EXTRACT (section 4) -/

/-- V-X1, V-X4, V-X3, V-X9, V-X11, V-X13, V-X21. -/
theorem test_extract_registers :
    valueOf (exec (.extract 0x210000C2 2) (st [])) = some (3, false) ∧
    valueOf (exec (.extract 0xFFFFFFFFFFFFFFFF 0) (st [])) = some (63, false) ∧
    valueOf (exec (.extract 0xFFFFFFFFFFFFFFFF 4) (st [])) = some (0, false) ∧
    valueOf (exec (.extract 0x26007F82 1) (st [])) = some (62, true) ∧
    valueOf (exec (.extract 0x27007000 1) (st [])) = some (63, false) ∧
    valueOf (exec (.extract 0x7400 9) (st [])) = some (12, false) ∧
    valueOf (exec (.extract 0 11) (st [])) = some (31, false) := by decide

/-- V-X5, V-X6, V-X16, V-X18, V-X19, V-X20. -/
theorem test_extract_fields :
    valueOf (exec (.extract 0x21800FDF 6) (st [])) = some (2047, false) ∧
    valueOf (exec (.extract 0x21800020 6) (st [])) = some (-2048, false) ∧
    valueOf (exec (.extract 0x00FC8000 8) (st [])) = some (-4, false) ∧
    valueOf (exec (.extract 0x0FFAFFEF 7) (st [])) = some (-8, false) ∧
    valueOf (exec (.extract 0x0FFEFFC7 7) (st [])) = some (16777212, false) ∧
    valueOf (exec (.extract 0x08020008 7) (st [])) = some (-16777216, false) := by decide

/-- E3: the boundaries of sign extension. -/
theorem test_sext_boundaries :
    sext 1 1 = -1 ∧ sext 6 0x1f = 31 ∧ sext 6 0x20 = -32 ∧ sext 12 0x800 = -2048 ∧ sext 64 0x8000000000000000 = -2 ^ 63 := by
  decide

/-! ### FIND_FORMAT (section 5) -/

/-- The record of M1. -/
def recordM1 : DecodedInsn :=
  { operands := [⟨2, regFlag⟩, ⟨1, regFlag⟩, ⟨3, regFlag⟩], len := 4, cls := .label "ARITH" }

/-- The record of M13. -/
def recordM13 : DecodedInsn :=
  { operands := [⟨5, regFlag⟩, ⟨13, regFlag⟩, ⟨-4, { signed := true }⟩], aa := 3, zz := 2, di := true, x := true, len := 4,
    cls := .label "LOAD" }

/-- The record of M31. -/
def recordM31 : DecodedInsn :=
  { operands := [⟨-8, { signed := true, aligned32 := true }⟩], d := true, len := 4, cls := .label "BRANCH" }

/-- M1, M11, M13, M31, M8 with M9: the accepted records. -/
theorem test_find_format_found :
    findFormat SYN 0x210000C2 .four 4 = some (1, recordM1) ∧
    findFormat SYN 0x21C080C2 .four 4 = some (4,
      { operands := [⟨1, regFlag⟩, ⟨1, { reg := true, duplicate := true }⟩, ⟨3, regFlag⟩], cc := 2, f := true, len := 4,
        cls := .label "ARITH" }) ∧
    findFormat SYN 0x15FC9F45 .four 1 = some (6, recordM13) ∧ findFormat SYN 0x0FFAFFEF .four 2 = some (7, recordM31) ∧
    (findFormat SYN 0x21C000C1 .four 4).map (fun r => (r.1, r.2.cc)) = some (4, 1) ∧
    (findFormat SYN 0x21C000C0 .four 4).map (fun r => (r.1, r.2.cc)) = some (4, 0) := by decide

/-- M3, M4, M10, M14, M19, M21, M27: the rejections, one rule each; and the answer of an accepted and a missed word. -/
theorem test_find_format_rejected :
    findFormat SYN 0x21000F82 .four 2 = none ∧ findFormat SYN 0x26007F82 .four 4 = none ∧
    findFormat SYN 0x21C000C4 .four 4 = none ∧ findFormat SYN 0x10000180 .four 4 = none ∧
    findFormat SYN 0x701E .two 8 = none ∧ findFormat { SYN with limmSentinel2BLegacy := some 0x1e } 0x701E .two 2 = none ∧
    findFormat SYN 0x7EE0 .four 4 = none ∧
    answerOf (exec (.findFormat 0x78E0 .two 4) (st [])) = okAnswer (.found 10) ∧
    endOf (exec (.findFormat 0 .four 4) (st [])) = some (1, false, []) := by decide

/-! ### READ_AND_DECODE (section 6) -/

/-- D1v: the record, the three program counters, the two reads. -/
theorem test_decode_d1v :
    ctxOf (exec (.readAndDecode 0x100 4) (st (unitsAt 0x100 [0x711E, 0x1234, 0x5678]))) = some
      { currentPc := 0x100, nextPc := 0x106, alignedPc := 0x100, cpuVariant := 4
        decoded := { operands := [⟨1, regFlag⟩, ⟨0, { limm := true }⟩], limmP := true, limm := 0x12345678, len := 6,
                     cls := .label "MOVE" } } ∧
    logOf (exec (.readAndDecode 0x100 4) (st (unitsAt 0x100 [0x711E, 0x1234, 0x5678]))) =
      [.read .read16 0x100, .read .read32 0x102] := by decide

/-- D13v wraps past the top; D6v and D10v are fatal; D7v is a miss; an unlisted byte aborts. -/
theorem test_decode_edges :
    (ctxOf (exec (.readAndDecode 0xFFFFFFFC 4) (st [(0, 0xFE), (1, 0xFF), (0xFFFFFFFC, 0x1E), (0xFFFFFFFD, 0x71),
      (0xFFFFFFFE, 0xFF), (0xFFFFFFFF, 0xFF)]))).map (fun c => (c.decoded.limm, c.nextPc, c.alignedPc)) =
        some (-2, 2, 0xFFFFFFFC) ∧
    endOf (exec (.readAndDecode 6 2) (st (unitsAt 6 [0x5000]))) = some (5, true, []) ∧
    endOf (exec (.readAndDecode 0 5) (st (unitsAt 0 [0x5000]))) = some (2, true, []) ∧
    endOf (exec (.readAndDecode 6 8) (st (unitsAt 6 [0x5000]))) = some (1, false, []) ∧
    endOf (exec (.readAndDecode 6 8) (st [(6, 0)])) = some (7, false, []) := by decide

/-! ### DISPATCH (section 7) -/

/-- The record of M12. -/
def recordM12 : DecodedInsn := { operands := [⟨1, regFlag⟩, ⟨5, regFlag⟩], len := 4, cls := .label "ARITH" }

/-- The record of D1v. -/
def recordD1 : DecodedInsn :=
  { operands := [⟨1, regFlag⟩, ⟨0, { limm := true }⟩], limmP := true, limm := 0x12345678, len := 6, cls := .label "MOVE" }

/-- S2, S3, S7: the trace without the handler's own entry, and how the operation ends. -/
theorem test_dispatch_traces :
    (logOf (exec (.dispatch 8) (ready SYN 8 recordD1))) =
      [.regHandle 1, .limmHandle 0x12345678 0,
        .handler "MOV" (ready SYN 8 recordD1).dec.ctx [.reg 1, .temp 0], .release 0] ∧
    (logOf (exec (.dispatch 5) (ready SYN 5 recordM12))) =
      [.regHandle 1, .regHandle 5, .constHandle 1 0,
        .handler "ASL" (ready SYN 5 recordM12).dec.ctx [.reg 1, .reg 5, .temp 0], .release 0] ∧
    endOf (exec (.dispatch 5) (ready SYN 5 recordM12)) = some (0, false, []) ∧
    (logOf (exec (.dispatch 12) (ready SYN 12 { cls := .label "KERNEL" }))).length = 1 := by decide

/-- S9, S10, S12: the three fatal ends. -/
theorem test_dispatch_fatal :
    endOf (exec (.dispatch 5) (ready { SYN with tMnemonicMap := [] } 5 recordM12)) = some (3, true, []) ∧
    endOf (exec (.dispatch 5) (ready { SYN with tHandlers := [] } 5 recordM12)) = some (4, true, []) ∧
    endOf (exec (.dispatch 5) (ready { SYN with tHandlers := [⟨"ASL", 4, "ASL"⟩] } 5 recordM12)) = some (6, true, []) ∧
    logOf (exec (.dispatch 5) (ready { SYN with tHandlers := [⟨"ASL", 4, "ASL"⟩] } 5 recordM12)) =
      [.regHandle 1, .regHandle 5, .constHandle 1 0, .release 0,
        .diag { kind := .fatalConfiguration, mnemonic := some "asl", address := some 0x100, value := some 3 }] := by decide

/-! ### RESET, the reserved codes, a step -/

/-- RESET from the halted state; a halted DEC answers HALTED and keeps its fatal code; ILLEGAL_OP. -/
theorem test_reset_and_reserved :
    endOf (exec .reset stHalted) = some (0, false, []) ∧ endOf (exec (.extract 0 0) stHalted) = some (2, true, []) ∧
    answerOf (exec .reserved110 stHalted) = some { outcome := some .halted, info := .nothing, out := .nothing } ∧
    endOf (exec .reserved111 (st [])) = some (8, false, []) := by decide

/-- The answer of a first operation and, in the state it leaves, of a second. -/
def thenExec (r : Result) (i : Instr) : Result :=
  match r with
  | .next s => exec i s
  | .fault f => .fault f
  | .refused x => .refused x

/-- 93 U15, U4: the template of a bare FIND_FORMAT is no template of DISPATCH, neither right after reset nor after a
READ_AND_DECODE; after a successful READ_AND_DECODE its own template is, and no other. -/
theorem test_dispatch_follows_decode :
    refusalOf (thenExec (exec (.findFormat 0x210000C2 .four 4) (st [])) (.dispatch 1)) = some .unwrittenContext ∧
    refusalOf (thenExec (exec (.findFormat 0x210000C2 .four 4) (ready SYN 1 recordM1)) (.dispatch 1)) = some .staleTemplate ∧
    refusalOf (thenExec (exec (.readAndDecode 0x106 8) (st (unitsAt 0x106 [0x2100, 0xC2]))) (.dispatch 2)) =
      some .staleTemplate ∧
    isNext (thenExec (exec (.readAndDecode 0x106 8) (st (unitsAt 0x106 [0x2100, 0xC2]))) (.dispatch 1)) = true := by decide

/-- U4, U3: after reset and a decode miss, and after an abort, the context has fields nothing has written. -/
theorem test_dispatch_of_unwritten_context :
    refusalOf (thenExec (exec (.readAndDecode 0 8) (st (unitsAt 0 [0, 0]))) (.dispatch 0)) = some .unwrittenContext ∧
    refusalOf (thenExec (exec (.readAndDecode 0 8) (ready SYN 1 recordM1)) (.dispatch 1)) = some .unwrittenContext := by
  decide

/-- The first command after reset is the word presented; DISPATCH has no context yet (R43). -/
theorem test_step_after_reset :
    isNext (step (State.reset.withFetchWord 8 0)) = true ∧ isNext (step (State.reset.withFetchWord 8 2)) = true ∧
    refusalOf (step (State.reset.withFetchWord 8 3)) = some .unwrittenContext ∧
    isNext (step (State.reset.withFetchWord 8 5)) = true ∧
    isNext (step (State.reset.withFetchWord 16 0x5800)) = true := by decide

/-! ### Witnesses: the hypotheses of the statements can be met -/

/-- A result is a next state that passes a test. -/
def nextWith (r : Result) (p : State → Bool) : Bool :=
  match r with
  | .next s => p s
  | _ => false

theorem exists_next {r : Result} {p : State → Bool} (h : nextWith r p = true) : ∃ t, r = .next t ∧ p t = true := by
  cases r with
  | next s => exact ⟨s, rfl, h⟩
  | fault f => cases h
  | refused f => cases h

theorem witness_DecodeInvertsEncode :
    (Instr.dispatch 0xFFFFFFFF).wellFormed = true ∧ (Instr.extract (-1) 0xFFFFFFFF).wellFormed = true ∧
    (Instr.lenLegacyMajor0B 0x5FFF 2).wellFormed = true ∧ (Instr.lenCurrentMajor10To1F 0xFFFF 8).wellFormed = true ∧
    (Instr.templateLen8 (-1)).wellFormed = true ∧ (Instr.limmSentinel2BCurrent 4).wellFormed = true ∧
    (Instr.limmSentinel2BLegacy (-1) 3).wellFormed = true := by decide

theorem witness_EncodeInvertsDecode :
    decode [0x0F, 9] = .ok (.regShorthandCode7, [9]) ∧ decode [0x1E, 11] = .ok (.limmSentinel2BCurrent 15, []) := ⟨rfl, rfl⟩

theorem witness_StepRunsDecodedCommand :
    decode (stCmds [5, 6]).port.cmds = .ok (.reset, [6]) ∧ (st []).port.cmds = [] ∧
    (stCmds [0x11]).port.cmds ≠ [] ∧ decode (stCmds [0x11]).port.cmds = .error (.unknownSelector 0x11) :=
  ⟨rfl, rfl, by decide, rfl⟩

theorem witness_ClassifyVariants :
    (st []).dec.halted = false ∧ (0x4 : VariantMask) = VariantMask.em ∧ (0x8 : VariantMask) = VariantMask.hs ∧
    (0x1 : VariantMask) = VariantMask.a600 ∧ (0x2 : VariantMask) = VariantMask.a700 := by decide

theorem witness_ClassifyUnrecognisedVariantIsFatal :
    ∀ v ∈ [(0 : VariantMask), 3, 5, 6, 15], v ∉ [VariantMask.a600, VariantMask.a700, VariantMask.em, VariantMask.hs] := by
  decide

theorem witness_LegacyLengthRows :
    (Instr.lenLegacyMajor00To07 0x3FFF 1).wellFormed = true ∧ (Instr.lenLegacyMajor08To09 0x4000 2).wellFormed = true ∧
    (Instr.lenLegacyMajor08To09 0x4FFF 2).wellFormed = true ∧ (Instr.lenLegacyMajor0A 0x5000 1).wellFormed = true ∧
    (Instr.lenLegacyMajor0B 0x5800 1).wellFormed = true ∧ (Instr.lenLegacyMajor0CTo0F 0x6000 2).wellFormed = true ∧
    (Instr.lenLegacyMajor0CTo0F 0x7FFF 2).wellFormed = true ∧ (Instr.lenLegacyMajor10To1F 0x8000 1).wellFormed = true := by
  decide

theorem witness_CurrentLengthRows :
    (Instr.lenCurrentMajor00To07 0x3FFF 4).wellFormed = true ∧ (Instr.lenCurrentMajor08To0F 0x4000 8).wellFormed = true ∧
    (Instr.lenCurrentMajor08To0F 0x7FFF 8).wellFormed = true ∧ (Instr.lenCurrentMajor10To1F 0x8000 4).wellFormed = true := by
  decide

theorem witness_EveryUnitLiesInOneRow :
    isLegacyVariant 1 = true ∧ isLegacyVariant 2 = true ∧ isCurrentVariant 4 = true ∧ isCurrentVariant 8 = true := by decide

theorem witness_TemplateLengthRows :
    (Instr.templateLen2 0).wellFormed = true ∧ (Instr.templateLen2 0xFFFF).wellFormed = true ∧
    (Instr.templateLen4 0x10000).wellFormed = true ∧ (Instr.templateLen4 0xFFFFFFFF).wellFormed = true ∧
    (Instr.templateLen6 0x100000000).wellFormed = true ∧ (Instr.templateLen6 0xFFFFFFFFFFFF).wellFormed = true ∧
    (Instr.templateLen8 0x1000000000000).wellFormed = true := by decide

theorem witness_SentinelRows :
    (Instr.limmSentinel2BCurrent 6).wellFormed = true ∧ (Instr.limmSentinel2BLegacy 30 3).wellFormed = true ∧
    (Instr.limmSentinel2BLegacy 30 0).wellFormed = true := by decide

/-! #### Descriptors -/

/-- SYN with an unsigned field scaled by 2, and a descriptor R21 (d) forbids. -/
def synMore : Params :=
  { SYN with
    tOperands :=
      [ { bitWidth := 7, shift := 0, flags := { unsigned := true, aligned16 := true },
          extract := some (.field [⟨5, 0, 0⟩] false 6 .two) },
        { bitWidth := 3, shift := 0, flags := { signed := true } } ] }

theorem witness_ExtractPlainRead :
    (∃ d, (st []).cfg.tOperands[2]? = some d ∧ descriptorWf d = true ∧ d.extract = none) ∧
    ∃ d, (st []).cfg.tOperands[4]? = some d ∧ descriptorWf d = true ∧ d.extract = none ∧ d.bitWidth = 0 :=
  ⟨⟨_, rfl, by decide, rfl⟩, _, rfl, by decide, rfl, rfl⟩

theorem witness_ExtractFixedRegister :
    ∃ d, (st []).cfg.tOperands[11]? = some d ∧ descriptorWf d = true ∧ d.extract = some (.fixed .blink) :=
  ⟨_, rfl, by decide, rfl⟩

theorem witness_ExtractShorthandRegister :
    ∃ d, (st []).cfg.tOperands[9]? = some d ∧ descriptorWf d = true ∧ d.extract = some (.shorthand .rbs 8) :=
  ⟨_, rfl, by decide, rfl⟩

theorem witness_ExtractRegB :
    ∃ d, (st []).cfg.tOperands[1]? = some d ∧ descriptorWf d = true ∧ d.extract = some (.regB groupsRb) :=
  ⟨_, rfl, by decide, rfl⟩

theorem witness_ExtractSplitField :
    (∃ d, (st []).cfg.tOperands[7]? = some d ∧ descriptorWf d = true ∧
      d.extract = some (.field groupsS25 true 23 .four)) ∧
    ∃ d, (stOf synMore []).cfg.tOperands[0]? = some d ∧ descriptorWf d = true ∧
      d.extract = some (.field [⟨5, 0, 0⟩] false 6 .two) :=
  ⟨⟨_, rfl, by decide, rfl⟩, _, rfl, by decide, rfl⟩

theorem witness_SignExtensionIsTwosComplement :
    1 ≤ 1 ∧ 1 ≤ 64 ∧ 1 < 2 ^ 1 ∧ 64 ≤ 64 ∧ 0xFFFFFFFFFFFFFFFF < 2 ^ 64 := by decide

theorem witness_FieldConstructionRoundTrip :
    groupsCover groupsS25 23 = true ∧ GroupsApart groupsS25 ∧ 0x7FFFFF < 2 ^ 23 := by
  refine ⟨by decide, ?_, by decide⟩
  simp [GroupsApart, groupsS25]

theorem witness_ExtractRefusals :
    (st []).cfg.tOperands.length ≤ 14 ∧
    (∃ d, (stOf synMore []).cfg.tOperands[1]? = some d ∧ DescriptorBroken d) ∧
    ∃ d, (st []).cfg.tOperands[7]? = some d ∧ ¬DescriptorBroken d := by
  refine ⟨by decide, ⟨_, rfl, (descriptorWf_eq_false_iff _).mp (by decide)⟩, _, rfl, fun h => ?_⟩
  exact absurd ((descriptorWf_eq_false_iff _).mpr h) (by decide)

/-! #### The matcher -/

/-- Both outcomes occur: M1 finds T2, M16 finds nothing. -/
theorem witness_FindFormatReturnsFirstSurvivor :
    (st []).dec.halted = false ∧ tablesWf (st []).cfg = true ∧ findFormat SYN 0x210000C2 .four 4 = some (1, recordM1) ∧
    findFormat SYN 0 .four 4 = none := by decide

theorem witness_DecodingRefusals :
    tablesWf (stOf synBroken []).cfg = false ∧ (0x101 : Addr).toNat % 2 = 1 ∧ (0x100 : Addr).toNat % 2 = 0 ∧
    (stOf synBroken (unitsAt 0x100 [0x78E0])).bus.arrive.unitAt false 0x100 = some 0x78E0 ∧
    classifyLength synBroken 0x78E0 4 = some .two ∧
    (stOf synBroken (unitsAt 0x100 [0x2100, 0xC2])).bus.arrive.unitAt false 0x100 = some 0x2100 ∧
    classifyLength synBroken 0x2100 4 = some .four ∧
    (stOf synBroken (unitsAt 0x100 [0x2100, 0xC2])).bus.arrive.arrive.unitAt false 0x102 = some 0xC2 := by decide

/-- A returned record with a plain register operand, at length 4, at length 2 under EM, and at length 2 under A700. -/
theorem witness_SentinelIsNeverReturned :
    (∃ t, exec (.findFormat 0x210000C2 .four 4) (st []) = .next t ∧
      decide (t.port.answer.out = .found 1 ∧ (⟨2, regFlag⟩ : Operand) ∈ t.dec.ctx.decoded.operands) = true) ∧
    (∃ t, exec (.findFormat 0x711E .two 4) (st []) = .next t ∧
      decide (t.port.answer.out = .found 8 ∧ (⟨1, regFlag⟩ : Operand) ∈ t.dec.ctx.decoded.operands) = true) ∧
    meetsCurrent 4 = true ∧
    (∃ t, exec (.findFormat 0x711E .two 2) (stOf { SYN with limmSentinel2BLegacy := some 0x3e } []) = .next t ∧
      decide (t.port.answer.out = .found 9 ∧ (⟨0x1e, regFlag⟩ : Operand) ∈ t.dec.ctx.decoded.operands) = true) ∧
    meetsCurrent 2 = false :=
  ⟨exists_next (by decide), exists_next (by decide), by decide, exists_next (by decide), by decide⟩

theorem witness_FindFormatIgnoresOldState :
    (st []).dec.halted = false ∧ (ready SYN 6 recordM13).dec.halted = false ∧ (st []).cfg = (ready SYN 6 recordM13).cfg ∧
    (st []).dec.ctx.decoded ≠ (ready SYN 6 recordM13).dec.ctx.decoded := by decide

theorem witness_AllZeroWordIsIllegal : AllZeroReserved (st []).cfg .four 4 := by
  obtain ⟨t, T, -, -, -, h⟩ | ⟨h, -⟩ := findFormat_spec syn_wf 0 .four 4
  · exact absurd h (by rw [show findFormat SYN 0 .four 4 = none by decide]; simp)
  · exact h

theorem witness_ImplicitClassCopiesFirstCode :
    classAlways.kind.implicit = true ∧ membersOf SYN classAlways = [⟨"al", 0, 0, 0, false⟩] := by decide

theorem witness_MatchingMemberAppliesEveryKind :
    classCc.kind.implicit = false ∧
    membersOf SYN classCc = [⟨"eq", 1, 5, 0, false⟩] ++ ⟨"ne", 2, 5, 0, false⟩ :: [⟨"p", 3, 5, 0, false⟩] ∧
    (0x21C000C2 : Word).toNat / 2 ^ 0 % 2 ^ 5 = 2 ∧ (0x21C000C2 : Word).toNat / 2 ^ 0 % 2 ^ 5 ≠ 3 := by decide

theorem witness_UnexplainedFlagsReject :
    (∀ m ∈ membersOf SYN classCc, (0x21C000C4 : Word).toNat / 2 ^ m.shift % 2 ^ m.bitWidth ≠ m.code) ∧
    (∃ m ∈ membersOf SYN classCc, (0x21C000C4 : Word).toNat / 2 ^ m.shift % 2 ^ m.bitWidth ≠ 0) ∧
    (∀ m ∈ membersOf SYN classCc, (0x21C000C0 : Word).toNat / 2 ^ m.shift % 2 ^ m.bitWidth ≠ m.code) ∧
    ∀ m ∈ membersOf SYN classCc, (0x21C000C0 : Word).toNat / 2 ^ m.shift % 2 ^ m.bitWidth = 0 := by decide

/-! #### Reads -/

/-- Four bytes across the top of the address space. -/
def busTop : Accessor := { mem := [(0, 3), (1, 4), (0xFFFFFFFE, 1), (0xFFFFFFFF, 2)], edits := [] }

theorem witness_ByteLayoutOfUnitsAndWords :
    busTop.byteAt 0xFFFFFFFE = some 1 ∧ busTop.byteAt (0xFFFFFFFE + 1) = some 2 ∧ busTop.byteAt (0xFFFFFFFE + 2) = some 3 ∧
    busTop.byteAt (0xFFFFFFFE + 3) = some 4 := by decide

/-- D11v, without a long immediate, and D1v, with one. -/
theorem witness_DecodeTwoByteInstruction :
    ((st (unitsAt 0xFFFFFFFE [0x78E0])).bus.arrive.unitAt false 0xFFFFFFFE = some 0x78E0 ∧
      classifyLength SYN 0x78E0 4 = some .two ∧
      (findFormat SYN (BitVec.ofNat 64 0x78E0) .two 4).map (fun r => (r.1, r.2.limmP)) = some (10, false)) ∧
    (st (unitsAt 0x100 [0x711E, 0x1234, 0x5678])).bus.arrive.unitAt false 0x100 = some 0x711E ∧
    (findFormat SYN (BitVec.ofNat 64 0x711E) .two 4).map (fun r => (r.1, r.2.limmP)) = some (8, true) ∧
    (st (unitsAt 0x100 [0x711E, 0x1234, 0x5678])).bus.arrive.arrive.unitAt false 0x102 = some 0x1234 ∧
    (st (unitsAt 0x100 [0x711E, 0x1234, 0x5678])).bus.arrive.arrive.unitAt false 0x104 = some 0x5678 := by decide

/-- D2v, without a long immediate, and D3v, with one. -/
theorem witness_DecodeFourByteInstruction :
    ((st (unitsAt 0x106 [0x2100, 0xC2])).bus.arrive.unitAt false 0x106 = some 0x2100 ∧
      classifyLength SYN 0x2100 8 = some .four ∧
      (st (unitsAt 0x106 [0x2100, 0xC2])).bus.arrive.arrive.unitAt false 0x108 = some 0xC2 ∧
      (findFormat SYN (BitVec.ofNat 64 (0x2100 * 2 ^ 16 + 0xC2)) .four 8).map (fun r => (r.1, r.2.limmP)) =
        some (1, false)) ∧
    (findFormat SYN (BitVec.ofNat 64 (0x2100 * 2 ^ 16 + 0xF82)) .four 8).map (fun r => (r.1, r.2.limmP)) = some (0, true) ∧
    (st (unitsAt 0x406 [0x2100, 0xF82, 0x8000, 1])).bus.arrive.arrive.arrive.unitAt false 0x40A = some 0x8000 ∧
    (st (unitsAt 0x406 [0x2100, 0xF82, 0x8000, 1])).bus.arrive.arrive.arrive.unitAt false 0x40C = some 1 := by decide

/-- D5v and D4v. -/
theorem witness_DecodeMissReturnsFalse :
    (st (unitsAt 4 [0x701E])).bus.arrive.unitAt false 4 = some 0x701E ∧ classifyLength SYN 0x701E 8 = some .two ∧
    findFormat SYN (BitVec.ofNat 64 0x701E) .two 8 = none ∧
    (st (unitsAt 0 [0, 0])).bus.arrive.unitAt false 0 = some 0 ∧ classifyLength SYN 0 8 = some .four ∧
    (st (unitsAt 0 [0, 0])).bus.arrive.arrive.unitAt false 2 = some 0 ∧
    findFormat SYN (BitVec.ofNat 64 (0 * 2 ^ 16 + 0)) .four 8 = none := by decide

/-- D10v, D6v, D9v. -/
theorem witness_DecodeFatalConditions :
    (st (unitsAt 6 [0x5000])).bus.arrive.unitAt false 6 = some 0x5000 ∧ classifyLength SYN 0x5000 5 = none ∧
    classifyLength SYN 0x5000 2 = some .eight ∧ classifyLength synG1 0x5800 2 = some .six := by decide

/-- The first, the second and the long-immediate read refused, the last at lengths 2 and 4. -/
theorem witness_RefusedReadAborts :
    (st []).bus.arrive.unitAt false 0x100 = none ∧
    (st (unitsAt 0x100 [0x2100])).bus.arrive.unitAt false 0x100 = some 0x2100 ∧
    (st (unitsAt 0x100 [0x2100])).bus.arrive.arrive.unitAt false 0x102 = none ∧
    (st (unitsAt 0x100 [0x711E, 1])).bus.arrive.unitAt false 0x100 = some 0x711E ∧
    (findFormat SYN (BitVec.ofNat 64 0x711E) .two 4).map (fun r => r.2.limmP) = some true ∧
    (st (unitsAt 0x100 [0x711E, 1])).bus.arrive.arrive.wordAt false 0x102 = none ∧
    (findFormat SYN (BitVec.ofNat 64 (0x2100 * 2 ^ 16 + 0xF82)) .four 8).map (fun r => r.2.limmP) = some true ∧
    (st (unitsAt 0x100 [0x2100, 0xF82])).bus.arrive.arrive.unitAt false 0x102 = some 0xF82 ∧
    (st (unitsAt 0x100 [0x2100, 0xF82])).bus.arrive.arrive.arrive.wordAt false 0x104 = none := by decide

theorem witness_ReturnedTemplateHasClassifiedLength :
    ∃ t, exec (.readAndDecode 0x106 8) (st (unitsAt 0x106 [0x2100, 0xC2])) = .next t ∧
      decide (t.port.answer.out = .decoded 1) = true := exists_next (by decide)

theorem witness_DecodeKeepsNothingFromBefore :
    (st []).dec.halted = false ∧ (ready SYN 6 recordM13).dec.halted = false ∧ (st []).cfg = (ready SYN 6 recordM13).cfg ∧
    (st []).bus = (ready SYN 6 recordM13).bus ∧ (st []).dec.ctx ≠ (ready SYN 6 recordM13).dec.ctx := by decide

/-! #### DISPATCH -/

/-- `ready` meets DISPATCH's contract. -/
theorem dispatchable_ready {P : Params} {k : Nat} {T : OpcodeTemplate} (c : DecodedInsn) (hw : tablesWf P = true)
    (hT : P.tOpcodes[k]? = some T) : Dispatchable (ready P k c) k T := ⟨rfl, rfl, rfl, hw, hT⟩

theorem witness_DispatchWithoutMapping :
    ∃ T, Dispatchable (ready { SYN with tMnemonicMap := [] } 5 recordM12) 5 T ∧
      mappingOf { SYN with tMnemonicMap := [] } T.mnemonic = none :=
  ⟨_, dispatchable_ready _ (by decide) rfl, by decide⟩

theorem witness_DispatchWithoutHandler :
    ∃ T, Dispatchable (ready { SYN with tHandlers := [] } 5 recordM12) 5 T ∧
      mappingOf { SYN with tHandlers := [] } T.mnemonic = some "ASL" ∧ specialOf { SYN with tHandlers := [] } "ASL" = none ∧
      handlerOf { SYN with tHandlers := [] } "ASL" = none :=
  ⟨_, dispatchable_ready _ (by decide) rfl, by decide, by decide, by decide⟩

theorem witness_DispatchSpecialHandler :
    ∃ T, Dispatchable (ready SYN 12 { cls := .label "KERNEL" }) 12 T ∧ mappingOf SYN T.mnemonic = some "TRAP" ∧
      specialOf SYN "TRAP" = some .syscallTrap :=
  ⟨_, dispatchable_ready _ syn_wf rfl, by decide, by decide⟩

/-- A decoded register at positions 0 and 1, a registered default at position 2. -/
theorem positionsReady_asl : ∀ p < 3, PositionReady SYN "ASL" recordM12 p := by
  intro p hp
  obtain rfl | rfl | rfl : p = 0 ∨ p = 1 ∨ p = 2 := by omega
  · exact fun _ => by decide
  · exact fun _ => by decide
  · show (constOperand SYN "ASL" 2).isSome = true
    decide

theorem witness_DispatchGenericHandler :
    ∃ T e, Dispatchable (ready SYN 5 recordM12) 5 T ∧ (ready SYN 5 recordM12).dec.liveTemps = [] ∧
      mappingOf SYN T.mnemonic = some "ASL" ∧ specialOf SYN "ASL" = none ∧ handlerOf SYN "ASL" = some e ∧
      ∀ p < e.arity, PositionReady SYN "ASL" recordM12 p :=
  ⟨_, _, dispatchable_ready _ syn_wf rfl, rfl, by decide, by decide, (by decide : _ = some ⟨"ASL", 3, "ASL"⟩),
    positionsReady_asl⟩

/-- S11: no default at position 2. -/
theorem witness_DispatchWithoutDefault :
    ∃ T e, Dispatchable (ready { SYN with tConstOperands := [] } 5 recordM12) 5 T ∧
      mappingOf { SYN with tConstOperands := [] } T.mnemonic = some "ASL" ∧
      specialOf { SYN with tConstOperands := [] } "ASL" = none ∧
      handlerOf { SYN with tConstOperands := [] } "ASL" = some e ∧ 2 < e.arity ∧
      (∀ q < 2, PositionReady { SYN with tConstOperands := [] } "ASL" recordM12 q) ∧ recordM12.nOps ≤ 2 ∧
      constOperand { SYN with tConstOperands := [] } "ASL" 2 = none := by
  refine ⟨_, _, dispatchable_ready _ (by decide) rfl, by decide, by decide, (by decide : _ = some ⟨"ASL", 3, "ASL"⟩),
    by decide, fun q hq => ?_, by decide, by decide⟩
  obtain rfl | rfl : q = 0 ∨ q = 1 := by omega
  · exact fun _ => by decide
  · exact fun _ => by decide

/-- The record of M12 with a register number outside the file at position 1. -/
def recordOutside (v : I64) : DecodedInsn :=
  { operands := [⟨1, regFlag⟩, ⟨v, regFlag⟩], len := 4, cls := .label "ARITH" }

theorem witness_DispatchRefusals :
    (st []).ghost.ctxWritten = false ∧
    ((ready SYN 5 recordM12).ghost.ctxWritten = true ∧ (ready SYN 5 recordM12).ghost.armed ≠ some 4) ∧
    ((ready SYN 13 recordM12).ghost.armed = some 13 ∧ (ready SYN 13 recordM12).ghost.ctxWritten = true ∧
      tablesWf SYN = true ∧ SYN.tOpcodes.length ≤ 13) ∧
    ((ready synBroken 5 recordM12).ghost.armed = some 5 ∧ (ready synBroken 5 recordM12).ghost.ctxWritten = true ∧
      tablesWf (ready synBroken 5 recordM12).cfg = false) ∧
    (∀ v : I64, v = -1 ∨ v = 64 →
      ∃ T o, Dispatchable (ready SYN 5 (recordOutside v)) 5 T ∧ mappingOf SYN T.mnemonic = some "ASL" ∧
        (∀ q < 1, PositionReady SYN "ASL" (recordOutside v) q) ∧ (recordOutside v).operands[1]? = some o ∧
        o.type.reg = true ∧ (o.value.toInt < 0 ∨ (SYN.numRegs : Int) ≤ o.value.toInt)) ∧
    (writesContext (.findFormat 0x210000C2 .four 4) = true ∧
      ∃ t, exec (.findFormat 0x210000C2 .four 4) (ready SYN 5 recordM12) = .next t ∧
        decide (t.dec.halted = false ∧ t.port.answer.out ≠ .decoded 1) = true) := by
  refine ⟨rfl, ⟨rfl, by decide⟩, ⟨rfl, rfl, syn_wf, by decide⟩, ⟨rfl, rfl, synBroken_not_wf⟩,
    fun v hv => ⟨_, ⟨v, regFlag⟩, dispatchable_ready _ syn_wf rfl, by decide, fun q hq => ?_, rfl, rfl, ?_⟩, rfl,
    exists_next (by decide)⟩
  · obtain rfl : q = 0 := by omega
    exact fun _ => by decide
  · obtain rfl | rfl := hv <;> decide

theorem witness_TablesInStepNeverSkewed : TablesInStep SYN := by
  have h : SYN.tOpcodes.all (fun T => match mappingOf SYN T.mnemonic with
      | some map => (specialOf SYN map).isSome || (handlerOf SYN map).isSome
      | none => false) = true := by decide
  intro T hT
  have := List.all_eq_true.mp h T hT
  split at this
  · rename_i map hm
    exact ⟨map, hm, by simpa using this⟩
  · cases this

/-! #### Every operation -/

theorem witness_HaltedAnswersHalted : stHalted.dec.halted = true ∧ Instr.classify 0 4 ≠ .reset := by decide

theorem witness_EveryCommandReturnsItsStatus :
    (∃ t, exec (.findFormat 0 .four 4) (st []) = .next t ∧ decide (t.dec.status = .decodeMiss) = true) ∧
    ∃ t, exec .reserved110 stHalted = .next t ∧ decide (t.port.answer.outcome = some .halted) = true :=
  ⟨exists_next (by decide), exists_next (by decide)⟩

theorem witness_HaltedRisesOnlyWithDiagnostic :
    (st []).dec.halted = false ∧ ∃ t, exec (.classify 0 0) (st []) = .next t ∧ t.dec.halted = true :=
  ⟨rfl, exists_next (by decide)⟩

theorem witness_MemoryFrame :
    (∀ pc v, Instr.dispatch 5 ≠ .readAndDecode pc v) ∧
      ∃ t, exec (.dispatch 5) (ready SYN 5 recordM12) = .next t ∧ decide (t.dec.status = .ok) = true :=
  ⟨by simp, exists_next (by decide)⟩

theorem witness_AnswerOnlyFrame :
    onlyAnswers (.extract 0 2) = true ∧ onlyAnswers .reserved110 = true ∧ onlyAnswers .regShorthandCode0 = true ∧
      ∃ t, exec (.extract 0 2) (st []) = .next t ∧ decide (t.dec.status = .ok) = true :=
  ⟨rfl, rfl, rfl, exists_next (by decide)⟩

theorem witness_FindFormatFrame :
    ∃ t, exec (.findFormat 0x210000C2 .four 4) (st []) = .next t ∧ decide (t.dec.ctx.decoded = recordM1) = true :=
  exists_next (by decide)

theorem witness_ReadAndDecodeFrame :
    (st (unitsAt 0x106 [0x2100, 0xC2])).dec.halted = false ∧ (st (unitsAt 0x106 [0x2100, 0xC2])).bus.edits = [] ∧
      ∃ t, exec (.readAndDecode 0x106 8) (st (unitsAt 0x106 [0x2100, 0xC2])) = .next t ∧
        decide (t.dec.ctx.decoded = recordM1) = true :=
  ⟨rfl, rfl, exists_next (by decide)⟩

theorem witness_DispatchFrame :
    (ready SYN 5 recordM12).dec.liveTemps = [] ∧ (ready SYN 5 recordM12).dec.halted = false ∧
      ∃ t, exec (.dispatch 5) (ready SYN 5 recordM12) = .next t ∧ decide (t.nextTemp = 1) = true :=
  ⟨rfl, rfl, exists_next (by decide)⟩

/-- A state with a template to dispatch, a byte of memory, and DISPATCH presented. -/
def stBusy : State :=
  { ready SYN 5 recordM12 with
    bus := { mem := [(7, 9)], edits := [[⟨7, none⟩, ⟨8, some 1⟩]] }
    port := { (ready SYN 5 recordM12).port with cmds := [3, 5, 0, 0, 0] } }

theorem witness_StepKeepsInvariant :
    Inv stBusy ∧ ∃ t, step stBusy = .next t ∧ decide (t.dec.status = .ok ∧ t.port.cmds = []) = true := by
  refine ⟨⟨rfl, rfl, rfl, by decide, by decide, fun t ht => ?_, fun t _ => by decide⟩, exists_next (by decide)⟩
  cases ht
  exact ⟨_, rfl, rfl⟩

/-- READ_AND_DECODE presented, a change by another agent landing before its first read. -/
theorem witness_MemoryChangesOnlyByOthers :
    ∃ t, step { stBusy with port := { stBusy.port with cmds := [2, 8, 0, 0, 0, 4] } } = .next t ∧
      decide (t.bus.mem = [(8, 1)] ∧ t.log = [.read .read16 8] ∧ t.dec.status = .aborted) = true :=
  exists_next (by decide)

end Sys2Proof.Tests
end

section
/-! ### Proofs about the state (10_state.md): reset, the invariant, what the tables break

The invariant is proved the way `ExecNext` lists next states: one lemma per shared update of the state, then one
line per way an operation ends. -/

namespace Sys2Proof.Machine

/-! #### Right after reset -/

/-- Settles O48: the reset values, read off `State.reset`. -/
theorem resetStateValues : Obligations.ResetStateValues := ⟨rfl, rfl, rfl, rfl, rfl, rfl, rfl⟩

/-- Settles O58: nothing is armed and the record is `ZERO_INSN`, so each clause is immediate. -/
theorem resetMeetsInvariant : Obligations.ResetMeetsInvariant where
  memory := reset_memory_wf
  temps := rfl
  latch := rfl
  unwritten := by simp [State.reset]
  capacity := Nat.zero_le _
  armed := by simp [State.reset]
  whole := by simp [State.reset]

/-! #### Updates of the state that keep the invariant -/

/-- With no template armed, the clauses about the armed template say nothing. -/
theorem inv_of_unarmed {s : State} (hm : Memory.wf s.bus.mem = true) (hl : s.dec.liveTemps = [])
    (hh : s.dec.halted = s.dec.status.isFatal) (hu : s.dec.status ≠ .halted)
    (hc : s.dec.ctx.decoded.nOps ≤ s.cfg.maxOps) (ha : s.ghost.armed = none) : Inv s where
  memory := hm
  temps := hl
  latch := hh
  unwritten := hu
  capacity := hc
  armed := by simp [ha]
  whole := by simp [ha]

theorem answer_keeps_inv {s : State} (h : Inv s) (o : Option OutcomeCode) (i : OutcomeInfo) (r : Output) :
    Inv (answer o i r s) := { h with }

theorem leaveCommands_keeps_inv {s : State} (h : Inv s) (bs : List Byte) : Inv (leaveCommands bs s) := { h with }

theorem initialise_keeps_inv {s : State} (h : Inv s) : Inv (initialise s) := { h with }

/-- An operation that runs and ends with a code that is neither fatal nor HALTED. -/
theorem complete_keeps_inv {s : State} (h : Inv s) (hs : s.dec.halted = false) {c : OutcomeCode}
    (hc : c.isFatal = false) (hn : c ≠ .halted) (i : OutcomeInfo) (r : Output) : Inv (complete c i r s) :=
  { h with
    latch := hs.trans hc.symm
    unwritten := hn }

theorem ne_halted_of_isFatal {c : OutcomeCode} (h : c.isFatal = true) : c ≠ .halted := by
  rintro rfl
  cases h

/-- A fatal condition sets `halted` together with its code (60_exceptions.md R164). -/
theorem raiseFatal_keeps_inv {s : State} (h : Inv s) {c : OutcomeCode} (hc : c.isFatal = true) (i : OutcomeInfo)
    (d : Diag) : Inv (raiseFatal c i d s) :=
  { h with
    temps := rfl
    latch := hc.symm
    unwritten := ne_halted_of_isFatal hc }

theorem issueRead_keeps_inv {s : State} (h : Inv s) (w : ReadWidth) (a : Addr) : Inv (issueRead w a s) :=
  { h with memory := Accessor.arrive_wf h.memory }

theorem readAll_keeps_inv (rs : List (ReadWidth × Addr)) : ∀ {s : State}, Inv s → Inv (readAll rs s) := by
  induction rs with
  | nil => exact fun h => h
  | cons r rs ih => exact fun h => ih (issueRead_keeps_inv h r.1 r.2)

@[simp] theorem readAll_halted (rs : List (ReadWidth × Addr)) (s : State) :
    (readAll rs s).dec.halted = s.dec.halted := by rw [readAll_eq]

/-- The host's write of `current_pc` disarms, so `next_pc` need not agree with it (log 18). -/
theorem presentContext_keeps_inv {s : State} (h : Inv s) (pc : Addr) (v : VariantMask) :
    Inv (presentContext pc v s) :=
  inv_of_unarmed h.memory h.temps h.latch h.unwritten h.capacity rfl

theorem acceptRecord_keeps_inv {s : State} (h : Inv s) {c : DecodedInsn} (hc : c.nOps ≤ s.cfg.maxOps) :
    Inv (acceptRecord c s) :=
  inv_of_unarmed h.memory h.temps h.latch h.unwritten hc rfl

theorem clearDecoded_keeps_inv {s : State} (h : Inv s) : Inv (clearDecoded s) :=
  inv_of_unarmed h.memory h.temps h.latch h.unwritten (Nat.zero_le _) rfl

theorem resetDec_inv {s : State} (h : Memory.wf s.bus.mem = true) : Inv (resetDec s) :=
  inv_of_unarmed h rfl rfl (by simp) (Nat.zero_le _) rfl

theorem freeRecord_nOps_le (P : Params) (n : Nat) : (freeRecord P n).nOps ≤ P.maxOps :=
  List.length_take_le _ _

theorem abortDecode_keeps_inv {s : State} (h : Inv s) (hs : s.dec.halted = false) (a : Addr) :
    Inv (abortDecode a s) :=
  inv_of_unarmed h.memory h.temps hs (by simp) (freeRecord_nOps_le _ _) rfl

/-! #### A template that is returned -/

/-- What the invariant asks of a record the matcher returns: an entry of the table has its class, and it fits. -/
theorem findFormat_record {P : Params} {w : Word} {l : ByteLen} {m : VariantMask} {k : Nat} {c : DecodedInsn}
    (hw : tablesWf P = true) (hf : findFormat P w l m = some (k, c)) :
    (∃ T, P.tOpcodes[k]? = some T ∧ c.cls = .label T.cls) ∧ c.nOps ≤ P.maxOps := by
  obtain ⟨t, T, hT, -, -, h⟩ | ⟨-, h⟩ := findFormat_spec hw w l m
  · rw [hf, Option.some.injEq, Prod.mk.injEq] at h
    obtain ⟨rfl, rfl⟩ := h
    obtain ⟨hcls, hops, -⟩ := recordOf_fields P w l T
    obtain ⟨-, -, hcap⟩ := templateWf_indices (tablesWf_template hw hT)
    refine ⟨⟨T, hT, hcls⟩, ?_⟩
    rwa [DecodedInsn.nOps, hops, List.length_map]
  · rw [hf] at h
    cases h

/-- The record's one byte of length holds every length consumed. -/
theorem setWidth_consumed {n : Nat} (hn : n ≤ 12) : (BitVec.ofNat 8 n).setWidth 32 = BitVec.ofNat 32 n := by
  apply BitVec.eq_of_toNat_eq
  simp only [BitVec.toNat_setWidth, BitVec.toNat_ofNat]
  omega

/-- The context update of a successful decode arms its template with a whole context (43_decode_entry.md R141). -/
theorem finishDecode_keeps_inv {s : State} (h : Inv s) (hs : s.dec.halted = false) {k n : Nat} {c : DecodedInsn}
    (hT : ∃ T, s.cfg.tOpcodes[k]? = some T ∧ c.cls = .label T.cls) (hc : c.nOps ≤ s.cfg.maxOps) (hn : n ≤ 12)
    (limm : I32) : Inv (finishDecode k c limm n s) where
  memory := h.memory
  temps := h.temps
  latch := hs
  unwritten := by simp
  capacity := hc
  armed := by
    rintro _ ⟨⟩
    exact hT
  whole := by
    rintro _ ⟨⟩
    exact ⟨rfl, congrArg (_ + ·) (setWidth_consumed hn).symm, alignedPc_eq _⟩

/-- However READ_AND_DECODE ends, from the state its reads have left. -/
theorem decodeNext_keeps_inv {s t : State} (h : Inv s) (hs : s.dec.halted = false) (ht : DecodeNext s t) : Inv t := by
  cases ht with
  | abort a => exact abortDecode_keeps_inv h hs a
  | variant v => exact raiseFatal_keeps_inv h rfl _ _
  | length l => exact raiseFatal_keeps_inv h rfl _ _
  | miss => exact complete_keeps_inv (clearDecoded_keeps_inv h) hs rfl (by decide) _ _
  | done w l k c limm n hn hw hf =>
    obtain ⟨hT, hc⟩ := findFormat_record hw hf
    exact finishDecode_keeps_inv h hs hT hc hn limm

/-! #### DISPATCH -/

/-- What stands in the trace and the backend's counter are no part of the invariant. -/
theorem traced_keeps_inv {s : State} (h : Inv s) (es : List Event) (n : Nat) :
    Inv { s with log := es, nextTemp := n } := { h with }

theorem raiseNoDefault_keeps_inv {s : State} (h : Inv s) (mn : String) (p : Nat) (m : Materialised) :
    Inv (raiseNoDefault mn p m s) :=
  raiseFatal_keeps_inv (traced_keeps_inv h _ _) rfl _ _

theorem invokeHandler_keeps_inv {s : State} (h : Inv s) (hs : s.dec.halted = false) (r : String) (m : Materialised) :
    Inv (invokeHandler r m s) :=
  { h with
    temps := rfl
    latch := hs
    unwritten := by simp }

theorem invokeSpecial_keeps_inv {s : State} (h : Inv s) (hs : s.dec.halted = false) (k : SpecialKind) :
    Inv (invokeSpecial k s) :=
  { h with
    latch := hs
    unwritten := by simp }

/-! #### Every step -/

theorem exec_keeps_inv {i : Instr} {s t : State} (h : Inv s) (ht : exec i s = .next t) : Inv t := by
  cases exec_next ht with
  | halted => exact answer_keeps_inv h _ _ _
  | length _ _ hs => exact complete_keeps_inv h hs rfl (by decide) _ _
  | variant => exact raiseFatal_keeps_inv h rfl _ _
  | value _ _ hs => exact complete_keeps_inv h hs rfl (by decide) _ _
  | inner => exact answer_keeps_inv h _ _ _
  | illegal _ _ hs => exact complete_keeps_inv h hs rfl (by decide) _ _
  | found w l m hs k c hw hf =>
    obtain ⟨-, hc⟩ := findFormat_record hw hf
    exact complete_keeps_inv (acceptRecord_keeps_inv h hc) hs rfl (by decide) _ _
  | missed _ _ _ hs => exact complete_keeps_inv (clearDecoded_keeps_inv h) hs rfl (by decide) _ _
  | decode pc v hs rs _ _ hd =>
    exact decodeNext_keeps_inv (readAll_keeps_inv rs (presentContext_keeps_inv h pc v)) (by simpa using hs) hd
  | noMapping => exact raiseFatal_keeps_inv (initialise_keeps_inv h) rfl _ _
  | noHandler => exact raiseFatal_keeps_inv (initialise_keeps_inv h) rfl _ _
  | special _ hs x => exact invokeSpecial_keeps_inv (initialise_keeps_inv h) hs x
  | generic _ hs r m => exact invokeHandler_keeps_inv (initialise_keeps_inv h) hs r m
  | noDefault _ _ mn p m => exact raiseNoDefault_keeps_inv (initialise_keeps_inv h) mn p m
  | reset => exact answer_keeps_inv (resetDec_inv h.memory) _ _ _

/-- A step idles, or runs the command it takes from the interface. -/
theorem step_next {s t : State} (h : step s = .next t) :
    t = s ∨ ∃ i rest, nextCommand s = .command i rest ∧ exec i (leaveCommands rest s) = .next t := by
  unfold step at h
  split at h
  · exact .inl (by simpa using h.symm)
  · cases h
  · exact .inr ⟨_, _, ‹_›, h⟩

/-- Settles O59: taking the command keeps the invariant, and so does every way its operation can end. -/
theorem stepKeepsInvariant : Obligations.StepKeepsInvariant := by
  intro s t h ht
  obtain rfl | ⟨i, rest, -, ht⟩ := step_next ht
  · exact h
  · exact exec_keeps_inv (leaveCommands_keeps_inv h rest) ht

/-! #### The opcode and semantic tables in step (R30) -/

/-- A running DISPATCH whose table lookups succeed ends OK, or FATAL_NO_DEFAULT. -/
theorem dispatchMnemonic_status {mn : String} {map : MapId} {s t : State} (hm : mappingOf s.cfg mn = some map)
    (hh : (specialOf s.cfg map).isSome = true ∨ (handlerOf s.cfg map).isSome = true)
    (h : dispatchMnemonic mn s = .next t) : t.dec.status = .ok ∨ t.dec.status = .fatalNoDefault := by
  obtain ⟨h', -⟩ | ⟨map', h', h⟩ := dispatchMnemonic_next h
  · simp [hm] at h'
  rw [hm, Option.some.injEq] at h'
  subst h'
  obtain ⟨x, -, rfl⟩ | ⟨hs, ⟨hn, -⟩ | ⟨e, -, h⟩⟩ := h
  · exact .inl (invokeSpecial_status x s)
  · simp [hs, hn] at hh
  · obtain ⟨m, -, rfl⟩ | ⟨p, m, -, rfl⟩ := dispatchGeneric_next h
    · exact .inl (invokeHandler_status _ m s)
    · exact .inr (by rw [raiseNoDefault_eq, raiseFatal_status])

/-- Settles O45: DISPATCH runs for an entry of `T_OPCODES`, whose lookups succeed. -/
theorem tablesInStepNeverSkewed : Obligations.TablesInStepNeverSkewed := by
  intro k s t hs hstep h
  obtain ⟨hh, -⟩ | ⟨-, -, -, -, T, hT, h⟩ := execDispatch_next h
  · rw [hs] at hh
    cases hh
  obtain ⟨map, hm, hh⟩ := hstep T (List.mem_of_getElem? hT)
  obtain h | h := dispatchMnemonic_status (s := initialise s) hm hh h <;> simp [h]

/-! #### Refusals of the decoding operations -/

theorem exec_findFormat (w : Word) (l : ByteLen) (m : VariantMask) (s : State) :
    exec (.findFormat w l m) s = execFindFormat w l m s := rfl

theorem exec_readAndDecode (pc : Addr) (v : VariantMask) (s : State) :
    exec (.readAndDecode pc v) s = execReadAndDecode pc v s := rfl

theorem execFindFormat_of_broken {s : State} (hs : s.dec.halted = false) (hw : tablesWf s.cfg = false) (w : Word)
    (l : ByteLen) (m : VariantMask) : execFindFormat w l m s = .refused .illFormedTables := by
  simp [execFindFormat, hs, hw]

theorem execReadAndDecode_of_odd {s : State} (hs : s.dec.halted = false) {pc : Addr} (h : pc.toNat % 2 = 1)
    (v : VariantMask) : execReadAndDecode pc v s = .refused .oddProgramCounter := by
  rw [execReadAndDecode, unlessHalted_of_running hs, if_pos (odd_getLsbD h)]

theorem decodeWord_of_broken {s : State} (hw : tablesWf s.cfg = false) (w : Word) (l : ByteLen) :
    decodeWord w l s = .refused .illFormedTables := by
  simp [decodeWord, hw]

/-- Presented with an even address while running, the operation goes on with the first unit it reads. -/
theorem execReadAndDecode_of_read {pc : Addr} {v : VariantMask} {s : State} {u0 : InsnUnit}
    (hs : s.dec.halted = false) (hpc : pc.toNat % 2 = 0) (hu : s.bus.arrive.unitAt s.cfg.bigEndian pc = some u0) :
    execReadAndDecode pc v s = decodeUnit u0 (issueRead .read16 pc (presentContext pc v s)) := by
  rw [execReadAndDecode_of_even hs hpc]
  exact decodeEntry_of_read (s := presentContext pc v s) hu

/-- Settles O23: the guards of the two operations, and the matcher's own check once the reads have succeeded. -/
theorem decodingRefusals : Obligations.DecodingRefusals := by
  refine ⟨fun w l m s hs hw => ?_, fun pc v s hs hpc => ?_,
    fun pc v s u0 hs hpc hw hu => ⟨fun hl => ?_, fun u1 hl hu1 => ?_⟩⟩
  · rw [exec_findFormat, execFindFormat_of_broken hs hw]
  · rw [exec_readAndDecode, execReadAndDecode_of_odd hs hpc]
  · rw [exec_readAndDecode, execReadAndDecode_of_read hs hpc hu, decodeUnit_of_two hl, decodeWord_of_broken]
    exact hw
  · rw [exec_readAndDecode, execReadAndDecode_of_read hs hpc hu, decodeUnit_of_four hl, decodeFour_of_read hu1,
      decodeWord_of_broken]
    exact hw

end Sys2Proof.Machine
end

section
/-! ### Proofs about memory (20_memory.md): what a read answers, a read that is refused, what an operation leaves alone -/

namespace Sys2Proof.Machine

/-! #### The bytes of units and words -/

/-- A unit is readable where its two bytes are (R47). -/
theorem unitAt_of_bytes {b : Accessor} {a : Addr} {b0 b1 : Byte} (h0 : b.byteAt a = some b0)
    (h1 : b.byteAt (a + 1) = some b1) (big : Bool) : b.unitAt big a = some (joinUnit big b0 b1) := by
  simp only [Accessor.unitAt, h0, h1]

/-- A 32-bit read answers where its two units are readable (R47). -/
theorem wordAt_of_units {big : Bool} {b : Accessor} {a : Addr} {u0 u1 : InsnUnit} (h0 : b.unitAt big a = some u0)
    (h1 : b.unitAt big (a + 2) = some u1) : b.wordAt big a = some (joinHalves big u0 u1) := by
  simp only [Accessor.wordAt, h0, h1]

theorem joinUnit_little_toNat (b0 b1 : Byte) : (joinUnit false b0 b1).toNat = b1.toNat * 2 ^ 8 + b0.toNat :=
  toNat_append_bytes b1 b0

theorem joinUnit_big_toNat (b0 b1 : Byte) : (joinUnit true b0 b1).toNat = b0.toNat * 2 ^ 8 + b1.toNat :=
  toNat_append_bytes b0 b1

theorem joinHalves_little_toNat (u0 u1 : InsnUnit) : (joinHalves false u0 u1).toNat = u1.toNat * 2 ^ 16 + u0.toNat :=
  toNat_append_units u1 u0

theorem joinHalves_big_toNat (u0 u1 : InsnUnit) : (joinHalves true u0 u1).toNat = u0.toNat * 2 ^ 16 + u1.toNat :=
  toNat_append_units u0 u1

theorem highThenLow_toNat (u0 u1 : InsnUnit) : (highThenLow u0 u1).toNat = u0.toNat * 2 ^ 16 + u1.toNat :=
  toNat_append_units u0 u1

/-- Settles O30: both units are read, and each join puts its first operand above or below its second. -/
theorem byteLayoutOfUnitsAndWords : Obligations.ByteLayoutOfUnitsAndWords := by
  intro b a b0 b1 b2 b3 h0 h1 h2 h3
  have h3' : b.byteAt (a + 2 + 1) = some b3 := by rwa [BitVec.add_assoc]
  have low := unitAt_of_bytes h0 h1
  have high := unitAt_of_bytes h2 h3'
  refine ⟨⟨_, _, low false, high false, ?_⟩, ⟨_, _, low true, high true, ?_⟩,
    ⟨_, wordAt_of_units (low false) (high false), ?_⟩, ⟨_, wordAt_of_units (low true) (high true), ?_⟩⟩
  · rw [highThenLow_toNat, joinUnit_little_toNat, joinUnit_little_toNat]
    omega
  · rw [highThenLow_toNat, joinUnit_big_toNat, joinUnit_big_toNat]
    omega
  · rw [joinHalves_little_toNat, joinUnit_little_toNat, joinUnit_little_toNat]
    omega
  · rw [joinHalves_big_toNat, joinUnit_big_toNat, joinUnit_big_toNat]
    omega

/-- Settles O31: `arrange` undoes the order in which `read32` joins the units. -/
theorem longImmediateIsHighUnitFirst : Obligations.LongImmediateIsHighUnitFirst := wordAt_arrange

/-! #### READ_AND_DECODE up to a refused read

Each lemma takes the operation one read further; the state it goes on from is `afterReads`. -/

theorem issueRead_presentContext (w : ReadWidth) (a pc : Addr) (v : VariantMask) (s : State) :
    issueRead w a (presentContext pc v s) = afterReads pc v s.bus.arrive [.read w a] s := rfl

theorem issueRead_afterReads (w : ReadWidth) (a pc : Addr) (v : VariantMask) (b : Accessor) (rs : List Event) (s : State) :
    issueRead w a (afterReads pc v b rs s) = afterReads pc v b.arrive (rs ++ [.read w a]) s := by
  simp [issueRead, afterReads]

theorem decodeLimm_of_absent {c : DecodedInsn} (hc : c.limmP = false) (k : Nat) (l : ByteLen) (s : State) :
    decodeLimm k c l s = finishDecode k c 0 l.bytes s := by
  simp [decodeLimm, hc]

theorem decodeLimm_of_read {c : DecodedInsn} {l : ByteLen} {s : State} {w : BitVec 32} (hc : c.limmP = true)
    (h : s.bus.arrive.wordAt s.cfg.bigEndian (s.dec.ctx.currentPc + BitVec.ofNat 32 l.bytes) = some w) (k : Nat) :
    decodeLimm k c l s = finishDecode k c (arrange s.cfg.bigEndian w) (l.bytes + 4)
      (issueRead .read32 (s.dec.ctx.currentPc + BitVec.ofNat 32 l.bytes) s) := by
  simp only [decodeLimm, hc, if_true, issueRead_bus]
  rw [h]

theorem decodeLimm_of_abort {c : DecodedInsn} {l : ByteLen} {s : State} (hc : c.limmP = true)
    (h : s.bus.arrive.wordAt s.cfg.bigEndian (s.dec.ctx.currentPc + BitVec.ofNat 32 l.bytes) = none) (k : Nat) :
    decodeLimm k c l s = abortDecode (s.dec.ctx.currentPc + BitVec.ofNat 32 l.bytes)
      (issueRead .read32 (s.dec.ctx.currentPc + BitVec.ofNat 32 l.bytes) s) := by
  simp only [decodeLimm, hc, if_true, issueRead_bus]
  rw [h]

section
variable {pc : Addr} {v : VariantMask} {s : State} {u0 u1 : InsnUnit}

/-- The first read is refused. -/
theorem execReadAndDecode_of_abort (hs : s.dec.halted = false) (hpc : pc.toNat % 2 = 0)
    (h : s.bus.arrive.unitAt s.cfg.bigEndian pc = none) :
    execReadAndDecode pc v s = .next (abortDecode pc (afterReads pc v s.bus.arrive [.read .read16 pc] s)) := by
  rw [execReadAndDecode_of_even hs hpc]
  exact decodeEntry_of_abort (s := presentContext pc v s) h

/-- A 2-byte instruction goes on to the matcher. -/
theorem execReadAndDecode_of_two (hs : s.dec.halted = false) (hpc : pc.toNat % 2 = 0)
    (hu : s.bus.arrive.unitAt s.cfg.bigEndian pc = some u0) (hl : classifyLength s.cfg u0 v = some .two) :
    execReadAndDecode pc v s =
      decodeWord (BitVec.ofNat 64 u0.toNat) .two (afterReads pc v s.bus.arrive [.read .read16 pc] s) := by
  rw [execReadAndDecode_of_read hs hpc hu, decodeUnit_of_two hl, issueRead_presentContext]

/-- A 4-byte instruction goes on to its second unit. -/
theorem execReadAndDecode_of_four (hs : s.dec.halted = false) (hpc : pc.toNat % 2 = 0)
    (hu : s.bus.arrive.unitAt s.cfg.bigEndian pc = some u0) (hl : classifyLength s.cfg u0 v = some .four) :
    execReadAndDecode pc v s = decodeFour u0 (afterReads pc v s.bus.arrive [.read .read16 pc] s) := by
  rw [execReadAndDecode_of_read hs hpc hu, decodeUnit_of_four hl, issueRead_presentContext]

/-- The second unit of a 4-byte instruction is refused. -/
theorem decodeFour_afterReads_of_abort {b : Accessor} {rs : List Event}
    (h : b.arrive.unitAt s.cfg.bigEndian (pc + 2) = none) :
    decodeFour u0 (afterReads pc v b rs s) =
      .next (abortDecode (pc + 2) (afterReads pc v b.arrive (rs ++ [.read .read16 (pc + 2)]) s)) := by
  rw [← issueRead_afterReads]
  exact decodeFour_of_abort (s := afterReads pc v b rs s) h

/-- The second unit of a 4-byte instruction is there. -/
theorem decodeFour_afterReads_of_read {b : Accessor} {rs : List Event}
    (h : b.arrive.unitAt s.cfg.bigEndian (pc + 2) = some u1) :
    decodeFour u0 (afterReads pc v b rs s) =
      decodeWord (BitVec.ofNat 64 (u0.toNat * 2 ^ 16 + u1.toNat)) .four
        (afterReads pc v b.arrive (rs ++ [.read .read16 (pc + 2)]) s) := by
  rw [← issueRead_afterReads]
  exact decodeFour_of_read (s := afterReads pc v b rs s) h

/-- The read of a matched instruction's long immediate is refused. -/
theorem decodeWord_afterReads_of_abort {b : Accessor} {rs : List Event} {w : Word} {l : ByteLen} {k : Nat}
    {c : DecodedInsn} (hw : tablesWf s.cfg = true) (hf : findFormat s.cfg w l v = some (k, c)) (hc : c.limmP = true)
    (h : b.arrive.wordAt s.cfg.bigEndian (pc + BitVec.ofNat 32 l.bytes) = none) :
    decodeWord w l (afterReads pc v b rs s) =
      .next (abortDecode (pc + BitVec.ofNat 32 l.bytes)
        (afterReads pc v b.arrive (rs ++ [.read .read32 (pc + BitVec.ofNat 32 l.bytes)]) s)) := by
  rw [← issueRead_afterReads, decodeWord_of_found (s := afterReads pc v b rs s) hw hf]
  exact congrArg _ (decodeLimm_of_abort (s := afterReads pc v b rs s) hc h k)

end

/-- What an abort leaves unspecified are values of the three fields and of the free counter (R53). -/
theorem decodeAborted_of_abortDecode {r : Result} {a : Addr} {s : State} (h : r = .next (abortDecode a s)) :
    ∃ d n a' x, r = .next (decodeAborted a d n a' x s) := ⟨_, _, _, _, h⟩

/-- Settles O36: the operation runs up to the read that is refused, and ends there. -/
theorem refusedReadAborts : Obligations.RefusedReadAborts := by
  intro pc v s hs hpc
  refine ⟨fun h => ?_, fun u0 hu hl h => ?_, fun u0 k c hu hl hw hf hc h => ?_,
    fun u0 u1 k c hu hl hu1 hw hf hc h => ?_⟩ <;> apply decodeAborted_of_abortDecode <;> rw [exec_readAndDecode]
  · exact execReadAndDecode_of_abort hs hpc h
  · rw [execReadAndDecode_of_four hs hpc hu hl]
    exact decodeFour_afterReads_of_abort h
  · rw [execReadAndDecode_of_two hs hpc hu hl]
    exact decodeWord_afterReads_of_abort hw hf hc h
  · rw [execReadAndDecode_of_four hs hpc hu hl, decodeFour_afterReads_of_read hu1]
    exact decodeWord_afterReads_of_abort hw hf hc h

/-! #### READ_AND_DECODE of two states that present the same

`SameInputs` is all the operation looks at; every stage takes two states that agree on it to ends that agree. -/

/-- What READ_AND_DECODE looks at once the host's two fields are written. -/
structure SameInputs (s s' : State) : Prop where
  cfg : s.cfg = s'.cfg
  bus : s.bus = s'.bus
  pc : s.dec.ctx.currentPc = s'.dec.ctx.currentPc
  variant : s.dec.ctx.cpuVariant = s'.dec.ctx.cpuVariant

/-- The operation has ended the same way: the context whole on OK, its record on a miss. -/
def SameEnd (t t' : State) : Prop :=
  t.port.answer = t'.port.answer ∧ t.bus = t'.bus ∧ t.dec.status = t'.dec.status ∧
    ((t.dec.status = .ok ∧ t.dec.ctx = t'.dec.ctx) ∨
      (t.dec.status = .decodeMiss ∧ t.dec.ctx.decoded = t'.dec.ctx.decoded) ∨
      (t.dec.status ≠ .ok ∧ t.dec.status ≠ .decodeMiss))

/-- Two next states that agree, or the same refusal. -/
def SameResult : Result → Result → Prop
  | .next t, .next t' => SameEnd t t'
  | .refused r, .refused r' => r = r'
  | _, _ => False

section
variable {s s' : State}

theorem presentContext_sameInputs (hcfg : s.cfg = s'.cfg) (hbus : s.bus = s'.bus) (pc : Addr) (v : VariantMask) :
    SameInputs (presentContext pc v s) (presentContext pc v s') := ⟨hcfg, hbus, rfl, rfl⟩

theorem issueRead_sameInputs (h : SameInputs s s') (w : ReadWidth) (a : Addr) :
    SameInputs (issueRead w a s) (issueRead w a s') := { h with bus := congrArg Accessor.arrive h.bus }

theorem unitAt_sameInputs (h : SameInputs s s') (a : Addr) :
    s.bus.arrive.unitAt s.cfg.bigEndian a = s'.bus.arrive.unitAt s'.cfg.bigEndian a := by rw [h.bus, h.cfg]

theorem wordAt_sameInputs (h : SameInputs s s') (a : Addr) :
    s.bus.arrive.wordAt s.cfg.bigEndian a = s'.bus.arrive.wordAt s'.cfg.bigEndian a := by rw [h.bus, h.cfg]

theorem abortDecode_sameEnd (h : SameInputs s s') (a : Addr) : SameEnd (abortDecode a s) (abortDecode a s') :=
  ⟨rfl, h.bus, rfl, .inr (.inr (by simp))⟩

theorem raiseFatal_sameEnd (h : SameInputs s s') {c : OutcomeCode} (hc : c.isFatal = true) (i : OutcomeInfo)
    (d d' : Diag) : SameEnd (raiseFatal c i d s) (raiseFatal c i d' s') := by
  refine ⟨rfl, h.bus, rfl, .inr (.inr ?_)⟩
  rw [raiseFatal_status]
  constructor <;> rintro rfl <;> cases hc

theorem raiseLength_sameEnd (h : SameInputs s s') (l : ByteLen) : SameEnd (raiseLength l s) (raiseLength l s') := by
  rw [raiseLength_eq, raiseLength_eq, h.pc]
  exact raiseFatal_sameEnd h rfl _ _ _

theorem clearDecoded_sameEnd (h : SameInputs s s') (o : Output) :
    SameEnd (complete .decodeMiss .nothing o (clearDecoded s)) (complete .decodeMiss .nothing o (clearDecoded s')) :=
  ⟨rfl, h.bus, rfl, .inr (.inl ⟨rfl, rfl⟩)⟩

/-- On success DEC writes the three fields of the context that are its own (43_decode_entry.md R141). -/
theorem finishDecode_sameEnd (h : SameInputs s s') (k : Nat) (c : DecodedInsn) (limm : I32) (n : Nat) :
    SameEnd (finishDecode k c limm n s) (finishDecode k c limm n s') :=
  ⟨rfl, h.bus, rfl, .inl ⟨rfl, by simp [h.pc, h.variant]⟩⟩

theorem decodeLimm_sameEnd (h : SameInputs s s') (k : Nat) (c : DecodedInsn) (l : ByteLen) :
    SameEnd (decodeLimm k c l s) (decodeLimm k c l s') := by
  cases hc : c.limmP with
  | false =>
    rw [decodeLimm_of_absent hc, decodeLimm_of_absent hc]
    exact finishDecode_sameEnd h k c 0 l.bytes
  | true =>
    cases hw : s.bus.arrive.wordAt s.cfg.bigEndian (s.dec.ctx.currentPc + BitVec.ofNat 32 l.bytes) with
    | none =>
      rw [decodeLimm_of_abort hc hw, decodeLimm_of_abort hc (by rwa [← wordAt_sameInputs h, ← h.pc]), ← h.pc]
      exact abortDecode_sameEnd (issueRead_sameInputs h _ _) _
    | some w =>
      rw [decodeLimm_of_read hc hw, decodeLimm_of_read hc (by rwa [← wordAt_sameInputs h, ← h.pc]), ← h.pc, ← h.cfg]
      exact finishDecode_sameEnd (issueRead_sameInputs h _ _) k c _ _

theorem decodeWord_sameResult (h : SameInputs s s') (w : Word) (l : ByteLen) :
    SameResult (decodeWord w l s) (decodeWord w l s') := by
  cases hw : tablesWf s.cfg with
  | false =>
    rw [decodeWord_of_broken hw, decodeWord_of_broken (h.cfg ▸ hw)]
    rfl
  | true =>
    cases hf : findFormat s.cfg w l s.dec.ctx.cpuVariant with
    | none =>
      rw [decodeWord_of_miss hw hf, decodeWord_of_miss (h.cfg ▸ hw) (h.cfg ▸ h.variant ▸ hf)]
      exact clearDecoded_sameEnd h _
    | some r =>
      rw [decodeWord_of_found hw hf, decodeWord_of_found (h.cfg ▸ hw) (h.cfg ▸ h.variant ▸ hf)]
      exact decodeLimm_sameEnd h _ _ l

theorem decodeFour_sameResult (h : SameInputs s s') (u0 : InsnUnit) :
    SameResult (decodeFour u0 s) (decodeFour u0 s') := by
  cases hu : s.bus.arrive.unitAt s.cfg.bigEndian (s.dec.ctx.currentPc + 2) with
  | none =>
    rw [decodeFour_of_abort hu, decodeFour_of_abort (by rwa [← unitAt_sameInputs h, ← h.pc]), ← h.pc]
    exact abortDecode_sameEnd (issueRead_sameInputs h _ _) _
  | some u1 =>
    rw [decodeFour_of_read hu, decodeFour_of_read (by rwa [← unitAt_sameInputs h, ← h.pc]), ← h.pc]
    exact decodeWord_sameResult (issueRead_sameInputs h _ _) _ _

theorem decodeUnit_sameResult (h : SameInputs s s') (u0 : InsnUnit) :
    SameResult (decodeUnit u0 s) (decodeUnit u0 s') := by
  unfold decodeUnit
  rw [← h.cfg, ← h.variant]
  cases classifyLength s.cfg u0 s.dec.ctx.cpuVariant with
  | none => exact raiseFatal_sameEnd h rfl _ _ _
  | some l =>
    cases l with
    | two => exact decodeWord_sameResult h _ _
    | four => exact decodeFour_sameResult h u0
    | six => exact raiseLength_sameEnd h .six
    | eight => exact raiseLength_sameEnd h .eight

theorem decodeEntry_sameResult (h : SameInputs s s') : SameResult (decodeEntry s) (decodeEntry s') := by
  cases hu : s.bus.arrive.unitAt s.cfg.bigEndian s.dec.ctx.currentPc with
  | none =>
    rw [decodeEntry_of_abort hu, decodeEntry_of_abort (by rwa [← unitAt_sameInputs h, ← h.pc]), ← h.pc]
    exact abortDecode_sameEnd (issueRead_sameInputs h _ _) _
  | some u0 =>
    rw [decodeEntry_of_read hu, decodeEntry_of_read (by rwa [← unitAt_sameInputs h, ← h.pc]), ← h.pc]
    exact decodeUnit_sameResult (issueRead_sameInputs h _ _) u0

end

/-- Settles O38: the host's write makes the inputs agree, and every stage keeps the two runs together. -/
theorem decodeKeepsNothingFromBefore : Obligations.DecodeKeepsNothingFromBefore := by
  intro pc v s s' hs hs' hcfg hbus
  have main : SameResult (execReadAndDecode pc v s) (execReadAndDecode pc v s') := by
    rw [execReadAndDecode, execReadAndDecode, unlessHalted_of_running hs, unlessHalted_of_running hs']
    split
    · rfl
    · exact decodeEntry_sameResult (presentContext_sameInputs hcfg hbus pc v)
  exact main

/-! #### Operations that read nothing -/

/-- No read stands among these events. -/
def NoReads (es : List Event) : Prop := ∀ e ∈ es, ∀ w a, e ≠ .read w a

theorem noReads_nil : NoReads [] := by simp [NoReads]

theorem noReads_append {es fs : List Event} (he : NoReads es) (hf : NoReads fs) : NoReads (es ++ fs) :=
  List.forall_mem_append.mpr ⟨he, hf⟩

theorem noReads_diag (d : Diag) : NoReads [.diag d] := by simp [NoReads]

theorem noReads_special (k : SpecialKind) (c : Context) : NoReads [.special k c] := by simp [NoReads]

theorem noReads_handler (r : String) (c : Context) (hs : List Handle) : NoReads [.handler r c hs] := by simp [NoReads]

theorem noReads_releases (ts : List Nat) : NoReads (ts.map .release) := by simp [NoReads]

theorem HandleCalls.noReads {es : List Event} (h : HandleCalls es) : NoReads es := fun _ he => h.not_read he

/-- Only READ_AND_DECODE touches the accessor, and nothing writes a parameter or takes a command. -/
theorem exec_leaves_memory {i : Instr} {s t : State} (hi : ∀ pc v, i ≠ .readAndDecode pc v) (h : exec i s = .next t) :
    t.bus = s.bus ∧ t.cfg = s.cfg ∧ t.port.cmds = s.port.cmds := by
  cases exec_next h
  case decode pc v _ _ _ _ => exact absurd rfl (hi pc v)
  all_goals exact ⟨rfl, rfl, rfl⟩

/-- Settles O53: the accessor is the same, so every byte is. -/
theorem memoryFrame : Obligations.MemoryFrame := by
  intro i s t hi h
  obtain ⟨hbus, hcfg, hcmds⟩ := exec_leaves_memory hi h
  exact ⟨fun a => by rw [hbus], hbus, hcfg, hcmds⟩

/-! #### What a step does to memory -/

/-- From `s` to `t` memory has changed by one arrival for each read that `t` has traced beyond `s`, three at most
(R45, R56; log 6). -/
def MemoryByReads (s t : State) : Prop :=
  t.cfg = s.cfg ∧
    ∃ reads : List Event, reads.length ≤ 3 ∧ t.bus = Accessor.arrive^[reads.length] s.bus ∧
      (∀ e ∈ reads, ∃ w a, e = .read w a) ∧ ∃ after, t.log = s.log ++ reads ++ after ∧ NoReads after

/-- An operation that reads nothing leaves the accessor as it is. -/
theorem memoryByReads_of_noReads {s t : State} {es : List Event} (hcfg : t.cfg = s.cfg) (hbus : t.bus = s.bus)
    (hlog : t.log = s.log ++ es) (hes : NoReads es) : MemoryByReads s t :=
  ⟨hcfg, [], by simp, hbus, by simp, es, by simpa using hlog, hes⟩

/-- An operation that adds nothing to the trace. -/
theorem memoryByReads_of_untraced {s t : State} (hcfg : t.cfg = s.cfg) (hbus : t.bus = s.bus) (hlog : t.log = s.log) :
    MemoryByReads s t :=
  memoryByReads_of_noReads hcfg hbus (by simpa using hlog) noReads_nil

theorem raiseFatal_memoryByReads (c : OutcomeCode) (i : OutcomeInfo) (d : Diag) (s : State) :
    MemoryByReads s (raiseFatal c i d s) := memoryByReads_of_noReads rfl rfl rfl (noReads_diag d)

/-- What is materialised is released before the diagnostic (44_semantic_dispatcher.md R150). -/
theorem raiseNoDefault_log (mn : String) (p : Nat) (m : Materialised) (s : State) :
    ∃ d, (raiseNoDefault mn p m s).log = s.log ++ (m.calls ++ m.live.map .release ++ [.diag d]) :=
  ⟨_, by rw [raiseNoDefault_eq, raiseFatal_log, ← List.append_assoc, ← List.append_assoc]⟩

/-- Once its reads are done, READ_AND_DECODE leaves the accessor alone and traces at most a diagnostic. -/
theorem decodeNext_leaves_memory {s t : State} (h : DecodeNext s t) :
    t.cfg = s.cfg ∧ t.bus = s.bus ∧ ∃ after, t.log = s.log ++ after ∧ NoReads after := by
  cases h with
  | abort => exact ⟨rfl, rfl, [], by simp, noReads_nil⟩
  | variant => exact ⟨rfl, rfl, _, rfl, noReads_diag _⟩
  | length => exact ⟨rfl, rfl, _, rfl, noReads_diag _⟩
  | miss => exact ⟨rfl, rfl, [], by simp, noReads_nil⟩
  | done => exact ⟨rfl, rfl, [], by simp, noReads_nil⟩

theorem readAll_memoryByReads {rs : List (ReadWidth × Addr)} {s t : State} (hr : rs.length ≤ 3)
    (h : DecodeNext (readAll rs s) t) : MemoryByReads s t := by
  obtain ⟨hcfg, hbus, after, hlog, hno⟩ := decodeNext_leaves_memory h
  rw [readAll_eq] at hcfg hbus hlog
  refine ⟨hcfg, rs.map fun r => .read r.1 r.2, by simpa using hr, by simpa using hbus, fun e he => ?_, after, hlog, hno⟩
  obtain ⟨r, -, rfl⟩ := List.mem_map.mp he
  exact ⟨r.1, r.2, rfl⟩

theorem exec_memoryByReads {i : Instr} {s t : State} (h : exec i s = .next t) : MemoryByReads s t := by
  cases exec_next h with
  | halted => exact memoryByReads_of_untraced rfl rfl rfl
  | length => exact memoryByReads_of_untraced rfl rfl rfl
  | variant => exact raiseFatal_memoryByReads _ _ _ s
  | value => exact memoryByReads_of_untraced rfl rfl rfl
  | inner => exact memoryByReads_of_untraced rfl rfl rfl
  | illegal => exact memoryByReads_of_untraced rfl rfl rfl
  | found => exact memoryByReads_of_untraced rfl rfl rfl
  | missed => exact memoryByReads_of_untraced rfl rfl rfl
  | decode pc v _ rs hr _ hd => exact readAll_memoryByReads (s := presentContext pc v s) hr hd
  | noMapping => exact raiseFatal_memoryByReads _ _ _ (initialise s)
  | noHandler => exact raiseFatal_memoryByReads _ _ _ (initialise s)
  | special => exact memoryByReads_of_noReads rfl rfl rfl (noReads_special _ _)
  | generic _ _ r m hm =>
    refine memoryByReads_of_noReads (es := m.calls ++ [.handler r s.dec.ctx m.handles] ++ m.live.map .release)
      rfl rfl (by simp) ?_
    exact noReads_append (noReads_append hm.noReads (noReads_handler _ _ _)) (noReads_releases _)
  | noDefault _ _ mn p m hm =>
    obtain ⟨d, hlog⟩ := raiseNoDefault_log mn p m (initialise s)
    refine memoryByReads_of_noReads rfl rfl hlog ?_
    exact noReads_append (noReads_append hm.noReads (noReads_releases _)) (noReads_diag d)
  | reset => exact memoryByReads_of_untraced rfl rfl rfl

/-- Settles O60: a step idles, or its command is taken, which leaves memory alone, and run. -/
theorem memoryChangesOnlyByOthers : Obligations.MemoryChangesOnlyByOthers := by
  intro s t h
  obtain rfl | ⟨i, rest, -, h⟩ := step_next h
  · exact memoryByReads_of_untraced rfl rfl rfl
  · exact exec_memoryByReads (s := leaveCommands rest s) h

end Sys2Proof.Machine
end

section
/-! ### Proofs about the encoding (30_encoding.md): the packets, the length-class rows, the rows of template masks, the
sentinel, the compressed register codes, the all-zero word -/

namespace Sys2Proof.Machine

/-! #### Packets -/

/-- Settles O1: the decoder evaluates on each packet. -/
theorem decodeReadsTableWords : Obligations.DecodeReadsTableWords :=
  ⟨rfl, rfl, rfl, rfl, rfl, rfl, rfl, rfl, rfl, rfl, rfl, rfl, rfl⟩

/-! #### The length-class map

A row is a range of the major opcode, and on that range the length rule of its variants is one length. -/

theorem legacyLength_00_09 (P : Params) {u : InsnUnit} (h : u.toNat / 2 ^ 11 ≤ 0x9) : legacyLength P u = .four := by
  have hb : u.toNat / 2 ^ 11 ≠ 0xb := by omega
  have ha : u.toNat / 2 ^ 11 ≠ 0xa := by omega
  have hc : ¬u.toNat / 2 ^ 11 > 0xb := by omega
  simp only [legacyLength_eq, hb, ha, hc, if_false]

theorem legacyLength_0A (P : Params) {u : InsnUnit} (h : u.toNat / 2 ^ 11 = 0xa) : legacyLength P u = .eight := by
  rw [legacyLength_eq, h]
  rfl

/-- The extension window (41_length_classifier.md R108): outside `EXT_MINOR_LEN` its length is 4. -/
theorem legacyLength_0B (P : Params) {u : InsnUnit} (h : u.toNat / 2 ^ 11 = 0xb) :
    legacyLength P u =
      match extMinorLen P (BitVec.ofNat 5 (u.toNat % 2 ^ 5)) with
      | some .six => .six
      | some .eight => .eight
      | none => .four := by
  simp only [legacyLength_eq, h, if_true]
  rcases extMinorLen P (BitVec.ofNat 5 (u.toNat % 2 ^ 5)) with _ | _ | _ <;> rfl

theorem legacyLength_0C_1F (P : Params) {u : InsnUnit} (h : 0xc ≤ u.toNat / 2 ^ 11) : legacyLength P u = .two := by
  have hb : u.toNat / 2 ^ 11 ≠ 0xb := by omega
  have ha : u.toNat / 2 ^ 11 ≠ 0xa := by omega
  have hc : u.toNat / 2 ^ 11 > 0xb := by omega
  simp only [legacyLength_eq, hb, ha, hc, if_true, if_false]

theorem currentLength_00_07 {u : InsnUnit} (h : u.toNat / 2 ^ 11 ≤ 0x7) : currentLength u = .four := by
  rw [currentLength_eq, if_neg (by omega)]

theorem currentLength_08_1F {u : InsnUnit} (h : 0x8 ≤ u.toNat / 2 ^ 11) : currentLength u = .two := by
  rw [currentLength_eq, if_pos (by omega)]

/-- A legacy row, `inRow` its class of units, all of length `l`. -/
theorem classifyUnit_of_legacyRow {u : InsnUnit} {v : VariantMask} {s : State} (hs : s.dec.halted = false) {inRow : Bool}
    {l : ByteLen} (hl : inRow = true → legacyLength s.cfg u = l) (h : (inRow && isLegacyVariant v) = true) :
    classifyUnit u v s = .next (answeredOk (.length l) s) := by
  obtain ⟨hr, hv⟩ := (Bool.and_eq_true _ _).mp h
  rw [classifyUnit_legacy hs hv, hl hr]

/-- A current row, `inRow` its class of units, all of length `l`. -/
theorem classifyUnit_of_currentRow {u : InsnUnit} {v : VariantMask} {s : State} (hs : s.dec.halted = false)
    {inRow : Bool} {l : ByteLen} (hl : inRow = true → currentLength u = l) (h : (inRow && isCurrentVariant v) = true) :
    classifyUnit u v s = .next (answeredOk (.length l) s) := by
  obtain ⟨hr, hv⟩ := (Bool.and_eq_true _ _).mp h
  rw [classifyUnit_current hs hv, hl hr]

/-- Settles O8: each row is CLASSIFY of a unit whose major opcode lies in the row's range. -/
theorem legacyLengthRows : Obligations.LegacyLengthRows := by
  intro u v s hs
  refine ⟨classifyUnit_of_legacyRow hs fun h => ?_, classifyUnit_of_legacyRow hs fun h => ?_,
    classifyUnit_of_legacyRow hs fun h => ?_, classifyUnit_of_legacyRow hs fun h => ?_,
    classifyUnit_of_legacyRow hs fun h => ?_, classifyUnit_of_legacyRow hs fun h => ?_⟩
  · exact legacyLength_00_09 _ (((unitInRow_00_07 u).mp h).trans (by decide))
  · exact legacyLength_00_09 _ ((unitInRow_08_09 u).mp h).2
  · exact legacyLength_0A _ ((unitInRow_0A u).mp h)
  · exact legacyLength_0B _ ((unitInRow_0B u).mp h)
  · exact legacyLength_0C_1F _ ((unitInRow_0C_0F u).mp h).1
  · exact legacyLength_0C_1F _ (le_trans (by decide) ((unitInRow_10_1F u).mp h))

/-- Settles O9: each row is CLASSIFY of a unit whose major opcode lies in the row's range. -/
theorem currentLengthRows : Obligations.CurrentLengthRows := by
  intro u v s hs
  refine ⟨classifyUnit_of_currentRow hs fun h => ?_, classifyUnit_of_currentRow hs fun h => ?_,
    classifyUnit_of_currentRow hs fun h => ?_⟩
  · exact currentLength_00_07 ((unitInRow_00_07 u).mp h)
  · exact currentLength_08_1F ((unitInRow_08_0F u).mp h).1
  · exact currentLength_08_1F (le_trans (by decide) ((unitInRow_10_1F u).mp h))

/-- Settles O10: counted row by row, the ranges of the major opcode cut its values up. -/
theorem everyUnitLiesInOneRow : Obligations.EveryUnitLiesInOneRow := by
  intro u v
  refine ⟨fun hv => ?_, fun hv => ?_⟩ <;>
    simp only [← List.countP_eq_length_filter, List.countP_cons, List.countP_nil, Instr.wellFormed, hv, Bool.and_true]
  · simp only [unitInRow_00_07, unitInRow_08_09, unitInRow_0A, unitInRow_0B, unitInRow_0C_0F, unitInRow_10_1F]
    split_ifs <;> omega
  · simp only [unitInRow_00_07, unitInRow_08_0F, unitInRow_10_1F]
    split_ifs <;> omega

/-! #### Template masks (R70) -/

/-- Below a power of two: no bit set from there up. -/
theorem toNat_lt_two_pow_iff (m : Word) (n : Nat) : m.toNat < 2 ^ n ↔ ∀ i, m.getLsbD i = true → i < n := by
  refine ⟨fun h i hi => ?_, fun h => Nat.lt_pow_two_of_testBit _ fun i hi => ?_⟩
  · exact (Nat.pow_lt_pow_iff_right (by decide)).mp ((Nat.ge_two_pow_of_testBit hi).trans_lt h)
  · exact Bool.eq_false_iff.mpr fun hb => Nat.not_lt.mpr hi (h i hb)

/-- From a power of two up: some bit set from there up. -/
theorem two_pow_le_toNat_iff (m : Word) (n : Nat) : 2 ^ n ≤ m.toNat ↔ ∃ i, m.getLsbD i = true ∧ n ≤ i := by
  rw [← not_lt, toNat_lt_two_pow_iff]
  push Not
  rfl

theorem templateLen2_wellFormed_iff (m : Word) : (Instr.templateLen2 m).wellFormed = true ↔ m.toNat < 2 ^ 16 := by
  simp [Instr.wellFormed]

theorem templateLen4_wellFormed_iff (m : Word) :
    (Instr.templateLen4 m).wellFormed = true ↔ 2 ^ 16 ≤ m.toNat ∧ m.toNat < 2 ^ 32 := by
  simp [Instr.wellFormed]

theorem templateLen6_wellFormed_iff (m : Word) :
    (Instr.templateLen6 m).wellFormed = true ↔ 2 ^ 32 ≤ m.toNat ∧ m.toNat < 2 ^ 48 := by
  simp [Instr.wellFormed]

theorem templateLen8_wellFormed_iff (m : Word) : (Instr.templateLen8 m).wellFormed = true ↔ 2 ^ 48 ≤ m.toNat := by
  simp [Instr.wellFormed]

theorem templateLength_of_two {m : Word} (h : m.toNat < 2 ^ 16) : templateLength m = .two := if_pos h

theorem templateLength_of_four {m : Word} (h1 : 2 ^ 16 ≤ m.toNat) (h2 : m.toNat < 2 ^ 32) : templateLength m = .four := by
  rw [templateLength, if_neg (by omega), if_pos (by omega)]

theorem templateLength_of_six {m : Word} (h1 : 2 ^ 32 ≤ m.toNat) (h2 : m.toNat < 2 ^ 48) : templateLength m = .six := by
  rw [templateLength, if_neg (by omega), if_neg (by omega), if_pos (by omega)]

theorem templateLength_of_eight {m : Word} (h : 2 ^ 48 ≤ m.toNat) : templateLength m = .eight := by
  rw [templateLength, if_neg (by omega), if_neg (by omega), if_neg (by omega)]

/-- The derived length is answered with no outcome code (60_exceptions.md R160). -/
theorem deriveLength_of_running {s : State} (hs : s.dec.halted = false) {m : Word} {l : ByteLen}
    (h : templateLength m = l) : deriveLength m s = .next (testAnswered (.length l) s) := by
  rw [deriveLength, unlessHalted_of_running hs, h]
  rfl

/-- Settles O11: a threshold is a power of two, so it says where the highest set bit lies. -/
theorem templateLengthRows : Obligations.TemplateLengthRows := by
  intro m s hs
  rw [templateLen2_wellFormed_iff, templateLen4_wellFormed_iff, templateLen6_wellFormed_iff,
    templateLen8_wellFormed_iff]
  refine ⟨⟨toNat_lt_two_pow_iff m 16, fun h => ?_⟩,
    ⟨and_congr (two_pow_le_toNat_iff m 16) (toNat_lt_two_pow_iff m 32), fun ⟨h1, h2⟩ => ?_⟩,
    ⟨and_congr (two_pow_le_toNat_iff m 32) (toNat_lt_two_pow_iff m 48), fun ⟨h1, h2⟩ => ?_⟩,
    two_pow_le_toNat_iff m 48, fun h => ?_⟩
  · exact deriveLength_of_running hs (templateLength_of_two h)
  · exact deriveLength_of_running hs (templateLength_of_four h1 h2)
  · exact deriveLength_of_running hs (templateLength_of_six h1 h2)
  · exact deriveLength_of_running hs (templateLength_of_eight h)

/-! #### The long-immediate sentinel (R76) -/

/-- A plain register operand is rejected exactly when it holds the sentinel (42_format_matcher.md R122). -/
theorem testSentinel_of_running {s : State} (hs : s.dec.halted = false) (l : ByteLen) (m : VariantMask) (v : I64) :
    testSentinel l m v s = .next (testAnswered (.rejected (decide (sentinel s.cfg l m = some v))) s) := by
  rw [testSentinel, unlessHalted_of_running hs]
  rfl

theorem sentinel_two_current (P : Params) {m : VariantMask} (h : meetsCurrent m = true) :
    sentinel P .two m = some 0x1e := if_pos (by simpa [meetsCurrent] using h)

theorem sentinel_two_legacy (P : Params) {m : VariantMask} (h : meetsCurrent m = false) :
    sentinel P .two m = P.limmSentinel2BLegacy := if_neg (by simpa [meetsCurrent] using h)

/-- Settles O12: each row tests its value against the sentinel of its length and mask. -/
theorem sentinelRows : Obligations.SentinelRows := by
  intro m x s hs
  refine ⟨testSentinel_of_running hs .four m 0x3e, fun h => ?_, fun h => ?_⟩
  · refine (testSentinel_of_running hs .two m 0x1e).trans ?_
    rw [sentinel_two_current _ h, decide_eq_true rfl]
  · refine (testSentinel_of_running hs .two m x).trans ?_
    rw [sentinel_two_legacy _ (by simpa [Instr.wellFormed] using h)]

/-! #### The compressed register codes (R74) -/

theorem shorthandCode_of_running {s : State} (hs : s.dec.halted = false) (c : Nat) :
    shorthandCode c s = .next (answeredOk (.value (BitVec.ofNat 64 (expandShorthand c)) false) s) := by
  rw [shorthandCode, unlessHalted_of_running hs]
  rfl

/-- Settles O13: the remapping is evaluated at the eight codes. -/
theorem shorthandCodesNameTheirRegisters : Obligations.ShorthandCodesNameTheirRegisters := fun _ hs =>
  ⟨shorthandCode_of_running hs 0, shorthandCode_of_running hs 1, shorthandCode_of_running hs 2,
    shorthandCode_of_running hs 3, shorthandCode_of_running hs 4, shorthandCode_of_running hs 5,
    shorthandCode_of_running hs 6, shorthandCode_of_running hs 7⟩

/-! #### The all-zero word (R82) -/

theorem findFormat_of_no_survivor {P : Params} (hw : tablesWf P = true) {w : Word} {l : ByteLen} {m : VariantMask}
    (h : ∀ T ∈ P.tOpcodes, ¬Survives P w l m T) : findFormat P w l m = none := by
  obtain ⟨t, T, hT, hsurv, -⟩ | ⟨-, hf⟩ := findFormat_spec hw w l m
  · exact absurd hsurv (h T (List.mem_of_getElem? hT))
  · exact hf

/-- A miss of FIND_FORMAT (42_format_matcher.md R130). -/
theorem execFindFormat_of_miss {s : State} (hs : s.dec.halted = false) (hw : tablesWf s.cfg = true) {w : Word}
    {l : ByteLen} {m : VariantMask} (hf : findFormat s.cfg w l m = none) :
    execFindFormat w l m s = .next (missed .notFound s) := by
  simp only [execFindFormat, unlessHalted_of_running hs, hw, if_true, hf]
  rfl

/-- Settles O26: the obligation on the table says that no template survives, so the scan finds none. -/
theorem allZeroWordIsIllegal : Obligations.AllZeroWordIsIllegal := by
  intro m s hs hw hz
  rw [exec_findFormat, execFindFormat_of_miss hs hw (findFormat_of_no_survivor hw hz)]

end Sys2Proof.Machine
end

section
/-! ### Proofs about the bit extractors (40_bit_extractors.md): construction of a split field, sign extension, EXTRACT

What EXTRACT answers is said once, for every well-formed descriptor, by `exec_extract_of_wf`; each extractor family then
needs only the value its extractor gives. -/

namespace Sys2Proof.Machine

/-! #### Construction and assembly of a split field (R94) -/

/-- One group's contribution to the constructed word, bit by bit. -/
theorem scatterGroup_testBit (g : BitGroup) (a i : Nat) :
    (((a >>> g.dst) &&& maskOf (groupWidth g)) <<< g.lo).testBit i =
      (decide (g.lo ≤ i ∧ i ≤ g.hi) && a.testBit (g.dst + (i - g.lo))) := by
  rw [Nat.testBit_shiftLeft, maskOf, Nat.testBit_and, Nat.testBit_shiftRight, Nat.testBit_two_pow_sub_one]
  by_cases h : g.lo ≤ i
  · have hw : i - g.lo < groupWidth g ↔ i ≤ g.hi := by unfold groupWidth; omega
    simp [h, hw, Bool.and_comm]
  · simp [h]

theorem scatterFrom_testBit (a i : Nat) : ∀ (gs : List BitGroup) (w : Nat),
    (gs.foldl (fun w g => w ||| (((a >>> g.dst) &&& maskOf (groupWidth g)) <<< g.lo)) w).testBit i =
      (w.testBit i || gs.any fun g => decide (g.lo ≤ i ∧ i ≤ g.hi) && a.testBit (g.dst + (i - g.lo)))
  | [], w => by simp
  | g :: gs, w => by
    rw [List.foldl_cons, scatterFrom_testBit a i gs, Nat.testBit_or, scatterGroup_testBit, List.any_cons, Bool.or_assoc]

/-- The constructed word, bit by bit. -/
theorem scatter_getLsbD (gs : List BitGroup) (a : Nat) {i : Nat} (hi : i < 64) :
    (scatter gs a).getLsbD i =
      gs.any fun g => decide (g.lo ≤ i ∧ i ≤ g.hi) && a.testBit (g.dst + (i - g.lo)) := by
  rw [scatter, BitVec.getLsbD_ofNat, scatterFrom_testBit, Nat.zero_testBit, Bool.false_or, decide_eq_true hi,
    Bool.true_and]

/-- Two groups that use the same bit of the word are the same group. -/
theorem groupsApart_same {gs : List BitGroup} (h : GroupsApart gs) {g g' : BitGroup} (hg : g ∈ gs) (hg' : g' ∈ gs)
    {i : Nat} (h1 : g.lo ≤ i ∧ i ≤ g.hi) (h2 : g'.lo ≤ i ∧ i ≤ g'.hi) : g = g' := by
  have hsymm : Std.Symm fun g h : BitGroup => g.hi < h.lo ∨ h.hi < g.lo := ⟨fun _ _ => Or.symm⟩
  by_contra hne
  have := h.forall hg hg' hne
  omega

/-- From the word a value is constructed into, the groups take that value's bits. -/
theorem scatter_assembled {gs : List BitGroup} {n : Nat} (h : groupsCover gs n = true) (hapart : GroupsApart gs)
    (a : Nat) : Assembled gs (scatter gs a) a := by
  intro g hg j hj
  obtain ⟨-, hhi, -⟩ := groupsCover_group h hg
  have hin : g.lo ≤ g.lo + j ∧ g.lo + j ≤ g.hi := by unfold groupWidth at hj; omega
  rw [scatter_getLsbD gs a (by omega), Bool.eq_iff_iff, List.any_eq_true]
  constructor
  · exact fun hbit => ⟨g, hg, by simpa [hin.2] using hbit⟩
  · rintro ⟨g', hg', hbit⟩
    obtain ⟨hin', hbit⟩ := (Bool.and_eq_true _ _).mp hbit
    obtain rfl := groupsApart_same hapart hg hg' hin (of_decide_eq_true hin')
    rwa [Nat.add_sub_cancel_left] at hbit

/-- The groups cover a field's bits, so a word assembles to one value only. -/
theorem Assembled.unique {gs : List BitGroup} {n : Nat} (h : groupsCover gs n = true) {w : Word} {a a' : Nat}
    (ha : Assembled gs w a) (ha' : Assembled gs w a') (hlt : a < 2 ^ n) (hlt' : a' < 2 ^ n) : a = a' := by
  refine Nat.eq_of_testBit_eq fun b => ?_
  rcases Nat.lt_or_ge b n with hb | hb
  · obtain ⟨g, hg⟩ := groupsCover_unique h hb
    obtain ⟨hmem, hgives⟩ := List.mem_filter.mp (hg ▸ List.mem_singleton_self g)
    simp only [groupGives, Bool.and_eq_true, decide_eq_true_eq] at hgives
    obtain ⟨j, rfl⟩ := Nat.exists_eq_add_of_le hgives.1
    exact (ha g hmem j (by omega)).trans (ha' g hmem j (by omega)).symm
  · have hle : 2 ^ n ≤ 2 ^ b := Nat.pow_le_pow_right (by decide) hb
    rw [Nat.testBit_lt_two_pow (hlt.trans_le hle), Nat.testBit_lt_two_pow (hlt'.trans_le hle)]

/-- Settles O20: the value and what is assembled again are both the field of the constructed word, which is unique. -/
theorem fieldConstructionRoundTrip : Obligations.FieldConstructionRoundTrip := fun gs _ a h hapart ha =>
  (assemble_assembled h (scatter gs a)).unique h (scatter_assembled h hapart a) (assemble_lt h _) ha

/-! #### Sign extension (R92) -/

/-- Settles O19: two's complement, and its bounds at width `n` lie within those at 64. -/
theorem signExtensionIsTwosComplement : Obligations.SignExtensionIsTwosComplement := by
  intro n v hn h64 hv
  obtain ⟨hlo, hhi⟩ := sext_bounds hn hv
  have hp : (2 : Int) ^ (n - 1) ≤ 2 ^ 63 := pow_le_pow_right₀ (by decide) (by omega)
  exact ⟨sext_eq hn hv, (neg_le_neg hp).trans hlo, hhi.trans_le hp⟩

/-! #### EXTRACT (R91) -/

theorem exec_extract (w : Word) (k : Nat) (s : State) : exec (.extract w k) s = execExtract w k s := rfl

theorem exec_extract_of_outside {s : State} (hs : s.dec.halted = false) {k : Nat} (hk : s.cfg.tOperands.length ≤ k)
    (w : Word) : exec (.extract w k) s = .refused .descriptorOutsideTable := by
  rw [exec_extract, execExtract, unlessHalted_of_running hs, List.getElem?_eq_none hk]

theorem exec_extract_of_broken {s : State} (hs : s.dec.halted = false) {k : Nat} {d : OperandDescriptor}
    (hd : s.cfg.tOperands[k]? = some d) (hw : descriptorWf d = false) (w : Word) :
    exec (.extract w k) s = .refused .illFormedTables := by
  simp only [exec_extract, execExtract, unlessHalted_of_running hs, hd, hw, Bool.false_eq_true, if_false]

/-- OK with what the descriptor's extractor, or the plain read, makes of the word. -/
theorem exec_extract_of_wf {s : State} (hs : s.dec.halted = false) {k : Nat} {d : OperandDescriptor}
    (hd : s.cfg.tOperands[k]? = some d) (hw : descriptorWf d = true) (w : Word) :
    exec (.extract w k) s =
      .next (answeredOk (.value (extractWith s.cfg w d).1 (extractWith s.cfg w d).2) s) := by
  simp only [exec_extract, execExtract, unlessHalted_of_running hs, hd, hw, if_true]
  rfl

theorem exec_extract_of_extractor {s : State} (hs : s.dec.halted = false) {k : Nat} {d : OperandDescriptor}
    (hd : s.cfg.tOperands[k]? = some d) (hw : descriptorWf d = true) {e : Extractor} (he : d.extract = some e)
    (w : Word) :
    exec (.extract w k) s =
      .next (answeredOk (.value (runExtractor s.cfg w e).1 (runExtractor s.cfg w e).2) s) := by
  rw [exec_extract_of_wf hs hd hw, extractWith, he]

/-- Settles O21: the table lookup fails, or the descriptor's check does. -/
theorem extractRefusals : Obligations.ExtractRefusals := by
  intro w k s hs
  refine ⟨fun hk => exec_extract_of_outside hs hk w, fun d hd => ?_⟩
  rw [← descriptorWf_eq_false_iff]
  refine ⟨fun hr => Bool.eq_false_iff.mpr fun hw => ?_, fun hw => exec_extract_of_broken hs hd hw w⟩
  rw [exec_extract_of_wf hs hd hw] at hr
  cases hr

/-- Settles O14: the shift and mask of the plain read are division and remainder. -/
theorem extractPlainRead : Obligations.ExtractPlainRead := by
  intro w k d s hs hd hw he
  rw [exec_extract_of_wf hs hd hw, extractWith, he, ← fieldAt_eq]
  rfl

/-- Settles O15: the extractor answers the number of its register. -/
theorem extractFixedRegister : Obligations.ExtractFixedRegister := by
  intro w k d r s hs hd hw he
  rw [exec_extract_of_extractor hs hd hw he]
  cases r <;> rfl

/-- Settles O16: the raw code is three bits of the word, remapped (30_encoding.md R74). -/
theorem extractShorthandRegister : Obligations.ExtractShorthandRegister := by
  intro w k d x lo s hs hd hw he
  have hcode : w.toNat / 2 ^ lo % 8 = fieldAt w lo 3 := (fieldAt_eq w lo 3).symm
  rw [exec_extract_of_extractor hs hd hw he, hcode]
  rfl

/-! #### Split fields (R94, R96, R97) -/

theorem extractorWf_of_descriptorWf {d : OperandDescriptor} (hw : descriptorWf d = true) {e : Extractor}
    (he : d.extract = some e) (hf : ∀ r, e ≠ .fixed r) : extractorWf e = true := by
  rw [descriptorWf, he, Bool.and_eq_true] at hw
  cases e with
  | fixed r => exact absurd rfl (hf r)
  | field | shorthand | regB => exact hw.2

theorem extractorWf_field_iff (gs : List BitGroup) (signed : Bool) (n : Nat) (sc : Scale) :
    extractorWf (.field gs signed n sc) = true ↔
      groupsCover gs n = true ∧ n ≤ 64 ∧ (signed = true → 1 ≤ n) ∧ (sc = .one ∨ n + 2 ≤ 64) := by
  cases signed <;> simp [extractorWf, and_assoc]

/-- Settles O17: the groups cover six bits, and what they assemble is compared with the sentinel. -/
theorem extractRegB : Obligations.ExtractRegB := by
  intro w k d gs s hs hd hw he
  have hcover : groupsCover gs 6 = true := extractorWf_of_descriptorWf hw he (by simp)
  exact ⟨assemble gs w, assemble_lt hcover w, assemble_assembled hcover w, exec_extract_of_extractor hs hd hw he w⟩

/-- "Scaling by 2 or 4 cannot overflow an i64 because `N + 2 <= 64` is required of a scaled field" (R102). -/
theorem two_pow_mul_scaleFactor_le {n : Nat} {sc : Scale} (hn : n ≤ 64) (hsc : sc = .one ∨ n + 2 ≤ 64) :
    (2 : Int) ^ (n - 1) * scaleFactor sc ≤ 2 ^ 63 := by
  obtain rfl | hn2 := hsc
  · exact (mul_one _).trans_le (pow_le_pow_right₀ (by decide) (by omega))
  · have hp : (2 : Int) ^ (n - 1) ≤ 2 ^ 61 := pow_le_pow_right₀ (by decide) (by omega)
    have hf : scaleFactor sc ≤ 4 := by cases sc <;> decide
    have h0 : 0 ≤ scaleFactor sc := by cases sc <;> decide
    exact mul_le_mul hp hf h0 (by positivity)

/-- A signed field's value is exact in the i64. -/
theorem fieldExtract_signed_toInt {gs : List BitGroup} {n : Nat} {sc : Scale} {w : Word}
    (hwf : extractorWf (.field gs true n sc) = true) :
    (fieldExtract gs true n sc w).toInt = sext n (assemble gs w) * scaleFactor sc := by
  obtain ⟨hcover, hn, hpos, hsc⟩ := (extractorWf_field_iff ..).mp hwf
  obtain ⟨hlo, hhi⟩ := sext_bounds (hpos rfl) (assemble_lt hcover w)
  have hs : 0 < scaleFactor sc := by cases sc <;> decide
  have hmax := two_pow_mul_scaleFactor_le hn hsc
  have hbelow := mul_lt_mul_of_pos_right hhi hs
  have habove := mul_le_mul_of_nonneg_right hlo hs.le
  rw [neg_mul] at habove
  rw [fieldExtract, if_pos rfl]
  exact BitVec.toInt_ofInt_eq_self (by decide) (by omega) (by omega)

/-- A scaled value keeps the zeros of its scale: 2 and 4 divide `2^64`. -/
theorem fieldExtract_mod_scale (gs : List BitGroup) (signed : Bool) (n : Nat) (sc : Scale) (w : Word) :
    ((fieldExtract gs signed n sc w).toNat : Int) % scaleFactor sc = 0 := by
  rw [fieldExtract, BitVec.toNat_ofInt]
  cases sc <;> simp only [scaleFactor] <;> omega

/-- Settles O18: the assembled field, and the value its extractor makes of it. -/
theorem extractSplitField : Obligations.ExtractSplitField := by
  intro w k d gs signed n sc s hs hd hw he
  have hwf := extractorWf_of_descriptorWf hw he (by simp)
  obtain ⟨hcover, -, hpos, -⟩ := (extractorWf_field_iff ..).mp hwf
  have hlt := assemble_lt hcover w
  have hzeros := fieldExtract_mod_scale gs signed n sc w
  refine ⟨assemble gs w, fieldExtract gs signed n sc w, hlt, assemble_assembled hcover w,
    exec_extract_of_extractor hs hd hw he w, ?_, ?_, ?_, ?_⟩
  · rintro rfl
    cases sc <;> rfl
  · rintro rfl
    rw [fieldExtract_signed_toInt hwf, sext_eq (hpos rfl) hlt]
    cases sc <;> rfl
  · rintro rfl
    simp only [scaleFactor] at hzeros
    omega
  · rintro rfl
    simp only [scaleFactor] at hzeros
    omega

end Sys2Proof.Machine
end

section
/-! ### Proofs about the classifier (41_length_classifier.md): CLASSIFY under each group of variants, the length of a
template READ_AND_DECODE returns -/

namespace Sys2Proof.Machine

/-! #### CLASSIFY -/

theorem exec_classify (u0 : InsnUnit) (v : VariantMask) (s : State) :
    exec (.classify u0 v) s = classifyUnit u0 v s := rfl

theorem isCurrentVariant_iff (v : VariantMask) :
    isCurrentVariant v = true ↔ v = VariantMask.em ∨ v = VariantMask.hs := by
  simp only [isCurrentVariant, Bool.or_eq_true, beq_iff_eq]

theorem isLegacyVariant_iff (v : VariantMask) :
    isLegacyVariant v = true ↔ v = VariantMask.a600 ∨ v = VariantMask.a700 := by
  simp only [isLegacyVariant, Bool.or_eq_true, beq_iff_eq]

/-- Settles O5: the current variants' rule, with the major opcode as a number. -/
theorem classifyCurrentVariants : Obligations.ClassifyCurrentVariants := by
  intro u0 v s hs hv
  rw [exec_classify, classifyUnit_current hs ((isCurrentVariant_iff v).mpr hv), currentLength_eq]

/-- Settles O6: the legacy variants' rule, with the major and minor opcodes as numbers. -/
theorem classifyLegacyVariants : Obligations.ClassifyLegacyVariants := by
  intro u0 v s hs hv
  rw [exec_classify, classifyUnit_legacy hs ((isLegacyVariant_iff v).mpr hv)]
  exact congrArg (fun l => Host.Outcome.next (answeredOk (.length l) s)) (legacyLength_eq s.cfg u0)

/-- The variant is tested before anything of the unit (R106). -/
theorem classifyLength_of_unrecognised {v : VariantMask}
    (hv : v ∉ [VariantMask.a600, VariantMask.a700, VariantMask.em, VariantMask.hs]) (P : Params) (u0 : InsnUnit) :
    classifyLength P u0 v = none := by
  simp only [List.mem_cons, List.not_mem_nil, or_false, not_or] at hv
  obtain ⟨ha600, ha700, hem, hhs⟩ := hv
  rw [classifyLength, if_neg (not_or.mpr ⟨hem, hhs⟩), if_neg (not_or.mpr ⟨ha600, ha700⟩)]

theorem classifyUnit_of_fatal {u0 : InsnUnit} {v : VariantMask} {s : State} (hs : s.dec.halted = false)
    (h : classifyLength s.cfg u0 v = none) : classifyUnit u0 v s = .next (raiseVariant v s) := by
  simp only [classifyUnit, unlessHalted_of_running hs, h]

/-- A fatal condition with nothing traced before its diagnostic, as the claims state it. -/
theorem raiseFatal_eq_fatalTaken (c : OutcomeCode) (i : OutcomeInfo) (d : Diag) (s : State) :
    raiseFatal c i d s = fatalTaken c i [] d s := by
  rw [fatalTaken, List.append_nil]
  rfl

/-- Settles O7: no rule gives a length, so the variant is fatal. -/
theorem classifyUnrecognisedVariantIsFatal : Obligations.ClassifyUnrecognisedVariantIsFatal := by
  intro u0 v s hs hv
  rw [exec_classify, classifyUnit_of_fatal hs (classifyLength_of_unrecognised hv s.cfg u0), raiseVariant_eq,
    raiseFatal_eq_fatalTaken]

/-! #### The template READ_AND_DECODE returns

Only `finishDecode` answers with a template; every stage hands on what the matcher was asked for it. -/

/-- The end of a matched instruction answers with no template but the one matched. -/
theorem decodeLimm_decoded {k k' : Nat} {c : DecodedInsn} {l : ByteLen} {s : State}
    (h : (decodeLimm k c l s).port.answer.out = .decoded k') : k' = k := by
  obtain ⟨-, he⟩ | ⟨-, ⟨-, he⟩ | ⟨w, -, he⟩⟩ := decodeLimm_cases k c l s <;> rw [he] at h
  · simpa using h.symm
  · simp at h
  · simpa using h.symm

/-- A template the matcher returns is an entry of the table that survives (42_format_matcher.md R115). -/
theorem findFormat_survives {P : Params} (hw : tablesWf P = true) {w : Word} {l : ByteLen} {m : VariantMask} {k : Nat}
    {c : DecodedInsn} (h : findFormat P w l m = some (k, c)) :
    ∃ T, P.tOpcodes[k]? = some T ∧ Survives P w l m T := by
  obtain ⟨t, T, hT, hsurv, -, hf⟩ | ⟨-, hf⟩ := findFormat_spec hw w l m <;> rw [hf] at h
  · cases h
    exact ⟨T, hT, hsurv⟩
  · cases h

section
variable {s t : State} {k : Nat}

theorem decodeWord_decoded {w : Word} {l : ByteLen} (h : decodeWord w l s = .next t)
    (hk : t.port.answer.out = .decoded k) :
    ∃ T, s.cfg.tOpcodes[k]? = some T ∧ Survives s.cfg w l s.dec.ctx.cpuVariant T := by
  obtain ⟨hw, ⟨-, rfl⟩ | ⟨k', c, hf, rfl⟩⟩ := decodeWord_next h
  · simp at hk
  · obtain rfl := decodeLimm_decoded hk
    exact findFormat_survives hw hf

theorem decodeFour_decoded {u0 : InsnUnit} (h : decodeFour u0 s = .next t) (hk : t.port.answer.out = .decoded k) :
    ∃ T w, s.cfg.tOpcodes[k]? = some T ∧ Survives s.cfg w .four s.dec.ctx.cpuVariant T := by
  obtain ⟨-, rfl⟩ | ⟨u1, -, h⟩ := decodeFour_next h
  · simp at hk
  · obtain ⟨T, hT, hsurv⟩ := decodeWord_decoded h hk
    exact ⟨T, _, hT, hsurv⟩

/-- The matcher was asked for the length the classifier gives the first unit. -/
theorem decodeUnit_decoded {u0 : InsnUnit} (h : decodeUnit u0 s = .next t) (hk : t.port.answer.out = .decoded k) :
    ∃ T w l, s.cfg.tOpcodes[k]? = some T ∧ classifyLength s.cfg u0 s.dec.ctx.cpuVariant = some l ∧
      Survives s.cfg w l s.dec.ctx.cpuVariant T := by
  obtain ⟨-, rfl⟩ | ⟨hl, h⟩ | ⟨hl, h⟩ | ⟨l, -, -, rfl⟩ := decodeUnit_next h
  · simp [raiseVariant_eq] at hk
  · obtain ⟨T, hT, hsurv⟩ := decodeWord_decoded h hk
    exact ⟨T, _, .two, hT, hl, hsurv⟩
  · obtain ⟨T, w, hT, hsurv⟩ := decodeFour_decoded h hk
    exact ⟨T, w, .four, hT, hl, hsurv⟩
  · simp [raiseLength_eq] at hk

theorem decodeEntry_decoded (h : decodeEntry s = .next t) (hk : t.port.answer.out = .decoded k) :
    ∃ T u0 w l, s.cfg.tOpcodes[k]? = some T ∧
      s.bus.arrive.unitAt s.cfg.bigEndian s.dec.ctx.currentPc = some u0 ∧
      classifyLength s.cfg u0 s.dec.ctx.cpuVariant = some l ∧ Survives s.cfg w l s.dec.ctx.cpuVariant T := by
  obtain ⟨-, rfl⟩ | ⟨u0, hu, h⟩ := decodeEntry_next h
  · simp at hk
  · obtain ⟨T, w, l, hT, hl, hsurv⟩ := decodeUnit_decoded h hk
    exact ⟨T, u0, w, l, hT, hu, hl, hsurv⟩

end

/-- Settles O37: the template survived the matcher, which tests its variant and its derived length (42_format_matcher.md
R116, R117). -/
theorem returnedTemplateHasClassifiedLength : Obligations.ReturnedTemplateHasClassifiedLength := by
  intro pc v s t k hs h hk
  obtain ⟨hh, -⟩ | ⟨-, -, h⟩ := execReadAndDecode_next h
  · rw [hs] at hh
    cases hh
  obtain ⟨T, u0, w, l, hT, hu, hl, hsurv⟩ := decodeEntry_decoded h hk
  exact ⟨T, u0, hT, hu, hl.trans (congrArg some hsurv.length.symm), hsurv.variant⟩

end Sys2Proof.Machine
end

section
/-! ### Proofs about the format matcher (42_format_matcher.md): FIND_FORMAT's result, what it reads and writes, the flag
classes -/

namespace Sys2Proof.Machine

/-! #### The flag classes (R125 to R128)

A class that is not implicit scans its members; the record the scan ends with is followed here, beside the two marks
of `MemberScan` that decide on rejection. -/

/-- Settles O27: the members are never compared with the word. -/
theorem implicitClassCopiesFirstCode : Obligations.ImplicitClassCopiesFirstCode := by
  intro P w cl m0 ms c hi hm
  rw [applyClass, if_pos hi, hm]
  rfl

/-- A class that is not implicit and does not reject leaves the record its scan ends with. -/
theorem applyClass_of_passes {P : Params} {w : Word} {cl : FlagClass} (hi : cl.kind.implicit = false)
    (hp : ClassPasses P w cl) (c : DecodedInsn) :
    applyClass P w cl c = some (scanMembers w cl.kind (membersOf P cl) c).insn := by
  have hne : applyClass P w cl c ≠ none := fun h => (applyClass_none_iff P w cl c).mp h hp
  rw [applyClass, if_neg (by simp [hi])] at hne ⊢
  exact if_neg fun hr => hne (if_pos hr)

theorem scanMember_insn_of_match {w : Word} {m : FlagOperand} (h : fieldAt w m.shift m.bitWidth = m.code)
    (k : ClassKind) (r : MemberScan) : (scanMember w k r m).insn = applyEffect k m.code r.insn := if_pos h

theorem scanMember_insn_of_ne {w : Word} {m : FlagOperand} (h : fieldAt w m.shift m.bitWidth ≠ m.code)
    (k : ClassKind) (r : MemberScan) : (scanMember w k r m).insn = r.insn := if_neg h

/-- Members that do not match leave the record alone. -/
theorem scanFrom_insn_of_unmatched {w : Word} (k : ClassKind) {ms : List FlagOperand} :
    (∀ m ∈ ms, fieldAt w m.shift m.bitWidth ≠ m.code) →
      ∀ r : MemberScan, (ms.foldl (scanMember w k) r).insn = r.insn := by
  induction ms with
  | nil => exact fun _ _ => rfl
  | cons m ms ih =>
    intro h r
    obtain ⟨hm, hms⟩ := List.forall_mem_cons.mp h
    rw [List.foldl_cons, ih hms, scanMember_insn_of_ne hm]

/-- The members of one class write the same fields, so a later effect covers an earlier one. -/
theorem applyEffect_applyEffect (k : ClassKind) (code code' : Nat) (c : DecodedInsn) :
    applyEffect k code (applyEffect k code' c) = applyEffect k code c := by
  simp +contextual [applyEffect]

/-- Whatever members a scan has gone through, the next effect covers what they wrote. -/
theorem applyEffect_scanFrom (w : Word) (k : ClassKind) (code : Nat) (ms : List FlagOperand) :
    ∀ r : MemberScan, applyEffect k code (ms.foldl (scanMember w k) r).insn = applyEffect k code r.insn := by
  induction ms with
  | nil => exact fun _ => rfl
  | cons m ms ih =>
    intro r
    rw [List.foldl_cons, ih]
    by_cases hm : fieldAt w m.shift m.bitWidth = m.code
    · rw [scanMember_insn_of_match hm, applyEffect_applyEffect]
    · rw [scanMember_insn_of_ne hm]

/-- The last member that matches stands (R127): the scan leaves its effect on the record it began with. -/
theorem scanMembers_insn_of_last_match {w : Word} (k : ClassKind) {before after : List FlagOperand} {m : FlagOperand}
    (hm : fieldAt w m.shift m.bitWidth = m.code) (hafter : ∀ m' ∈ after, fieldAt w m'.shift m'.bitWidth ≠ m'.code)
    (c : DecodedInsn) : (scanMembers w k (before ++ m :: after) c).insn = applyEffect k m.code c := by
  rw [scanMembers, List.foldl_append, List.foldl_cons, scanFrom_insn_of_unmatched k hafter,
    scanMember_insn_of_match hm, applyEffect_scanFrom]

/-- Every field an effect writes, F, DI and X among them, as a choice between writing and keeping (30_encoding.md R78). -/
theorem applyEffect_eq (k : ClassKind) (code : Nat) (c : DecodedInsn) :
    applyEffect k code c =
      { c with
        cc := if k.cond then code else c.cc
        aa := if k.wb then code else c.aa
        zz := if k.zz then code else c.zz
        d := if k.d then decide (code ≠ 0) else c.d
        f := if k.f then true else c.f
        di := if k.di then true else c.di
        x := if k.x then true else c.x } := by
  have hor : ∀ a b : Bool, (a || b) = if b then true else a := by decide
  rw [applyEffect, hor, hor, hor]

/-- Settles O28: the class passes by its matching member, and the scan ends with the last match's effect. -/
theorem matchingMemberAppliesEveryKind : Obligations.MatchingMemberAppliesEveryKind := by
  intro P w cl before after m c hi hmem hm hafter
  simp only [← fieldAt_eq] at hm hafter
  have hpass : ClassPasses P w cl := .inr (.inl ⟨m, by simp [hmem], hm⟩)
  rw [applyClass_of_passes hi hpass, hmem, scanMembers_insn_of_last_match cl.kind hm hafter, applyEffect_eq]

/-- Settles O29: with no match the class passes exactly when every field is zero, and then the scan has written
nothing. -/
theorem unexplainedFlagsReject : Obligations.UnexplainedFlagsReject := by
  intro P w cl c hi hno
  simp only [← fieldAt_eq] at hno ⊢
  constructor
  · rintro ⟨m, hm, hnz⟩
    refine (applyClass_none_iff P w cl c).mpr ?_
    rintro (himp | ⟨m', hm', hmatch⟩ | hzero)
    · simp [hi] at himp
    · exact hno m' hm' hmatch
    · exact hnz (hzero m hm)
  · intro hzero
    rw [applyClass_of_passes hi (.inr (.inr hzero)), scanMembers, scanFrom_insn_of_unmatched cl.kind hno]

/-! #### FIND_FORMAT (R115, R129 to R131, R133) -/

/-- A match of FIND_FORMAT (R129). -/
theorem execFindFormat_of_found {s : State} (hs : s.dec.halted = false) (hw : tablesWf s.cfg = true) {w : Word}
    {l : ByteLen} {m : VariantMask} {k : Nat} {c : DecodedInsn} (hf : findFormat s.cfg w l m = some (k, c)) :
    execFindFormat w l m s = .next (complete .ok .nothing (.found k) (acceptRecord c s)) := by
  simp only [execFindFormat, unlessHalted_of_running hs, hw, if_true, hf]

/-- Settles O22: the two results of the scan, and how FIND_FORMAT ends on each. -/
theorem findFormatReturnsFirstSurvivor : Obligations.FindFormatReturnsFirstSurvivor := by
  intro w l m s hs hw
  obtain ⟨t, T, hT, hsurv, hfirst, hf⟩ | ⟨hnone, hf⟩ := findFormat_spec hw w l m
  · exact .inl ⟨t, T, hT, hsurv, hfirst, execFindFormat_of_found hs hw hf⟩
  · exact .inr ⟨hnone, execFindFormat_of_miss hs hw hf⟩

/-- Settles O25: the table check and the scan read the parameters alone, and each way to end copies its result. -/
theorem findFormatIgnoresOldState : Obligations.FindFormatIgnoresOldState := by
  intro w l m s s' hs hs' hcfg
  rw [exec_findFormat, exec_findFormat]
  cases hw : tablesWf s.cfg with
  | false => rw [execFindFormat_of_broken hs hw, execFindFormat_of_broken hs' (hcfg ▸ hw)]
  | true =>
    have hw' : tablesWf s'.cfg = true := hcfg ▸ hw
    cases hf : findFormat s.cfg w l m with
    | none =>
      rw [execFindFormat_of_miss hs hw hf, execFindFormat_of_miss hs' hw' (hcfg ▸ hf)]
      exact ⟨rfl, rfl, rfl⟩
    | some r =>
      rw [execFindFormat_of_found hs hw hf, execFindFormat_of_found hs' hw' (hcfg ▸ hf)]
      exact ⟨rfl, rfl, rfl⟩

/-- Settles O55: no way FIND_FORMAT ends writes the fields named. -/
theorem findFormatFrame : Obligations.FindFormatFrame := by
  intro w l m s t h
  obtain ⟨-, rfl⟩ | ⟨-, -, ⟨k, c, -, rfl⟩ | ⟨-, rfl⟩⟩ := execFindFormat_next h
  · simp
  · simp
  · simp

/-! #### The sentinel in a returned record (R122) -/

/-- A record the matcher returns is that of a template that survives. -/
theorem findFormat_eq_recordOf {P : Params} (hw : tablesWf P = true) {w : Word} {l : ByteLen} {m : VariantMask}
    {k : Nat} {c : DecodedInsn} (h : findFormat P w l m = some (k, c)) :
    ∃ T, Survives P w l m T ∧ c = recordOf P w l T := by
  obtain ⟨t, T, -, hsurv, -, hf⟩ | ⟨-, hf⟩ := findFormat_spec hw w l m <;> rw [hf] at h
  · cases h
    exact ⟨T, hsurv, rfl⟩
  · cases h

/-- Each operand of a survivor's record has passed the sentinel test. -/
theorem Survives.operand_ne_sentinel {P : Params} {w : Word} {l : ByteLen} {m : VariantMask} {T : OpcodeTemplate}
    (h : Survives P w l m T) {o : Operand} (ho : o ∈ (recordOf P w l T).operands) (hreg : o.type.reg = true)
    (hlimm : o.type.limm = false) : sentinel P l m ≠ some o.value := by
  obtain ⟨-, hops, -⟩ := recordOf_fields P w l T
  rw [hops] at ho
  obtain ⟨d, hd, rfl⟩ := List.mem_map.mp ho
  obtain ⟨-, hne⟩ := h.operands d hd
  exact hne hreg hlimm

/-- Settles O24: the record is a survivor's, and the sentinel of each row is that of `sentinel`. -/
theorem sentinelIsNeverReturned : Obligations.SentinelIsNeverReturned := by
  intro w l m s t k hs h hk o ho hreg hlimm
  have hne : sentinel s.cfg l m ≠ some o.value := by
    obtain ⟨hh, -⟩ | ⟨-, hw, ⟨k', c, hf, rfl⟩ | ⟨-, rfl⟩⟩ := execFindFormat_next h
    · simp [hs] at hh
    · obtain ⟨T, hsurv, rfl⟩ := findFormat_eq_recordOf hw hf
      exact hsurv.operand_ne_sentinel ho hreg hlimm
    · simp at hk
  refine ⟨?_, ?_, ?_⟩
  · rintro rfl hv
    exact hne (congrArg some hv.symm)
  · rintro rfl hm hv
    exact hne ((sentinel_two_current _ hm).trans (congrArg some hv.symm))
  · rintro rfl hm hv
    exact hne ((sentinel_two_legacy _ hm).trans hv)

end Sys2Proof.Machine
end

section
/-! ### Proofs about the decode entry (43_decode_entry.md): the ends of READ_AND_DECODE after its reads, what it leaves alone -/

namespace Sys2Proof.Machine

/-! #### The end of a matched instruction (R139 to R141)

The long immediate is read as a word; the claims give its two units. -/

theorem decodeLimm_of_units {c : DecodedInsn} {l : ByteLen} {s : State} {hi lo : InsnUnit} (hc : c.limmP = true)
    (hhi : s.bus.arrive.unitAt s.cfg.bigEndian (s.dec.ctx.currentPc + BitVec.ofNat 32 l.bytes) = some hi)
    (hlo : s.bus.arrive.unitAt s.cfg.bigEndian (s.dec.ctx.currentPc + BitVec.ofNat 32 l.bytes + 2) = some lo) (k : Nat) :
    decodeLimm k c l s = decodeReturned k c (hi ++ lo) (l.bytes + 4)
      (issueRead .read32 (s.dec.ctx.currentPc + BitVec.ofNat 32 l.bytes) s) := by
  rw [decodeLimm_of_read hc (wordAt_of_units hhi hlo), arrange_joinHalves, finishDecode_eq]

section
variable {pc : Addr} {v : VariantMask} {s : State} {b : Accessor} {rs : List Event} {w : Word} {l : ByteLen} {k : Nat}
  {c : DecodedInsn}

/-- A matched instruction without a long immediate ends where its reads have left it. -/
theorem decodeWord_afterReads_of_absent (hw : tablesWf s.cfg = true) (hf : findFormat s.cfg w l v = some (k, c))
    (hc : c.limmP = false) :
    decodeWord w l (afterReads pc v b rs s) = .next (decodeReturned k c 0 l.bytes (afterReads pc v b rs s)) := by
  rw [decodeWord_of_found (s := afterReads pc v b rs s) hw hf, decodeLimm_of_absent hc, finishDecode_eq]

/-- A matched instruction with a long immediate issues one more read, right after its base encoding. -/
theorem decodeWord_afterReads_of_limm {hi lo : InsnUnit} (hw : tablesWf s.cfg = true)
    (hf : findFormat s.cfg w l v = some (k, c)) (hc : c.limmP = true)
    (hhi : b.arrive.unitAt s.cfg.bigEndian (pc + BitVec.ofNat 32 l.bytes) = some hi)
    (hlo : b.arrive.unitAt s.cfg.bigEndian (pc + BitVec.ofNat 32 l.bytes + 2) = some lo) :
    decodeWord w l (afterReads pc v b rs s) =
      .next (decodeReturned k c (hi ++ lo) (l.bytes + 4)
        (afterReads pc v b.arrive (rs ++ [.read .read32 (pc + BitVec.ofNat 32 l.bytes)]) s)) := by
  rw [← issueRead_afterReads, decodeWord_of_found (s := afterReads pc v b rs s) hw hf]
  exact congrArg _ (decodeLimm_of_units (s := afterReads pc v b rs s) hc hhi hlo k)

/-- A miss, whatever the reads were. -/
theorem decodeWord_afterReads_of_miss (hw : tablesWf s.cfg = true) (hf : findFormat s.cfg w l v = none) :
    decodeWord w l (afterReads pc v b rs s) = .next (missed .undecoded (afterReads pc v b rs s)) :=
  decodeWord_of_miss (s := afterReads pc v b rs s) hw hf

end

/-- Settles O32: the first unit is the whole word; its long immediate stands 2 bytes on. -/
theorem decodeTwoByteInstruction : Obligations.DecodeTwoByteInstruction := by
  intro pc v s u0 k c hs hpc hw hu hl hf
  rw [exec_readAndDecode, execReadAndDecode_of_two hs hpc hu hl]
  refine ⟨decodeWord_afterReads_of_absent hw hf, fun hi lo hc hhi hlo => ?_⟩
  have hlo' : s.bus.arrive.arrive.unitAt s.cfg.bigEndian (pc + 2 + 2) = some lo := by rwa [BitVec.add_assoc]
  exact decodeWord_afterReads_of_limm hw hf hc hhi hlo'

/-- Settles O33: the second unit completes the word; its long immediate stands 4 bytes on. -/
theorem decodeFourByteInstruction : Obligations.DecodeFourByteInstruction := by
  intro pc v s u0 u1 k c hs hpc hw hu hl hu1 hf
  rw [exec_readAndDecode, execReadAndDecode_of_four hs hpc hu hl, decodeFour_afterReads_of_read hu1]
  refine ⟨decodeWord_afterReads_of_absent hw hf, fun hi lo hc hhi hlo => ?_⟩
  have hlo' : s.bus.arrive.arrive.arrive.unitAt s.cfg.bigEndian (pc + 4 + 2) = some lo := by rwa [BitVec.add_assoc]
  exact decodeWord_afterReads_of_limm hw hf hc hhi hlo'

/-- Settles O34: the reads assemble the word, and the matcher finds nothing for it. -/
theorem decodeMissReturnsFalse : Obligations.DecodeMissReturnsFalse := by
  intro pc v s u0 hs hpc hw hu
  refine ⟨fun hl hf => ?_, fun u1 hl hu1 hf => ?_⟩ <;> rw [exec_readAndDecode]
  · rw [execReadAndDecode_of_two hs hpc hu hl]
    exact decodeWord_afterReads_of_miss hw hf
  · rw [execReadAndDecode_of_four hs hpc hu hl, decodeFour_afterReads_of_read hu1]
    exact decodeWord_afterReads_of_miss hw hf

/-! #### The fatal ends (R136, R138) -/

theorem decodeUnit_of_unrecognised {s : State} {u0 : InsnUnit}
    (h : classifyLength s.cfg u0 s.dec.ctx.cpuVariant = none) :
    decodeUnit u0 s = .next (raiseVariant s.dec.ctx.cpuVariant s) := by
  simp only [decodeUnit, h]

/-- No assembly is described for these lengths (R138). -/
theorem decodeUnit_of_unassembled {s : State} {u0 : InsnUnit} {l : ByteLen} (hl : l = .six ∨ l = .eight)
    (h : classifyLength s.cfg u0 s.dec.ctx.cpuVariant = some l) : decodeUnit u0 s = .next (raiseLength l s) := by
  obtain rfl | rfl := hl <;> simp only [decodeUnit, h]

/-- Settles O35: the classifier ends the operation before the matcher looks at the tables. -/
theorem decodeFatalConditions : Obligations.DecodeFatalConditions := by
  intro pc v s u0 hs hpc hu
  rw [exec_readAndDecode, execReadAndDecode_of_read hs hpc hu, issueRead_presentContext]
  refine ⟨fun hl => ?_, fun l hl hc => ?_⟩
  · rw [decodeUnit_of_unrecognised hl, raiseVariant_eq, raiseFatal_eq_fatalTaken]
    rfl
  · rw [decodeUnit_of_unassembled hl hc, raiseLength_eq, raiseFatal_eq_fatalTaken]
    rfl

/-! #### What READ_AND_DECODE leaves alone (R134, R143) -/

/-- Once its reads are done, the operation writes none of the host's two fields, no `init_done` and no counter; a fatal
end empties `live_temps`. -/
theorem decodeNext_frame {s t : State} (h : DecodeNext s t) :
    t.dec.ctx.currentPc = s.dec.ctx.currentPc ∧ t.dec.ctx.cpuVariant = s.dec.ctx.cpuVariant ∧
      t.dec.initDone = s.dec.initDone ∧ (t.dec.liveTemps = s.dec.liveTemps ∨ t.dec.liveTemps = []) ∧
      t.nextTemp = s.nextTemp ∧ t.port.cmds = s.port.cmds := by
  cases h with
  | abort => exact ⟨rfl, rfl, rfl, .inl rfl, rfl, rfl⟩
  | variant => exact ⟨rfl, rfl, rfl, .inr rfl, rfl, rfl⟩
  | length => exact ⟨rfl, rfl, rfl, .inr rfl, rfl, rfl⟩
  | miss => exact ⟨rfl, rfl, rfl, .inl rfl, rfl, rfl⟩
  | done => exact ⟨rfl, rfl, rfl, .inl rfl, rfl, rfl⟩

/-- With no batch scheduled, reads leave the accessor as it is (20_memory.md R45, R56). -/
theorem readAll_bus_of_no_edits {s : State} (h : s.bus.edits = []) (rs : List (ReadWidth × Addr)) :
    (readAll rs s).bus = s.bus := by
  rw [readAll_eq]
  exact Function.iterate_fixed (Accessor.arrive_of_no_edits h) rs.length

/-- Settles O56: the reads change the accessor and the trace alone, and no end writes the fields named. -/
theorem readAndDecodeFrame : Obligations.ReadAndDecodeFrame := by
  intro pc v s t hs h
  obtain ⟨rs, -, hd⟩ := execReadAndDecode_ends hs h
  obtain ⟨hcfg, hbus, -⟩ := decodeNext_leaves_memory hd
  have hsame : s.bus.edits = [] → t.bus = s.bus := fun he =>
    hbus.trans (readAll_bus_of_no_edits (s := presentContext pc v s) he rs)
  have hframe := decodeNext_frame hd
  rw [readAll_eq] at hcfg hframe
  obtain ⟨hpc, hvar, hinit, hlive, htemp, hcmds⟩ := hframe
  exact ⟨hpc, hvar, hinit, hlive, htemp, hcfg, hcmds, fun he => ⟨hsame he, fun a => by rw [hsame he]⟩⟩

end Sys2Proof.Machine
end

section
/-! ### Proofs about the semantic dispatcher (44_semantic_dispatcher.md): its refusals, its three ends without a handle,
the generic path, what it leaves alone -/

namespace Sys2Proof.Machine

theorem exec_dispatch (k : Nat) (s : State) : exec (.dispatch k) s = execDispatch k s := rfl

/-! #### Within its contract, by what the mnemonic resolves to

`initialise` leaves the tables as they are, so the lookups are asked of `s`. -/

section
variable {s : State} {k : Nat} {T : OpcodeTemplate} {map : MapId}

theorem exec_dispatch_of_noMapping (h : Dispatchable s k T) (hm : mappingOf s.cfg T.mnemonic = none) :
    exec (.dispatch k) s = .next (raiseNoMapping T.mnemonic (initialise s)) :=
  (execDispatch_of_dispatchable h).trans (dispatchMnemonic_of_noMapping hm)

theorem exec_dispatch_of_special {kind : SpecialKind} (h : Dispatchable s k T)
    (hm : mappingOf s.cfg T.mnemonic = some map) (hs : specialOf s.cfg map = some kind) :
    exec (.dispatch k) s = .next (invokeSpecial kind (initialise s)) :=
  (execDispatch_of_dispatchable h).trans (dispatchMnemonic_of_special hm hs)

theorem exec_dispatch_of_noHandler (h : Dispatchable s k T) (hm : mappingOf s.cfg T.mnemonic = some map)
    (hs : specialOf s.cfg map = none) (hh : handlerOf s.cfg map = none) :
    exec (.dispatch k) s = .next (raiseNoHandler T.mnemonic (initialise s)) :=
  (execDispatch_of_dispatchable h).trans (dispatchMnemonic_of_noHandler hm hs hh)

theorem exec_dispatch_of_handler {e : HandlerEntry} (h : Dispatchable s k T)
    (hm : mappingOf s.cfg T.mnemonic = some map) (hs : specialOf s.cfg map = none)
    (hh : handlerOf s.cfg map = some e) :
    exec (.dispatch k) s = dispatchGeneric T.mnemonic map e (initialise s) :=
  (execDispatch_of_dispatchable h).trans (dispatchMnemonic_of_handler hm hs hh)

end

/-- Settles O39: the mnemonic has no mapping, and the state it is raised in is the initialised one. -/
theorem dispatchWithoutMapping : Obligations.DispatchWithoutMapping := by
  intro k T s h hm
  rw [exec_dispatch_of_noMapping h hm, raiseNoMapping_eq, raiseFatal_eq_fatalTaken]
  rfl

/-- Settles O40: the mapping is in neither handler table. -/
theorem dispatchWithoutHandler : Obligations.DispatchWithoutHandler := by
  intro k T map s h hm hs hh
  rw [exec_dispatch_of_noHandler h hm hs hh, raiseNoHandler_eq, raiseFatal_eq_fatalTaken]
  rfl

/-- Settles O41: the special table is looked at first, and its handler is given the context. -/
theorem dispatchSpecialHandler : Obligations.DispatchSpecialHandler := by
  intro k T map kind s h hm hs
  exact ⟨_, _, exec_dispatch_of_special h hm hs⟩

/-! #### How materialisation goes on behind ready positions

Each end of `materialise` comes after a run of ready positions, so each is said for one position and then carried
behind the run by `materialise_steps`. -/

section
variable {P : Params} {map : MapId} {c : DecodedInsn} {n p : Nat}

theorem materialise_of_noDefault (m : Materialised) (hp : c.nOps ≤ p) (hk : constOperand P map p = none) :
    materialise P map c (n + 1) p m = .missing p m := by
  have ho : c.operands[p]? = none := List.getElem?_eq_none hp
  simp only [materialise, ho, hk]

theorem bindOperand_of_outside {limm : I32} {o : Operand} (m : Materialised) (hr : o.type.reg = true)
    (hv : o.value.toInt < 0 ∨ P.numRegs ≤ o.value.toInt) : bindOperand P limm o m = none := by
  have hin : ¬(0 ≤ o.value.toInt ∧ o.value.toInt < P.numRegs) := by omega
  rw [bindOperand, if_pos hr, if_neg hin]

theorem materialise_of_outside {o : Operand} (m : Materialised) (ho : c.operands[p]? = some o) (hr : o.type.reg = true)
    (hv : o.value.toInt < 0 ∨ P.numRegs ≤ o.value.toInt) : materialise P map c (n + 1) p m = .outsideFile := by
  simp only [materialise, ho, bindOperand_of_outside m hr hv]

/-- The loop reaches position `p` when the ones below it are ready. -/
theorem materialise_reaches (m : Materialised) (h : ∀ q < p, PositionReady P map c q) :
    ∃ m' hs cs, materialise P map c (p + n) 0 m = materialise P map c n p m' ∧ Adds P map c 0 p m m' hs cs := by
  have hready : ∀ q < p, PositionReady P map c (0 + q) := by simpa using h
  obtain ⟨m', hs, cs, hrun, hadds⟩ := materialise_steps p (n := n) m hready
  rw [Nat.zero_add] at hrun
  exact ⟨m', hs, cs, hrun, hadds⟩

/-- All positions ready: one handle each (44_semantic_dispatcher.md R150). -/
theorem materialise_done (m : Materialised) (h : ∀ q < n, PositionReady P map c q) :
    ∃ m' hs cs, materialise P map c n 0 m = .done m' ∧ Adds P map c 0 n m m' hs cs :=
  materialise_reaches (n := 0) m h

/-- The lowest position without operand and default ends the loop with the handles below it (R150). -/
theorem materialise_missing (m : Materialised) (hpn : p < n) (h : ∀ q < p, PositionReady P map c q)
    (hp : c.nOps ≤ p) (hk : constOperand P map p = none) :
    ∃ m' hs cs, materialise P map c n 0 m = .missing p m' ∧ Adds P map c 0 p m m' hs cs := by
  obtain ⟨j, rfl⟩ := Nat.exists_eq_add_of_lt hpn
  obtain ⟨m', hs, cs, hrun, hadds⟩ := materialise_reaches (n := j + 1) m h
  exact ⟨m', hs, cs, hrun.trans (materialise_of_noDefault m' hp hk), hadds⟩

/-- A register outside the file at a position the loop reaches (R151). -/
theorem materialise_outsideFile {o : Operand} (m : Materialised) (hpn : p < n) (h : ∀ q < p, PositionReady P map c q)
    (ho : c.operands[p]? = some o) (hr : o.type.reg = true) (hv : o.value.toInt < 0 ∨ P.numRegs ≤ o.value.toInt) :
    materialise P map c n 0 m = .outsideFile := by
  obtain ⟨j, rfl⟩ := Nat.exists_eq_add_of_lt hpn
  obtain ⟨m', -, -, hrun, -⟩ := materialise_reaches (n := j + 1) m h
  exact hrun.trans (materialise_of_outside m' ho hr hv)

end

/-! #### The generic path -/

section
variable {mn : String} {map : MapId} {e : HandlerEntry} {s : State}

theorem dispatchGeneric_of_done {m : Materialised}
    (h : materialise s.cfg map s.dec.ctx.decoded e.arity 0 (startMaterialised s) = .done m) :
    dispatchGeneric mn map e s = .next (invokeHandler e.handler m s) := by
  simp only [dispatchGeneric, h]

theorem dispatchGeneric_of_missing {p : Nat} {m : Materialised}
    (h : materialise s.cfg map s.dec.ctx.decoded e.arity 0 (startMaterialised s) = .missing p m) :
    dispatchGeneric mn map e s = .next (raiseNoDefault mn p m s) := by
  simp only [dispatchGeneric, h]

theorem dispatchGeneric_of_outsideFile
    (h : materialise s.cfg map s.dec.ctx.decoded e.arity 0 (startMaterialised s) = .outsideFile) :
    dispatchGeneric mn map e s = .refused .registerOutsideFile := by
  simp only [dispatchGeneric, h]

/-- With `live_temps` empty, what stands at the end of materialisation is what it added. -/
theorem Adds.eq_of_start {c : DecodedInsn} {p n : Nat} {m : Materialised} {hs : List Handle} {cs : List Event}
    (hlive : s.dec.liveTemps = []) (h : Adds s.cfg map c p n (startMaterialised s) m hs cs) :
    m = { handles := hs, live := temporaries hs, calls := cs, nextTemp := s.nextTemp + (temporaries hs).length } := by
  obtain ⟨handles, live, calls, nextTemp⟩ := m
  rw [Materialised.mk.injEq]
  exact ⟨h.handlesAfter, by simpa [startMaterialised, hlive] using h.liveAfter, h.callsAfter, h.nextAfter⟩

/-- The temporaries of a run are new, each used once (10_state.md R38). -/
theorem Adds.temporaries_fresh {P : Params} {c : DecodedInsn} {p n : Nat} {m m' : Materialised} {hs : List Handle}
    {cs : List Event} (h : Adds P map c p n m m' hs cs) :
    (temporaries hs).Nodup ∧ ∀ t ∈ temporaries hs, m.nextTemp ≤ t := by
  rw [h.fresh]
  exact ⟨List.nodup_range', fun t ht => (List.mem_range'_1.mp ht).1⟩

theorem Adds.each_from_zero {P : Params} {c : DecodedInsn} {n : Nat} {m m' : Materialised} {hs : List Handle}
    {cs : List Event} (h : Adds P map c 0 n m m' hs cs) (q : Nat) (x : Handle) (f : Event) (hx : hs[q]? = some x)
    (hf : cs[q]? = some f) : Materialises P map c q x f := by
  simpa using h.each q x f hx hf

end

/-- Settles O42: all positions are ready, so materialisation is done with one handle each. -/
theorem dispatchGenericHandler : Obligations.DispatchGenericHandler := by
  intro k T map e s h hlive hm hs hh hready
  obtain ⟨m, args, calls, hdone, hadds⟩ := materialise_done (startMaterialised (initialise s)) hready
  obtain ⟨hnodup, hfresh⟩ := hadds.temporaries_fresh
  refine ⟨args, calls, Config.handlerDisposition s.ghost.free e.handler s.dec.ctx args, s.ghost.free + 1,
    hadds.handles, hadds.calls, hadds.each_from_zero, hnodup, hfresh, ?_⟩
  rw [exec_dispatch_of_handler h hm hs hh, dispatchGeneric_of_done (s := initialise s) hdone,
    Adds.eq_of_start (s := initialise s) hlive hadds]
  rfl

/-- Settles O43: the positions below `p` are ready, and `p` ends materialisation. -/
theorem dispatchWithoutDefault : Obligations.DispatchWithoutDefault := by
  intro k p T map e s h hlive hm hs hh hp hready hnOps hnone
  obtain ⟨m, args, calls, hmissing, hadds⟩ :=
    materialise_missing (startMaterialised (initialise s)) hp hready hnOps hnone
  refine ⟨args, calls, s.nextTemp + (temporaries args).length, hadds.handles, hadds.calls, hadds.each_from_zero, ?_⟩
  rw [exec_dispatch_of_handler h hm hs hh, dispatchGeneric_of_missing (s := initialise s) hmissing,
    Adds.eq_of_start (s := initialise s) hlive hadds, raiseNoDefault_eq, fatalTaken, ← List.append_assoc]
  rfl

/-! #### Refusals -/

section
variable {s : State} {k : Nat}

theorem exec_dispatch_of_unwritten (hs : s.dec.halted = false) (hc : s.ghost.ctxWritten = false) :
    exec (.dispatch k) s = .refused .unwrittenContext := by
  simp [exec_dispatch, execDispatch, hs, hc]

theorem exec_dispatch_of_unarmed (hs : s.dec.halted = false) (hc : s.ghost.ctxWritten = true)
    (ha : s.ghost.armed ≠ some k) : exec (.dispatch k) s = .refused .staleTemplate := by
  simp [exec_dispatch, execDispatch, hs, hc, ha]

theorem exec_dispatch_of_broken (hs : s.dec.halted = false) (hc : s.ghost.ctxWritten = true)
    (ha : s.ghost.armed = some k) (hw : tablesWf s.cfg = false) : exec (.dispatch k) s = .refused .illFormedTables := by
  simp [exec_dispatch, execDispatch, hs, hc, ha, hw]

theorem exec_dispatch_of_outside_table (hs : s.dec.halted = false) (hc : s.ghost.ctxWritten = true)
    (ha : s.ghost.armed = some k) (hw : tablesWf s.cfg = true) (hk : s.cfg.tOpcodes.length ≤ k) :
    exec (.dispatch k) s = .refused .staleTemplate := by
  simp [exec_dispatch, execDispatch, hs, hc, ha, hw, List.getElem?_eq_none hk]

end

/-- Settles O44: one guard of DISPATCH for each refusal; an operation that writes `ctx` leaves no template armed but the
one it returned. -/
theorem dispatchRefusals : Obligations.DispatchRefusals := by
  intro k s hs
  refine ⟨exec_dispatch_of_unwritten hs, exec_dispatch_of_unarmed hs, exec_dispatch_of_broken hs,
    exec_dispatch_of_outside_table hs, ?_, ?_⟩
  · intro T map e p o h hm hspecial hh hp hready ho hr hv
    rw [exec_dispatch_of_handler h hm hspecial hh]
    exact dispatchGeneric_of_outsideFile (materialise_outsideFile _ hp hready ho hr hv)
  · intro i t hi h ht hout
    cases hc : t.ghost.ctxWritten with
    | false => exact .inl (exec_dispatch_of_unwritten ht hc)
    | true => exact .inr (exec_dispatch_of_unarmed ht hc (armed_of_writesContext hs hi h hout))

/-! #### What DISPATCH leaves alone -/

/-- Settles O57: each way DISPATCH ends writes neither `ctx` nor the marks, and is reached through `initialise`. -/
theorem dispatchFrame : Obligations.DispatchFrame := by
  intro k s t h
  cases exec_next h with
  | halted _ _ hs => exact ⟨rfl, id, by simp [hs], rfl, rfl⟩
  | length _ hi => cases hi
  | variant _ hi => cases hi
  | value _ hi => cases hi
  | inner _ hi => cases hi
  | illegal _ hi => cases hi
  | noMapping => exact ⟨rfl, fun _ => rfl, fun _ => rfl, rfl, rfl⟩
  | noHandler => exact ⟨rfl, fun _ => rfl, fun _ => rfl, rfl, rfl⟩
  | special => exact ⟨rfl, id, fun _ => rfl, rfl, rfl⟩
  | generic => exact ⟨rfl, fun _ => rfl, fun _ => rfl, rfl, rfl⟩
  | noDefault => exact ⟨rfl, fun _ => rfl, fun _ => rfl, rfl, rfl⟩

/-! #### PC-relative targets -/

/-- The low 32 bits of an i64 are its signed value modulo 2^32. -/
theorem setWidth_toNat_eq_toInt_emod (v : I64) : ((v.setWidth 32).toNat : Int) = v.toInt % 2 ^ 32 := by
  rw [BitVec.toNat_setWidth, BitVec.toInt_eq_toNat_cond]
  split <;> omega

/-- Settles O46: the sum of the address and the offset's low 32 bits, modulo 2^32. -/
theorem pcRelativeTargetWraps : Obligations.PcRelativeTargetWraps := by
  intro ctx offset
  rw [pcRelativeTarget, BitVec.toNat_add, Int.natCast_mod, Int.natCast_add, setWidth_toNat_eq_toInt_emod]
  omega

end Sys2Proof.Machine
end

section
/-! ### Proofs about the outcomes (60_exceptions.md): what is answered while halted, the code a command returns, how
`halted` rises, what the operations that only answer leave alone -/

namespace Sys2Proof.Machine

/-! #### The reserved codes (R163) -/

theorem exec_reserved110 (s : State) : exec .reserved110 s = illegalOp s := rfl

/-- Settles O49: while running, the guard lets the completion with ILLEGAL_OP through. -/
theorem reservedCodesAreIllegal : Obligations.ReservedCodesAreIllegal := fun s hs =>
  ⟨(exec_reserved110 s).trans (unlessHalted_of_running hs _), rfl⟩

/-! #### While halted (R164, R167) -/

/-- RESET alone is not guarded by `halted`. -/
theorem exec_guarded {i : Instr} (hi : i ≠ .reset) (s : State) : ∃ r, exec i s = unlessHalted s r := by
  cases i
  case reset => exact absurd rfl hi
  all_goals exact ⟨_, rfl⟩

/-- Settles O50: the guard answers HALTED, whatever the operation behind it would do. -/
theorem haltedAnswersHalted : Obligations.HaltedAnswersHalted := by
  intro i s hs hi
  obtain ⟨r, hr⟩ := exec_guarded hi s
  exact hr.trans (unlessHalted_of_halted hs r)

/-! #### The code a command returns (R158) -/

/-- An outcome code is returned, and written to `status` unless it is HALTED. -/
def ReturnsStatus (s t : State) : Prop :=
  ∃ c, t.port.answer.outcome = some c ∧ (c = .halted → t.dec.status = s.dec.status) ∧ (c ≠ .halted → t.dec.status = c)

theorem answerHalted_returnsStatus (s : State) : ReturnsStatus s (answerHalted s) :=
  ⟨.halted, rfl, fun _ => rfl, fun h => absurd rfl h⟩

/-- Whatever state `s'` the operation has made of `s` when it completes. -/
theorem complete_returnsStatus {c : OutcomeCode} (hc : c ≠ .halted) (i : OutcomeInfo) (r : Output) (s s' : State) :
    ReturnsStatus s (complete c i r s') :=
  ⟨c, rfl, fun h => absurd h hc, fun _ => rfl⟩

theorem raiseFatal_returnsStatus {c : OutcomeCode} (hc : c.isFatal = true) (i : OutcomeInfo) (d : Diag)
    (s s' : State) : ReturnsStatus s (raiseFatal c i d s') :=
  complete_returnsStatus (ne_halted_of_isFatal hc) i .nothing s _

/-- RESET has written OK with the rest of DEC before it answers. -/
theorem resetDec_returnsStatus (s : State) : ReturnsStatus s (answer (some .ok) .nothing .nothing (resetDec s)) :=
  ⟨.ok, rfl, nofun, fun _ => rfl⟩

theorem decodeNext_returnsStatus {s s' t : State} (h : DecodeNext s' t) : ReturnsStatus s t := by
  cases h with
  | abort => exact complete_returnsStatus (by decide) _ _ s _
  | variant => exact raiseFatal_returnsStatus rfl _ _ s _
  | length => exact raiseFatal_returnsStatus rfl _ _ s _
  | miss => exact complete_returnsStatus (by decide) _ _ s _
  | done => exact complete_returnsStatus (by decide) _ _ s _

theorem exec_returnsStatus {i : Instr} {s t : State} (hi : isCommand i = true) (h : exec i s = .next t) :
    ReturnsStatus s t := by
  cases exec_next h with
  | halted => exact answerHalted_returnsStatus s
  | inner _ _ hc => exact absurd (hc.symm.trans hi) Bool.false_ne_true
  | decode _ _ _ _ _ _ hd => exact decodeNext_returnsStatus hd
  | reset => exact resetDec_returnsStatus s
  | length | value | illegal | found | missed | special | generic => exact complete_returnsStatus (by decide) _ _ s _
  | variant | noMapping | noHandler | noDefault => exact raiseFatal_returnsStatus rfl _ _ s _

/-- Settles O51: of all the ends only that of an inner test has no code, and no command ends so. -/
theorem everyCommandReturnsItsStatus : Obligations.EveryCommandReturnsItsStatus := by
  intro i s t hi h
  have hcmd : isCommand i = true := by
    cases i
    case classify | findFormat | readAndDecode | dispatch | extract | reset | reserved110 | reserved111 => rfl
    all_goals exact hi.elim
  exact exec_returnsStatus hcmd h

/-! #### How `halted` rises (R164, R165) -/

/-- The kind of the diagnostic of a fatal code (R165). -/
def diagKindOf : OutcomeCode → DiagKind
  | .fatalNoMapping => .noMapping
  | .fatalNoHandler => .unimplementedSemantic
  | _ => .fatalConfiguration

/-- No diagnostic stands among these events. -/
def NoDiags (es : List Event) : Prop := ∀ e ∈ es, ∀ d, e ≠ .diag d

theorem noDiags_nil : NoDiags [] := by simp [NoDiags]

theorem noDiags_append {es fs : List Event} (he : NoDiags es) (hf : NoDiags fs) : NoDiags (es ++ fs) :=
  List.forall_mem_append.mpr ⟨he, hf⟩

theorem noDiags_reads (rs : List (ReadWidth × Addr)) : NoDiags (rs.map fun r => .read r.1 r.2) := by
  intro e he d
  obtain ⟨r, -, rfl⟩ := List.mem_map.mp he
  simp

theorem noDiags_releases (ts : List Nat) : NoDiags (ts.map .release) := by simp [NoDiags]

theorem HandleCalls.noDiags {es : List Event} (h : HandleCalls es) : NoDiags es := fun _ he => h.not_diag he

/-- From `s` to `t` a fatal condition was taken, with the one diagnostic of its code last in the trace. -/
def HaltsWithDiagnostic (s t : State) : Prop :=
  t.dec.status.isFatal = true ∧ t.dec.liveTemps = [] ∧
    ∃ before d, t.log = s.log ++ before ++ [.diag d] ∧ NoDiags before ∧ d.kind = diagKindOf t.dec.status

/-- `before` is what the operation has traced since `s` when it takes the condition. -/
theorem raiseFatal_haltsWithDiagnostic {s s' : State} {before : List Event} (hlog : s'.log = s.log ++ before)
    (hb : NoDiags before) {c : OutcomeCode} {d : Diag} (hc : c.isFatal = true) (hd : d.kind = diagKindOf c)
    (i : OutcomeInfo) : HaltsWithDiagnostic s (raiseFatal c i d s') :=
  ⟨hc, rfl, before, d, by rw [raiseFatal_log, hlog], hb, hd⟩

/-- A fatal condition taken with nothing traced before it. -/
theorem raiseFatal_haltsWithDiagnostic_of_untraced {s s' : State} (hlog : s'.log = s.log) {c : OutcomeCode} {d : Diag}
    (hc : c.isFatal = true) (hd : d.kind = diagKindOf c) (i : OutcomeInfo) :
    HaltsWithDiagnostic s (raiseFatal c i d s') :=
  raiseFatal_haltsWithDiagnostic (by rw [hlog, List.append_nil]) noDiags_nil hc hd i

theorem decodeNext_haltsWithDiagnostic {s s' t : State} {before : List Event} (hs : s'.dec.halted = false)
    (hlog : s'.log = s.log ++ before) (hb : NoDiags before) (h : DecodeNext s' t) (ht : t.dec.halted = true) :
    HaltsWithDiagnostic s t := by
  cases h with
  | variant => exact raiseFatal_haltsWithDiagnostic hlog hb rfl rfl _
  | length => exact raiseFatal_haltsWithDiagnostic hlog hb rfl rfl _
  | abort | miss | done => exact absurd (hs.symm.trans ht) Bool.false_ne_true

/-- Only the fatal ends write `halted`, RESET apart, which clears it. -/
theorem exec_haltsWithDiagnostic {i : Instr} {s t : State} (hs : s.dec.halted = false) (h : exec i s = .next t)
    (ht : t.dec.halted = true) : HaltsWithDiagnostic s t := by
  cases exec_next h with
  | halted | length | value | inner | illegal | found | missed | special | generic =>
    exact absurd (hs.symm.trans ht) Bool.false_ne_true
  | reset => exact absurd ht Bool.false_ne_true
  | decode pc v _ rs _ _ hd =>
    exact decodeNext_haltsWithDiagnostic (by simpa using hs) (by rw [readAll_eq]; rfl) (noDiags_reads rs) hd ht
  | variant | noMapping | noHandler => exact raiseFatal_haltsWithDiagnostic_of_untraced rfl rfl rfl _
  | noDefault _ _ _ _ m hm =>
    exact raiseFatal_haltsWithDiagnostic (List.append_assoc _ _ _)
      (noDiags_append hm.noDiags (noDiags_releases m.live)) rfl rfl _

theorem isFatal_iff (c : OutcomeCode) : c.isFatal = true ↔ 2 ≤ c.number ∧ c.number ≤ 6 := by
  simp only [OutcomeCode.isFatal, Bool.and_eq_true, decide_eq_true_iff]

/-- Settles O52: a running DEC is halted by a fatal end alone, and each traces its diagnostic last. -/
theorem haltedRisesOnlyWithDiagnostic : Obligations.HaltedRisesOnlyWithDiagnostic := by
  intro i s t h hs ht
  obtain ⟨hc, hlive, before, d, hlog, hb, hd⟩ := exec_haltsWithDiagnostic hs h ht
  obtain ⟨hlow, hhigh⟩ := (isFatal_iff _).mp hc
  exact ⟨hlow, hhigh, hlive, before, d, hlog, hb, hd⟩

/-! #### What the operations that only answer leave alone (R168) -/

/-- Settles O54: such an operation ends with an answer, or with FATAL_VARIANT, which traces its diagnostic and empties
`live_temps`. -/
theorem answerOnlyFrame : Obligations.AnswerOnlyFrame := by
  intro i s t hi h
  cases exec_next h with
  | halted | length | value | inner | illegal => exact ⟨rfl, rfl, rfl, rfl, .inl rfl, .inl rfl⟩
  | variant => exact ⟨rfl, rfl, rfl, rfl, .inr ⟨_, rfl⟩, .inr rfl⟩
  | found | missed | decode | noMapping | noHandler | special | generic | noDefault | reset => cases hi

end Sys2Proof.Machine
end

section
/-! ### Proofs about reset and the step (70_reset_and_hazards.md): what a step does with the bytes presented (R184,
R185), and RESET from every state (R173) -/

namespace Sys2Proof.Machine

/-! #### What is presented on the interface -/

theorem nextCommand_of_nil {s : State} (h : s.port.cmds = []) : nextCommand s = .idle := by
  unfold nextCommand
  rw [h]

theorem nextCommand_of_error {s : State} {e : DecodeError} (hne : s.port.cmds ≠ [])
    (h : decode s.port.cmds = .error e) : nextCommand s = .garbled := by
  obtain ⟨b, bs, hb⟩ := List.exists_cons_of_ne_nil hne
  rw [hb] at h
  unfold nextCommand
  simp only [hb, h]

/-! #### What a step does with it -/

theorem step_of_idle {s : State} (h : nextCommand s = .idle) : step s = .next s := by
  unfold step
  rw [h]

theorem step_of_garbled {s : State} (h : nextCommand s = .garbled) : step s = .refused .noCommand := by
  unfold step
  rw [h]

theorem step_of_command {s : State} {i : Instr} {rest : List Byte} (h : nextCommand s = .command i rest) :
    step s = exec i (leaveCommands rest s) := by
  unfold step
  rw [h]

/-- Settles O4: a packet, nothing, or bytes that are no packet: one case of `nextCommand` each. -/
theorem stepRunsDecodedCommand : Obligations.StepRunsDecodedCommand := by
  refine ⟨fun s i rest h => ?packet, fun s h => ?nothing, fun s e hne h => ?noPacket⟩
  case packet => exact step_of_command (nextCommand_of_decode h)
  case nothing => exact step_of_idle (nextCommand_of_nil h)
  case noPacket => exact step_of_garbled (nextCommand_of_error hne h)

/-! #### RESET -/

/-- RESET is not guarded by `halted`. -/
theorem exec_reset (s : State) : exec .reset s = .next (answer (some .ok) .nothing .nothing (resetDec s)) := rfl

/-- Settles O47: RESET is unguarded, and the fields and the counter it leaves open are the free values `resetDec`
draws. -/
theorem resetFromEveryState : Obligations.ResetFromEveryState := fun s =>
  ⟨Config.freeAddr s.ghost.free, Config.freeAddr (s.ghost.free + 1), Config.freeAddr (s.ghost.free + 2),
    Config.freeVariant (s.ghost.free + 3), s.ghost.free + 4, exec_reset s⟩

end Sys2Proof.Machine
end

section
/-! ### Proofs about packets (30_encoding.md section 8): the decoder and the encoder are inverse to each other -/

namespace Sys2Proof.Machine

/-! #### The one row a unit or a mask lies in is the row the decoder gives it -/

section LegacyRow
variable {u : InsnUnit} (v : VariantMask)

/-- The rows of the legacy variants by the major opcode (R79). -/
theorem legacyRow_eq : legacyRow u v =
    if u.toNat / 2 ^ 11 ≤ 0x7 then .lenLegacyMajor00To07 u v
    else if 0x8 ≤ u.toNat / 2 ^ 11 ∧ u.toNat / 2 ^ 11 ≤ 0x9 then .lenLegacyMajor08To09 u v
    else if u.toNat / 2 ^ 11 = 0xa then .lenLegacyMajor0A u v
    else if u.toNat / 2 ^ 11 = 0xb then .lenLegacyMajor0B u v
    else if 0xc ≤ u.toNat / 2 ^ 11 ∧ u.toNat / 2 ^ 11 ≤ 0xf then .lenLegacyMajor0CTo0F u v
    else .lenLegacyMajor10To1F u v := by
  simp only [legacyRow, unitInRow_00_07, unitInRow_08_09, unitInRow_0A, unitInRow_0B, unitInRow_0C_0F]

theorem legacyRow_00_07 (h : unitInRow 0xC000 0x0000 u = true) : legacyRow u v = .lenLegacyMajor00To07 u v := if_pos h

theorem legacyRow_08_09 (h : unitInRow 0xF000 0x4000 u = true) : legacyRow u v = .lenLegacyMajor08To09 u v := by
  rw [unitInRow_08_09] at h
  rw [legacyRow_eq, if_neg (by omega), if_pos h]

theorem legacyRow_0A (h : unitInRow 0xF800 0x5000 u = true) : legacyRow u v = .lenLegacyMajor0A u v := by
  rw [unitInRow_0A] at h
  rw [legacyRow_eq, if_neg (by omega), if_neg (by omega), if_pos h]

theorem legacyRow_0B (h : unitInRow 0xF800 0x5800 u = true) : legacyRow u v = .lenLegacyMajor0B u v := by
  rw [unitInRow_0B] at h
  rw [legacyRow_eq, if_neg (by omega), if_neg (by omega), if_neg (by omega), if_pos h]

theorem legacyRow_0C_0F (h : unitInRow 0xE000 0x6000 u = true) : legacyRow u v = .lenLegacyMajor0CTo0F u v := by
  rw [unitInRow_0C_0F] at h
  rw [legacyRow_eq, if_neg (by omega), if_neg (by omega), if_neg (by omega), if_neg (by omega), if_pos h]

theorem legacyRow_10_1F (h : unitInRow 0x8000 0x8000 u = true) : legacyRow u v = .lenLegacyMajor10To1F u v := by
  rw [unitInRow_10_1F] at h
  rw [legacyRow_eq, if_neg (by omega), if_neg (by omega), if_neg (by omega), if_neg (by omega), if_neg (by omega)]

end LegacyRow

section CurrentRow
variable {u : InsnUnit} (v : VariantMask)

/-- The rows of the current variants by the major opcode (R80). -/
theorem currentRow_eq : currentRow u v =
    if u.toNat / 2 ^ 11 ≤ 0x7 then .lenCurrentMajor00To07 u v
    else if 0x8 ≤ u.toNat / 2 ^ 11 ∧ u.toNat / 2 ^ 11 ≤ 0xf then .lenCurrentMajor08To0F u v
    else .lenCurrentMajor10To1F u v := by
  simp only [currentRow, unitInRow_00_07, unitInRow_08_0F]

theorem currentRow_00_07 (h : unitInRow 0xC000 0x0000 u = true) : currentRow u v = .lenCurrentMajor00To07 u v := if_pos h

theorem currentRow_08_0F (h : unitInRow 0xC000 0x4000 u = true) : currentRow u v = .lenCurrentMajor08To0F u v := by
  rw [unitInRow_08_0F] at h
  rw [currentRow_eq, if_neg (by omega), if_pos h]

theorem currentRow_10_1F (h : unitInRow 0x8000 0x8000 u = true) : currentRow u v = .lenCurrentMajor10To1F u v := by
  rw [unitInRow_10_1F] at h
  rw [currentRow_eq, if_neg (by omega), if_neg (by omega)]

end CurrentRow

/-- The rows of the masks, by the thresholds of R70. -/
theorem maskRow_of_wellFormed {i : Instr} {m : Word} (hw : i.wellFormed = true)
    (hi : i = .templateLen2 m ∨ i = .templateLen4 m ∨ i = .templateLen6 m ∨ i = .templateLen8 m) : maskRow m = i := by
  unfold maskRow
  rcases hi with rfl | rfl | rfl | rfl <;>
    simp only [Instr.wellFormed, Bool.and_eq_true, decide_eq_true_eq] at hw
  · rw [if_pos hw]
  · rw [if_neg (by omega), if_pos hw.2]
  · rw [if_neg (by omega), if_neg (by omega), if_pos hw.2]
  · rw [if_neg (by omega), if_neg (by omega), if_neg (by omega)]

/-! #### Decoding what was encoded -/

/-- Reading back the bytes of a word of `8 * n` bits. -/
theorem operandLE_word (n : Nat) (x : BitVec (8 * n)) (rest : List Byte) (k : Nat → List Byte → Decoded) :
    operandLE n (putLE n x.toNat ++ rest) k = k x.toNat rest := by
  refine operandLE_putLE ?_ rest k
  calc x.toNat < 2 ^ (8 * n) := x.isLt
    _ = 256 ^ n := Nat.pow_mul 2 8 n

/-- Reading back the byte of a 4-bit mask. -/
theorem smallOperand_mask (v : VariantMask) (rest : List Byte) (k : Nat → List Byte → Decoded) :
    smallOperand 16 (putLE 1 v.toNat ++ rest) k = k v.toNat rest :=
  smallOperand_putLE v.isLt (v.isLt.trans (by decide)) rest k

/-- Reading back a byte below 4. -/
theorem smallOperand_two_bits {c : Nat} (h : c < 4) (rest : List Byte) (k : Nat → List Byte → Decoded) :
    smallOperand 4 (putLE 1 c ++ rest) k = k c rest :=
  smallOperand_putLE h (h.trans (by decide)) rest k

theorem decode_encodeUnit (u : InsnUnit) {v : VariantMask} (hv : isLegacyVariant v = true ∨ isCurrentVariant v = true)
    (rest : List Byte) : decode (encodeUnit u v ++ rest) = .ok (unitRow u v, rest) := by
  simp [decode, encodeUnit, operandLE_word 2 u, smallOperand_two_bits (indexOfVariant_lt v),
    variantOfIndex_indexOfVariant hv]

theorem not_isLegacyVariant_of_current : ∀ {v : VariantMask}, isCurrentVariant v = true → ¬ isLegacyVariant v = true := by
  decide

theorem decode_encodeUnit_legacy {i : Instr} {u : InsnUnit} {v : VariantMask} {inRow : Bool}
    (hr : inRow = true → legacyRow u v = i) (hw : (inRow && isLegacyVariant v) = true) (rest : List Byte) :
    decode (encodeUnit u v ++ rest) = .ok (i, rest) := by
  obtain ⟨hu, hv⟩ := (Bool.and_eq_true _ _).mp hw
  rw [decode_encodeUnit u (.inl hv), unitRow, if_pos hv, hr hu]

theorem decode_encodeUnit_current {i : Instr} {u : InsnUnit} {v : VariantMask} {inRow : Bool}
    (hr : inRow = true → currentRow u v = i) (hw : (inRow && isCurrentVariant v) = true) (rest : List Byte) :
    decode (encodeUnit u v ++ rest) = .ok (i, rest) := by
  obtain ⟨hu, hv⟩ := (Bool.and_eq_true _ _).mp hw
  rw [decode_encodeUnit u (.inr hv), unitRow, if_neg (not_isLegacyVariant_of_current hv), hr hu]

theorem decode_encodeMask {i : Instr} {m : Word} (hr : maskRow m = i) (rest : List Byte) :
    decode (encodeMask m ++ rest) = .ok (i, rest) := by
  simp [decode, encodeMask, operandLE_word 8 m, hr]

theorem meetsCurrent_iff (m : VariantMask) : meetsCurrent m = true ↔ 4 ≤ m.toNat := by revert m; decide

theorem not_meetsCurrent_iff (m : VariantMask) : (!meetsCurrent m) = true ↔ m.toNat < 4 := by revert m; decide

/-- Settles O2: the operand bytes of each selector are read back one by one; a unit and a mask come back as the row they
lie in. -/
theorem decodeInvertsEncode : Obligations.DecodeInvertsEncode := by
  intro i rest hw
  cases i with
  | classify u v => simp [decode, encode, operandLE_word 2 u, smallOperand_mask v]
  | findFormat w l m =>
    simp [decode, encode, operandLE_word 8 w, smallOperand_two_bits l.code_lt, smallOperand_mask m]
  | readAndDecode pc v => simp [decode, encode, operandLE_word 4 pc, smallOperand_mask v]
  | dispatch t =>
    have ht : t < 256 ^ 4 := of_decide_eq_true hw
    simp [decode, encode, operandLE_putLE ht]
  | extract w k =>
    have hk : k < 256 ^ 4 := of_decide_eq_true hw
    simp [decode, encode, operandLE_word 8 w, operandLE_putLE hk]
  | reset | reserved110 | reserved111 => rfl
  | lenLegacyMajor00To07 u v => exact decode_encodeUnit_legacy (legacyRow_00_07 v) hw rest
  | lenLegacyMajor08To09 u v => exact decode_encodeUnit_legacy (legacyRow_08_09 v) hw rest
  | lenLegacyMajor0A u v => exact decode_encodeUnit_legacy (legacyRow_0A v) hw rest
  | lenLegacyMajor0B u v => exact decode_encodeUnit_legacy (legacyRow_0B v) hw rest
  | lenLegacyMajor0CTo0F u v => exact decode_encodeUnit_legacy (legacyRow_0C_0F v) hw rest
  | lenLegacyMajor10To1F u v => exact decode_encodeUnit_legacy (legacyRow_10_1F v) hw rest
  | lenCurrentMajor00To07 u v => exact decode_encodeUnit_current (currentRow_00_07 v) hw rest
  | lenCurrentMajor08To0F u v => exact decode_encodeUnit_current (currentRow_08_0F v) hw rest
  | lenCurrentMajor10To1F u v => exact decode_encodeUnit_current (currentRow_10_1F v) hw rest
  | templateLen2 m => exact decode_encodeMask (maskRow_of_wellFormed hw (.inl rfl)) rest
  | templateLen4 m => exact decode_encodeMask (maskRow_of_wellFormed hw (.inr (.inl rfl))) rest
  | templateLen6 m => exact decode_encodeMask (maskRow_of_wellFormed hw (.inr (.inr (.inl rfl)))) rest
  | templateLen8 m => exact decode_encodeMask (maskRow_of_wellFormed hw (.inr (.inr (.inr rfl)))) rest
  | limmSentinel4B m => simp [decode, encode, smallOperand_mask m]
  | limmSentinel2BCurrent m =>
    have hlt := m.isLt
    have hm : 4 ≤ m.toNat := (meetsCurrent_iff m).mp hw
    have hc : m.toNat - 4 < 12 := by omega
    simp [decode, encode, smallOperand_putLE hc (hc.trans (by decide)), Nat.sub_add_cancel hm]
  | limmSentinel2BLegacy v m =>
    have hm : m.toNat < 4 := (not_meetsCurrent_iff m).mp hw
    simp [decode, encode, operandLE_word 8 v, smallOperand_two_bits hm]
  | regShorthandCode0 | regShorthandCode1 | regShorthandCode2 | regShorthandCode3 => rfl
  | regShorthandCode4 | regShorthandCode5 | regShorthandCode6 | regShorthandCode7 => rfl

/-! #### Encoding what was decoded -/

/-- What `d`, reading on after the bytes `pre`, answers is well-formed, and its packet is `pre` and the bytes that `d` has
taken. -/
def ReadsPacket (pre : List Byte) (d : List Byte → Decoded) : Prop :=
  ∀ (bs : List Byte) (i : Instr) (rest : List Byte), d bs = .ok (i, rest) →
    i.wellFormed = true ∧ encode i ++ rest = pre ++ bs

theorem ReadsPacket.answer {pre : List Byte} {i : Instr} (hw : i.wellFormed = true) (he : encode i = pre) :
    ReadsPacket pre fun bs => .ok (i, bs) := by
  rintro bs _ _ ⟨⟩
  exact ⟨hw, congrArg (· ++ bs) he⟩

theorem ReadsPacket.error {pre : List Byte} {e : DecodeError} : ReadsPacket pre fun _ => .error e := by
  rintro _ _ _ ⟨⟩

/-- An operand's bytes are put back in front of what is read after it. -/
theorem ReadsPacket.operandLE {pre : List Byte} {n : Nat} {k : Nat → List Byte → Decoded}
    (h : ∀ v, v < 256 ^ n → ReadsPacket (pre ++ putLE n v) (k v)) :
    ReadsPacket pre fun bs => Sys2Proof.operandLE n bs k := by
  intro bs i rest hd
  obtain ⟨v, bs', hv, rfl, hk⟩ := operandLE_ok hd
  rw [← List.append_assoc]
  exact h v hv bs' i rest hk

theorem ReadsPacket.smallOperand {pre : List Byte} {bound : Nat} {k : Nat → List Byte → Decoded}
    (h : ∀ v, v < bound → ReadsPacket (pre ++ putLE 1 v) (k v)) :
    ReadsPacket pre fun bs => Sys2Proof.smallOperand bound bs k := by
  intro bs i rest hd
  obtain ⟨v, bs', hv, rfl, hk⟩ := smallOperand_ok hd
  rw [← List.append_assoc]
  exact h v hv bs' i rest hk

/-- The decoder's choice by selector: each branch is held to its own selector byte. -/
theorem ReadsPacket.selector {tag c : Byte} {d d' : List Byte → Decoded} (h : ReadsPacket [c] d)
    (h' : ReadsPacket [tag] d') : ReadsPacket [tag] fun bs => if tag = c then d bs else d' bs := by
  by_cases ht : tag = c
  · subst ht
    simpa only [if_pos] using h
  · simpa only [if_neg ht] using h'

theorem toNat_ofNat_of_lt {x : Nat} (w : Nat) (h : x < 2 ^ w) : (BitVec.ofNat w x).toNat = x := Nat.mod_eq_of_lt h

theorem unitRow_readsPacket {u v : Nat} (hu : u < 2 ^ 16) (hv : v < 4) :
    ReadsPacket (0x10 :: (putLE 2 u ++ putLE 1 v))
      fun bs => .ok (unitRow (BitVec.ofNat 16 u) (variantOfIndex v), bs) := by
  obtain ⟨hw, he⟩ := unitRow_spec (BitVec.ofNat 16 u) ((variantOfIndex_recognised hv).imp_right And.right)
  refine .answer hw ?_
  rw [he, encodeUnit, toNat_ofNat_of_lt 16 hu, indexOfVariant_variantOfIndex hv]

theorem maskRow_readsPacket {m : Nat} (hm : m < 2 ^ 64) :
    ReadsPacket (0x20 :: putLE 8 m) fun bs => .ok (maskRow (BitVec.ofNat 64 m), bs) := by
  obtain ⟨hw, he⟩ := maskRow_spec (BitVec.ofNat 64 m)
  refine .answer hw ?_
  rw [he, encodeMask, toNat_ofNat_of_lt 64 hm]

/-- The decoder answers what its selector byte and the operand bytes after it encode, selector by selector. -/
theorem decode_readsPacket (tag : Byte) : ReadsPacket [tag] fun bs => decode (tag :: bs) := by
  refine .selector ?classify <| .selector ?findFormat <| .selector ?readAndDecode <| .selector ?dispatch <|
    .selector ?extract <| .selector (.answer rfl rfl) <| .selector (.answer rfl rfl) <| .selector (.answer rfl rfl) <|
    .selector (.answer rfl rfl) <| .selector (.answer rfl rfl) <| .selector (.answer rfl rfl) <|
    .selector (.answer rfl rfl) <| .selector (.answer rfl rfl) <| .selector (.answer rfl rfl) <|
    .selector (.answer rfl rfl) <| .selector (.answer rfl rfl) <| .selector ?unit <| .selector ?mask <|
    .selector ?sentinel2BCurrent <| .selector ?sentinel4B <| .selector ?sentinel2BLegacy .error
  case classify =>
    exact .operandLE fun u hu => .smallOperand fun v hv => .answer rfl <| by
      rw [encode, toNat_ofNat_of_lt 16 hu, toNat_ofNat_of_lt 4 hv]
      rfl
  case findFormat =>
    exact .operandLE fun w hw => .smallOperand fun l hl => .smallOperand fun m hm => .answer rfl <| by
      rw [encode, toNat_ofNat_of_lt 64 hw, ByteLen.code_ofCode hl, toNat_ofNat_of_lt 4 hm]
      rfl
  case readAndDecode =>
    exact .operandLE fun pc hpc => .smallOperand fun v hv => .answer rfl <| by
      rw [encode, toNat_ofNat_of_lt 32 hpc, toNat_ofNat_of_lt 4 hv]
      rfl
  case dispatch => exact .operandLE fun t ht => .answer (decide_eq_true ht) rfl
  case extract =>
    exact .operandLE fun w hw => .operandLE fun k hk => .answer (decide_eq_true hk) <| by
      rw [encode, toNat_ofNat_of_lt 64 hw]
      rfl
  case unit => exact .operandLE fun u hu => .smallOperand fun v hv => unitRow_readsPacket hu hv
  case mask => exact .operandLE fun m hm => maskRow_readsPacket hm
  case sentinel2BCurrent =>
    refine .smallOperand fun m hm => ?_
    have hn : (BitVec.ofNat 4 (m + 4)).toNat = m + 4 := toNat_ofNat_of_lt 4 (by omega)
    refine .answer ((meetsCurrent_iff _).mpr (by omega)) ?_
    rw [encode, hn, Nat.add_sub_cancel]
    rfl
  case sentinel4B =>
    exact .smallOperand fun m hm => .answer rfl <| by
      rw [encode, toNat_ofNat_of_lt 4 hm]
      rfl
  case sentinel2BLegacy =>
    refine .smallOperand fun m hm => .operandLE fun v hv => ?_
    have hn : (BitVec.ofNat 4 m).toNat = m := toNat_ofNat_of_lt 4 (by omega)
    refine .answer ((not_meetsCurrent_iff _).mpr (by omega)) ?_
    rw [encode, hn, toNat_ofNat_of_lt 64 hv]
    rfl

/-- Settles O3: no packet is empty, and behind its selector byte the decoder reads a packet. -/
theorem encodeInvertsDecode : Obligations.EncodeInvertsDecode := by
  intro bs i rest h
  cases bs with
  | nil => cases h
  | cons tag bs => exact decode_readsPacket tag bs i rest h

end Sys2Proof.Machine
end
